-- ==== Sys2Proof/Word.lean ====
section
/-! DEFINITION. The word and byte types and nothing more: every operator of the spec's datapath is the
core library's own operation on bit vectors (`+` wraps, `<<<` and `>>>` are logical), which is what rule R15
asks for. There is no signed arithmetic in this hardware. -/

namespace Sys2Proof

/-- A word: an unsigned 32-bit value (R11, R14). -/
abbrev Word := BitVec 32

/-- A byte: an unsigned 8-bit value (R11, R14). -/
abbrev Byte := BitVec 8

end Sys2Proof
end

