-- ==== Sys2Proof/Syntax.lean ====
section
/-! DEFINITION. What the host can say to the block: the eight instructions (R71), the four fields of a command
word (R70), and the seven address spaces an access can name (R50). -/

namespace Sys2Proof

/-- The instructions, one constructor for each row of the opcode table (R71). The only operand any of them
carries is the bit `T` (R75), written `t`. -/
inductive Instr where
  /-- `pack(plaintext, track_length = t)`: PT to W (R92). -/
  | packm (t : Bool)
  /-- `pack(key, track_length = t)`: KB to K (R93). -/
  | packk (t : Bool)
  /-- `unpack(words, validate_length = t)`: W to OB (R95). -/
  | unpack (t : Bool)
  /-- `encrypt`: mix W in place (R119). -/
  | mix
  /-- `encode`: the chain pack, pack, mix, unpack (R140). -/
  | encode
  /-- `encode_custom_base64` of the output bytes: OB to SY (R156). -/
  | b64o
  /-- `encode_custom_base64` of the plaintext bytes: PT to SY (R157). -/
  | b64p
  /-- Soft reset (R178). -/
  | sreset
  deriving DecidableEq, Repr

/-- A command word cut into its four fields (R70). -/
structure CmdFields where
  /-- Bits 31:6, which must be 0. -/
  zero : BitVec 26
  /-- Bit 5, the source select. -/
  s : Bool
  /-- Bit 4, the Boolean argument. -/
  t : Bool
  /-- Bits 3:0, the operation code. -/
  op : BitVec 4
  deriving DecidableEq, Repr

/-- The address spaces of the block (R50). -/
inductive Space where
  | csr | pt | kb | w | k | ob | sy
  deriving DecidableEq, Repr

/-- How many bytes one entry of a space takes on a byte-addressed bus (R50, R53). -/
def Space.entryBytes : Space → Nat
  | .csr | .w | .k => 4
  | .pt | .kb | .ob | .sy => 1

end Sys2Proof
end

