-- ==== Sys2Proof/Config.lean ====
section
/-! DEFINITION. The implementation parameters of rule R12, "the model takes the following parameters as
arguments". They are fields of one record, which every state carries (log 1), so every claim about a state is a
claim for every value of them. -/

namespace Sys2Proof

/-- Where in a round the accumulator is incremented (R115): before the sweep or after it. -/
inductive SumPhase where
  | pre | post
  deriving DecidableEq, Repr

/-- One window of the platform's address map (R12 `MAP`, R58): the entries `first .. first + count - 1` of `space`
stand one after the other from bus address `base` on, each at the next multiple of the entry's size. Windows of one
entry each give any map at all (log 11). -/
structure MapWindow where
  space : Space
  first : Nat
  count : Nat
  base  : Nat
  deriving DecidableEq, Repr

/-- The parameters of R12. The derived capacities are computed from them (`Machine/Operands.lean`). -/
structure Config where
  /-- `PT_MAX`, capacity of PT in bytes: OPEN, 1 to 2^30. -/
  ptMax : Nat
  /-- `KB_MAX`, capacity of KB in bytes: OPEN, 13 to 2^30. -/
  kbMax : Nat
  /-- `CUSTOM_TABLE`, 64 symbol codes: OPEN (R153). -/
  customTable : List Byte
  /-- `PAD_SYMBOL`: the spec decides 0x3D (D20). -/
  padSymbol : Byte
  /-- `SUM_PHASE`: the spec decides PRE (D10). -/
  sumPhase : SumPhase
  /-- `MX_KEY_XOR_RIGHT`: the spec decides false (D32). -/
  mxKeyXorRight : Bool
  /-- `MAP`, the binding of entries to bus addresses: OPEN (R58). -/
  map : List MapWindow
  deriving DecidableEq, Repr

/-- The candidate table of R153, "recalled from public descriptions" and not normative: as character codes. -/
def candidateTable : List Byte :=
  [0x4C, 0x56, 0x6F, 0x4A, 0x50, 0x69, 0x43, 0x4E, 0x32, 0x52, 0x38, 0x47, 0x39, 0x30, 0x79, 0x67] ++
  [0x2B, 0x68, 0x6D, 0x46, 0x48, 0x75, 0x61, 0x63, 0x5A, 0x31, 0x4F, 0x57, 0x4D, 0x6E, 0x72, 0x73] ++
  [0x53, 0x54, 0x58, 0x6B, 0x59, 0x70, 0x55, 0x71, 0x2F, 0x33, 0x64, 0x6C, 0x62, 0x66, 0x4B, 0x77] ++
  [0x76, 0x36, 0x78, 0x7A, 0x74, 0x6A, 0x49, 0x37, 0x44, 0x65, 0x42, 0x45, 0x34, 0x35, 0x51, 0x41]

/-- DESIGN CHOICE (log 2): the parameters that `State.reset` carries. The capacities are the example capacities of
V13, the table is the candidate, the map binds nothing; the last three parameters have the spec's own values.
No claim rests on these numbers. -/
def sampleConfig : Config where
  ptMax := 64
  kbMax := 32
  customTable := candidateTable
  padSymbol := 0x3D
  sumPhase := .pre
  mxKeyXorRight := false
  map := []

end Sys2Proof
end

