-- ==== Sys2Proof/WellFormed.lean ====
section
/-! DEFINITION. When a command's fields, an instruction and a parameter record are well formed. -/

namespace Sys2Proof

/-! ## Command fields (R70, R71, R74) -/

/-- `ZERO` must be 0. -/
def CmdFields.zeroOk (f : CmdFields) : Bool := f.zero == 0

/-- The operation code is one of the six that R71 lists. -/
def CmdFields.opOk (f : CmdFields) : Bool := [1, 2, 3, 4, 5, 0xF].contains f.op

/-- `S` is free in PACK and B64 and 0 in every other command. -/
def CmdFields.sOk (f : CmdFields) : Bool := !f.s || f.op == 1 || f.op == 5

/-- `T` is free in PACK and UNPACK and 0 in every other command. -/
def CmdFields.tOk (f : CmdFields) : Bool := !f.t || f.op == 1 || f.op == 2

/-- The fields of a legal command (R74 lists the rest). -/
def CmdFields.wf (f : CmdFields) : Bool := f.zeroOk && f.opOk && f.sOk && f.tOk

/-- Every term of `Instr` is well formed: "the only explicit operand bits are `T` and `S`, each one bit" (R75), `S` is
part of the constructor and `T` a Boolean, so no ill-formed instruction can be written down. -/
def Instr.wf : Instr → Bool
  | .packm _ | .packk _ | .unpack _ => true
  | .mix | .encode | .b64o | .b64p | .sreset => true

/-! ## Parameters (R12, R53, R58, R153) -/

/-- 1 <= PT_MAX <= 2^30. -/
def Config.ptMaxOk (c : Config) : Bool := decide (1 ≤ c.ptMax) && decide (c.ptMax ≤ 2 ^ 30)

/-- 13 <= KB_MAX <= 2^30. -/
def Config.kbMaxOk (c : Config) : Bool := decide (13 ≤ c.kbMax) && decide (c.kbMax ≤ 2 ^ 30)

/-- 64 entries, pairwise distinct, none equal to the padding symbol. -/
def Config.tableOk (c : Config) : Bool :=
  c.customTable.length == 64 && decide c.customTable.Nodup && !c.customTable.contains c.padSymbol

/-- The bus address of the `k`-th entry of a window. -/
def MapWindow.addressOf (m : MapWindow) (k : Nat) : Nat := m.base + m.space.entryBytes * k

/-- A window of a 32-bit space stands at a multiple of 4 (R53). -/
def MapWindow.aligned (m : MapWindow) : Bool := m.base % m.space.entryBytes == 0

/-- No entry of one window has the address of an entry of the other (R58: injective), and no entry is bound by both. An
entry of an 8-bit space may stand among the four byte addresses of a 32-bit entry, but for its first: R53 asks for no
more than "its own byte address". -/
def MapWindow.apart (m n : MapWindow) : Bool :=
  decide (∀ j, j < m.count → ∀ k, k < n.count → m.addressOf j ≠ n.addressOf k) &&
  (m.space != n.space || decide (m.first + m.count ≤ n.first) || decide (n.first + n.count ≤ m.first))

/-- The platform's map is aligned (R53) and injective (R58), and nothing more. -/
def Config.mapOk (c : Config) : Bool :=
  c.map.all MapWindow.aligned && decide (c.map.Pairwise fun m n => m.apart n = true)

/-- The constraints of R12 and R153 on the parameters. -/
def Config.wf (c : Config) : Bool := c.ptMaxOk && c.kbMaxOk && c.tableOk && c.mapOk

/-- The parameters that the spec gives a value have that value (D10, D20, D32; log 9). -/
def Config.asDecided (c : Config) : Bool :=
  c.padSymbol == 0x3D && c.sumPhase == .pre && !c.mxKeyXorRight

end Sys2Proof
end

