-- ==== Sys2Proof/Decode.lean ====
section
/-! DEFINITION. Command words: the decoder of R73, total and rejecting by name, and after it the encoder, written
from R70 and R71. `opcodeTable` is the match and mask form of the same table, from which R73 says a decoder can be
written too. -/

namespace Sys2Proof

/-- Why a word is no command (R74). The hardware reports all of them as ILLEGAL_CMD. -/
inductive Illegal where
  /-- A bit of 31:6 is set. -/
  | zeroField
  /-- `OP` is 0x0 or 0x6 to 0xE. -/
  | opcode
  /-- `S = 1` in UNPACK, MIX, ENCODE or SRESET. -/
  | sBit
  /-- `T = 1` in MIX, ENCODE, B64 or SRESET. -/
  | tBit
  deriving DecidableEq, Repr

/-- The fields of a word (R70). -/
def fieldsOf (v : Word) : CmdFields where
  zero := v.extractLsb' 6 26
  s := v.getLsbD 5
  t := v.getLsbD 4
  op := v.extractLsb' 0 4

/-- An instruction that has neither `S` nor `T`. -/
def plainCommand (f : CmdFields) (i : Instr) : Except Illegal Instr :=
  if f.s then .error .sBit else if f.t then .error .tBit else .ok i

/-- The decoder of R73 on fields. -/
def decodeFields (f : CmdFields) : Except Illegal Instr :=
  if f.zero ≠ 0 then .error .zeroField
  else if f.op = 0x1 then .ok (if f.s then .packk f.t else .packm f.t)
  else if f.op = 0x2 then (if f.s then .error .sBit else .ok (.unpack f.t))
  else if f.op = 0x3 then plainCommand f .mix
  else if f.op = 0x4 then plainCommand f .encode
  else if f.op = 0x5 then (if f.t then .error .tBit else .ok (if f.s then .b64p else .b64o))
  else if f.op = 0xF then plainCommand f .sreset
  else .error .opcode

/-- The decoder of R73: total on 32-bit words. -/
def decode (v : Word) : Except Illegal Instr := decodeFields (fieldsOf v)

/-! ## The encoder -/

/-- The fields of an instruction (R71). -/
def encodeFields : Instr → CmdFields
  | .packm t  => { zero := 0, s := false, t := t, op := 0x1 }
  | .packk t  => { zero := 0, s := true, t := t, op := 0x1 }
  | .unpack t => { zero := 0, s := false, t := t, op := 0x2 }
  | .mix      => { zero := 0, s := false, t := false, op := 0x3 }
  | .encode   => { zero := 0, s := false, t := false, op := 0x4 }
  | .b64o     => { zero := 0, s := false, t := false, op := 0x5 }
  | .b64p     => { zero := 0, s := true, t := false, op := 0x5 }
  | .sreset   => { zero := 0, s := false, t := false, op := 0xF }

/-- Four fields as one word (R70). -/
def joinFields (f : CmdFields) : Word :=
  f.zero ++ BitVec.ofBool f.s ++ BitVec.ofBool f.t ++ f.op

/-- The command word of an instruction. -/
def encode (i : Instr) : Word := joinFields (encodeFields i)

/-! ## The table form (R73) -/

/-- One row of the opcode table: a word selects it when `word &&& mask = pattern`, and bit 4 is then the operand. -/
structure OpcodeRow where
  pattern : Word
  mask    : Word
  instr   : Bool → Instr

/-- The eight rows. -/
def opcodeTable : List OpcodeRow :=
  [ { pattern := 0x00000001, mask := 0xFFFFFFEF, instr := .packm },
    { pattern := 0x00000021, mask := 0xFFFFFFEF, instr := .packk },
    { pattern := 0x00000002, mask := 0xFFFFFFEF, instr := .unpack },
    { pattern := 0x00000003, mask := 0xFFFFFFFF, instr := fun _ => .mix },
    { pattern := 0x00000004, mask := 0xFFFFFFFF, instr := fun _ => .encode },
    { pattern := 0x00000005, mask := 0xFFFFFFFF, instr := fun _ => .b64o },
    { pattern := 0x00000025, mask := 0xFFFFFFFF, instr := fun _ => .b64p },
    { pattern := 0x0000000F, mask := 0xFFFFFFFF, instr := fun _ => .sreset } ]

/-- Whether a word selects a row. -/
def OpcodeRow.selects (r : OpcodeRow) (v : Word) : Bool := v &&& r.mask == r.pattern

/-- The rows a word selects, as the instructions they give. -/
def instrsSelected (v : Word) : List Instr :=
  (opcodeTable.filter (·.selects v)).map (·.instr (v.getLsbD 4))

/-! ## For the host's check -/

/-- A command is one 32-bit value and has no byte order (R52, R70): the word of `nbits` bits that the table numbers,
with every bit above them 0. -/
def tableWord (nbits w : Nat) : Word := BitVec.ofNat 32 (w % 2 ^ nbits)

/-- The instruction the decoder reads from a word of the opcode table. -/
def decodeTableWord (nbits w : Nat) : Option Instr := (decode (tableWord nbits w)).toOption

end Sys2Proof
end

