-- ==== Sys2Proof/Machine/State.lean ====
section
/-! DEFINITION. The state of the block (rules R20 to R40), as plain data, and the reasons a step of the model can
stop. Buffers are lists of (index, entry) pairs in one canonical form: indices strictly rising, no entry equal to 0,
which is what an unlisted entry reads as and what every entry holds at reset (R38). -/

namespace Sys2Proof.Machine

/-- A buffer: the listed entries. `Memory 8` is a list of `Host.Cell`. -/
abbrev Memory (width : Nat) := List (Nat × BitVec width)

/-- The five flags of CSR.STATUS (R31). Bits 31:5 read as zero because they do not exist. -/
structure Status where
  busy  : Bool
  done  : Bool
  err   : Bool
  rej   : Bool
  empty : Bool
  deriving DecidableEq, Repr

/-- All flags 0. -/
def Status.clear : Status := { busy := false, done := false, err := false, rej := false, empty := false }

/-- The cause codes 0 to 5 of R200. "Codes 6 to 255 are never written." -/
inductive Cause where
  | none | illegalCmd | lenOvf | keyShort | nShort | unpackEmpty
  deriving DecidableEq, Repr

/-- The values 0 to 6 of PH (R30). "Value 7 never occurs." -/
inductive Phase where
  | idle | packm | packk | mixi | mixr | unpack | b64
  deriving DecidableEq, Repr

/-- One item of the schedule: what happens next (R180). -/
inductive Event where
  /-- The engine's turn (R177). It has a step only while BUSY = 1. -/
  | engine
  /-- The host reads entry `i` of a space with an access of `bytes` bytes (R57). -/
  | read (space : Space) (i : Nat) (bytes : Nat)
  /-- The host writes entry `i` of a space with an access of `bytes` bytes (R56). -/
  | write (space : Space) (i : Nat) (bytes : Nat) (v : Word)
  /-- The host reads at a bus address of the platform's map (R53, R58). -/
  | busRead (addr : Nat) (bytes : Nat)
  /-- The host writes at a bus address of the platform's map (R53, R58). -/
  | busWrite (addr : Nat) (bytes : Nat) (v : Word)
  /-- The host writes `v` to CSR.CMD and, if that accepts a command, the engine takes that command's steps with no
  other event among them (log 4). -/
  | command (v : Word)
  /-- The host polls STATUS until BUSY = 0 (R78). -/
  | wait
  /-- Hardware reset, from the platform (R230). -/
  | hwReset
  deriving DecidableEq, Repr

/-- The whole state. The first group is the block's (R20: "and nothing else"); the last group is the model's own. -/
structure State where
  -- the six buffers
  pt     : Memory 8
  kb     : Memory 8
  w      : Memory 32
  k      : Memory 32
  ob     : Memory 8
  sy     : Memory 8
  -- the control and status registers of R34, in their order
  status : Status
  cause  : Cause
  einfo  : Word
  ptLen  : Word
  kbLen  : Word
  n      : Word
  kn     : Word
  obLen  : Word
  syLen  : Word
  cur    : Word
  ph     : Phase
  chain  : Bool
  q      : Word
  rnd    : Word
  pos    : Word
  sum    : Word
  zreg   : Word
  -- the model's own
  cfg     : Config
  events  : List Event
  replies : List Word
  deriving DecidableEq, Repr

/-- Why a step of the MODEL stops. The faults of the spec are states (R206) and none of these
(log 7). -/
inductive Fault where
  /-- An engine step whose operands lie outside the ranges of R59. Raised by the phase steps of the packer, the
  mixer and the alphabet encoder, only in states no run reaches. Safe. -/
  | engineRange
  /-- The engine has its turn and R175 or R177 gives it no step: BUSY = 1 with PH = 0, or CHAIN = 1 in phase 6.
  Raised by `advance` and `engineStep`, only in states no run reaches. Safe. -/
  | engineStuck
  deriving DecidableEq, Repr

/-- Why a step of the MODEL refuses (log 8). -/
inductive Refusal where
  /-- An instruction without a meaning yet; raised by the dispatch only. Safe. -/
  | notModelled (mnemonic : String)
  /-- A host access to an index outside its space (R55: "a model must refuse it"). Raised by the host port. Safe. -/
  | noSuchEntry
  /-- A host access that is not exactly one entry wide (R53). Raised by the host port. Safe. -/
  | wrongWidth
  /-- A bus access at an address that is no entry's (R53). Raised by the host port. Safe. -/
  | noSuchAddress
  deriving DecidableEq, Repr

/-- What every step answers. -/
abbrev Outcome := Host.Outcome State Fault Refusal

/-- The state after reset of a block with parameters `c` (R38, R231): every register 0, every entry 0. -/
def State.resetWith (c : Config) : State where
  pt := []
  kb := []
  w := []
  k := []
  ob := []
  sy := []
  status := .clear
  cause := .none
  einfo := 0
  ptLen := 0
  kbLen := 0
  n := 0
  kn := 0
  obLen := 0
  syLen := 0
  cur := 0
  ph := .idle
  chain := false
  q := 0
  rnd := 0
  pos := 0
  sum := 0
  zreg := 0
  cfg := c
  events := []
  replies := []

/-- The machine right after reset. The parameters are the sample of log 2; the schedule and the replies are empty. -/
def State.reset : State := State.resetWith sampleConfig

end Sys2Proof.Machine
end

