-- ==== Sys2Proof/Machine/Operands.lean ====
section
/-! DEFINITION. Where the operands of a command are and how large they may be: the derived capacities (R12), the
number of words of a byte string, the effective flag bits of a phase (R173), the engine's index expressions (R59)
and the form of an acceptance check (R207). -/

namespace Sys2Proof.Machine

/-- `ceil(len / 4)`: the words that `len` bytes pack into (R91). -/
def wordsFor (len : Nat) : Nat := (len + 3) / 4

/-- `ceil(len / 3)`: the base64 groups of `len` bytes (R158). -/
def groupsFor (len : Nat) : Nat := (len + 2) / 3

/-! ## Capacities (R12) -/

/-- `N_MAX = ceil(PT_MAX / 4) + 1`. -/
def nMax (c : Config) : Nat := wordsFor c.ptMax + 1

/-- `KN_MAX = ceil(KB_MAX / 4) + 1`. -/
def knMax (c : Config) : Nat := wordsFor c.kbMax + 1

/-- `OB_MAX = 4 * N_MAX`. -/
def obMax (c : Config) : Nat := 4 * nMax c

/-- `SY_MAX = 4 * ceil(OB_MAX / 3)`. -/
def syMax (c : Config) : Nat := 4 * groupsFor (obMax c)

/-- How many entries a space has (R50). -/
def capacity (c : Config) : Space → Nat
  | .csr => 17
  | .pt  => c.ptMax
  | .kb  => c.kbMax
  | .w   => nMax c
  | .k   => knMax c
  | .ob  => obMax c
  | .sy  => syMax c

/-! ## Effective flag bits (R173) -/

/-- `T_eff`: bit 4 of CUR; inside ENCODE, 1 for the plaintext's packing and 0 otherwise. -/
def tEff (s : State) : Bool := if s.chain then s.ph == .packm else s.cur.getLsbD 4

/-- `S_eff`: bit 5 of CUR, read by phase 6 only. -/
def sEff (s : State) : Bool := s.cur.getLsbD 5

/-! ## Index expressions of the mixer (R59, R114, R116) -/

/-- `(p + 1) mod n`: the successor of position `p`. -/
def successor (n p : Nat) : Nat := (p + 1) % n

/-- `e = (s >> 2) & 3`. -/
def eOf (sum : Word) : Word := (sum >>> 2) &&& 3

/-- `(p & 3) xor e`: which key word a position uses. -/
def keyIndex (p sum : Word) : Nat := ((p &&& 3) ^^^ eOf sum).toNat

/-! ## Acceptance checks (R207) -/

/-- One check: when it fails, the cause and the value the fault records. -/
structure Check where
  fails : Bool
  cause : Cause
  info  : Word
  deriving DecidableEq, Repr

/-- "A length or count register the command reads is larger than the capacity of its buffer" (R202). -/
def lengthCheck (r : Word) (cap : Nat) : Check := { fails := decide (cap < r.toNat), cause := .lenOvf, info := r }

/-- "The first failing check" (R207). -/
def firstFailing (cs : List Check) : Option Check := cs.find? (·.fails)

end Sys2Proof.Machine
end

