-- ==== Sys2Proof/Machine/Flags.lean ====
section
/-! DEFINITION. The flags: how the registers STATUS, CAUSE and PHASE read as words (R30 to R32), and what acceptance,
completion, the short-circuit and a fault do to the flags (R141, R172, R176, R206). -/

namespace Sys2Proof.Machine

/-- CSR.STATUS as a word (R31): 4 EMPTY, 3 REJ, 2 ERR, 1 DONE, 0 BUSY, the rest 0. -/
def statusWord (f : Status) : Word :=
  (BitVec.ofBool f.empty ++ BitVec.ofBool f.rej ++ BitVec.ofBool f.err ++ BitVec.ofBool f.done ++
    BitVec.ofBool f.busy).setWidth 32

/-- The code of a cause (R200). -/
def causeCode : Cause → Word
  | .none        => 0
  | .illegalCmd  => 1
  | .lenOvf      => 2
  | .keyShort    => 3
  | .nShort      => 4
  | .unpackEmpty => 5

/-- The value of PH (R30). -/
def phaseCode : Phase → BitVec 3
  | .idle   => 0
  | .packm  => 1
  | .packk  => 2
  | .mixi   => 3
  | .mixr   => 4
  | .unpack => 5
  | .b64    => 6

/-- CSR.PHASE as a word (R30): 3 CHAIN, 2:0 PH, the rest 0. -/
def phaseWord (ph : Phase) (chain : Bool) : Word := (BitVec.ofBool chain ++ phaseCode ph).setWidth 32

/-- The flags at acceptance (R172). ERR is 0 there and stays. -/
def flagsAccepted (f : Status) : Status := { f with busy := true, done := false, rej := false, empty := false }

/-- The flags at completion (R176). -/
def flagsCompleted (f : Status) : Status := { f with busy := false, done := true }

/-- The flags after ENCODE's short-circuit (R141). -/
def flagsShortCircuit (f : Status) : Status := { f with done := true, rej := false, empty := true }

/-- The flags after a fault (R206): the others "keep describing the last completed command". -/
def flagsFaulted (f : Status) : Status := { f with err := true }

end Sys2Proof.Machine
end

