-- ==== Sys2Proof/Machine/Ops.lean ====
section
/-! DEFINITION. The operations every instruction is made of: reading and writing a buffer, taking a fault and leaving
the fault state (R206, R178), accepting, advancing and completing a command (R172, R175, R176), and running one step
after another. -/

namespace Sys2Proof.Machine

/-! ## Buffers -/

/-- Entry `i`; an unlisted entry is 0 (R38). -/
def Memory.read {width : Nat} : Memory width → Nat → BitVec width
  | [], _ => 0
  | (j, v) :: rest, i => if i = j then v else Memory.read rest i

/-- A listed entry, unless it is 0. -/
def Memory.cell {width : Nat} (i : Nat) (v : BitVec width) (rest : Memory width) : Memory width :=
  if v = 0 then rest else (i, v) :: rest

/-- Write entry `i`, keeping the canonical form. -/
def Memory.write {width : Nat} : Memory width → Nat → BitVec width → Memory width
  | [], i, v => Memory.cell i v []
  | (j, u) :: rest, i, v =>
    if i < j then Memory.cell i v ((j, u) :: rest)
    else if i = j then Memory.cell i v rest
    else (j, u) :: Memory.write rest i v

/-- Write the entries `base, base + 1, …` in this order. -/
def Memory.writeAll {width : Nat} (m : Memory width) (base : Nat) : List (BitVec width) → Memory width
  | [] => m
  | v :: vs => Memory.writeAll (m.write base v) (base + 1) vs

/-- The entries `0 .. len - 1`. -/
def Memory.take {width : Nat} (m : Memory width) (len : Nat) : List (BitVec width) := (List.range len).map m.read

/-- The canonical form: indices strictly rising, no entry 0. -/
def Memory.wf {width : Nat} : Memory width → Bool
  | [] => true
  | (i, v) :: rest => v != 0 && rest.all (fun c => decide (i < c.1)) && Memory.wf rest

/-- Every listed entry is an entry of a buffer of capacity `cap`. -/
def Memory.within {width : Nat} (m : Memory width) (cap : Nat) : Bool := m.all fun c => decide (c.1 < cap)

/-! ## Taking a fault and leaving the fault state -/

/-- R206: ERR, CAUSE and EINFO are written and "nothing else changes". -/
def raiseFault (c : Cause) (info : Word) (s : State) : State :=
  { s with status := flagsFaulted s.status, cause := c, einfo := info }

/-- R178: every register and every entry takes its reset value. The block's parameters stay, and so do the schedule
and the replies, which are not the block's (log 14). -/
def softReset (s : State) : State :=
  { State.resetWith s.cfg with events := s.events, replies := s.replies }

/-- The state with another schedule. -/
def State.withEvents (s : State) (es : List Event) : State := { s with events := es }

/-- The state after a value has gone back to the host (log 5). -/
def State.reply (s : State) (v : Word) : State := { s with replies := s.replies ++ [v] }

/-! ## Accepting, advancing, completing -/

/-- R172. -/
def accept (v : Word) (first : Phase) (chain : Bool) (s : State) : State :=
  { s with cur := v, status := flagsAccepted s.status, ph := first, chain := chain }

/-- The end of R170: the first failing check is raised, or else the command is accepted. -/
def acceptIf (checks : List Check) (v : Word) (first : Phase) (chain : Bool) (s : State) : State :=
  match firstFailing checks with
  | some c => raiseFault c.cause c.info s
  | none   => accept v first chain s

/-- R176. -/
def complete (s : State) : State :=
  { s with ph := .idle, chain := false, status := flagsCompleted s.status }

/-- R175, the last act of the step that finishes a phase. Phases 3 and 6 have no transfer with CHAIN = 1 there
(R118 has its own, "phase 6 occurs only with CHAIN = 0"), nor has phase 0: no run comes to them. -/
def advance (s : State) : Outcome :=
  if s.chain = false then .next (complete s)
  else match s.ph with
    | .packm  => .next { s with ph := .packk }
    | .packk  => .next { s with ph := .mixi }
    | .mixr   => .next { s with ph := .unpack }
    | .unpack => .next (complete s)
    | .idle | .mixi | .b64 => .fault .engineStuck

/-! ## One step after another -/

/-- Go on from a next state; a stop stays a stop. -/
def andThen (o : Outcome) (f : State → Outcome) : Outcome :=
  match o with
  | .next s    => f s
  | .fault r   => .fault r
  | .refused r => .refused r

/-- `k` steps. -/
def repeatStep (f : State → Outcome) : Nat → State → Outcome
  | 0, s => .next s
  | k + 1, s => andThen (f s) (repeatStep f k)

/-- The gate of R170 for every command but SRESET: a write to CSR.CMD is dropped while BUSY = 1 or ERR = 1. -/
def unlessDropped (s : State) (f : State → Outcome) : Outcome :=
  if s.status.busy || s.status.err then .next s else f s

/-- The engine's part of a command, which only an accepted one has. -/
def ifAccepted (s : State) (engine : State → Outcome) : Outcome :=
  if s.status.busy then engine s else .next s

end Sys2Proof.Machine
end

