-- ==== Sys2Proof/Machine/Alphabet.lean ====
section
/-! DEFINITION. The Alphabet Encoder (R150 to R159): the 6-bit regrouping and the table lookup, the engine's step in
phase 6, and the instructions B64O and B64P. -/

namespace Sys2Proof.Machine

/-- The lookup of R151: entry `i` of the custom table. -/
def symbolOf (c : Config) (i : Byte) : Byte := c.customTable.getD i.toNat 0

/-- The four 6-bit indices of a group (R154), byte-wide operators. -/
def index0 (b0 : Byte) : Byte := b0 >>> 2
def index1 (b0 b1 : Byte) : Byte := ((b0 &&& 0x03) <<< 4) ||| (b1 >>> 4)
def index2 (b1 b2 : Byte) : Byte := ((b1 &&& 0x0F) <<< 2) ||| (b2 >>> 6)
def index3 (b2 : Byte) : Byte := b2 &&& 0x3F

/-- A full group (R154). -/
def fullGroup (c : Config) (b : Memory 8) (g : Nat) : List Byte :=
  let b0 := b.read (3 * g)
  let b1 := b.read (3 * g + 1)
  let b2 := b.read (3 * g + 2)
  [symbolOf c (index0 b0), symbolOf c (index1 b0 b1), symbolOf c (index2 b1 b2), symbolOf c (index3 b2)]

/-- The tail (R155): a last group of one or two bytes, zero-filled and padded. -/
def tailGroup (c : Config) (b : Memory 8) (len : Nat) : List Byte :=
  if len % 3 = 1 then
    let b0 := b.read (len - 1)
    [symbolOf c (index0 b0), symbolOf c (index1 b0 0), c.padSymbol, c.padSymbol]
  else if len % 3 = 2 then
    let b0 := b.read (len - 2)
    let b1 := b.read (len - 1)
    [symbolOf c (index0 b0), symbolOf c (index1 b0 b1), symbolOf c (index2 b1 0), c.padSymbol]
  else []

/-- `b64(b, L)` of R158. -/
def b64 (c : Config) (b : Memory 8) (len : Nat) : List Byte :=
  (List.range (len / 3)).flatMap (fullGroup c b) ++ tailGroup c b len

/-- Phase 6 (R156, R157): `S_eff` selects OB or PT. -/
def phaseB64 (s : State) : Outcome :=
  let src := if sEff s then s.pt else s.ob
  let len := if sEff s then s.ptLen.toNat else s.obLen.toNat
  let cap := if sEff s then s.cfg.ptMax else obMax s.cfg
  if len ≤ cap then
    let out := b64 s.cfg src len
    advance { s with sy := s.sy.writeAll 0 out, syLen := BitVec.ofNat 32 out.length }
  else .fault .engineRange

/-- The write of B64O's command word to CSR.CMD, block idle and not in error: no check (R156). -/
def issueB64o (s : State) : State := acceptIf [] (encode .b64o) .b64 false s

/-- The write of B64P's command word (R157, R202, R207). -/
def issueB64p (s : State) : State := acceptIf [lengthCheck s.ptLen s.cfg.ptMax] (encode .b64p) .b64 false s

/-- B64O (R156): encode the output bytes as symbols. -/
def execB64o (s : State) : Outcome :=
  unlessDropped s fun s => ifAccepted (issueB64o s) phaseB64

/-- B64P (R157): encode the plaintext bytes as symbols. -/
def execB64p (s : State) : Outcome :=
  unlessDropped s fun s => ifAccepted (issueB64p s) phaseB64

end Sys2Proof.Machine
end

