-- ==== Sys2Proof/Machine/Mixer.lean ====
section
/-! DEFINITION. The Block Mixer (R110 to R126): the datapath, the engine's steps in phases 3 and 4, the instruction
MIX, and the whole of it as one function on a list of words (R120), to which the steps are to be equal. -/

namespace Sys2Proof.Machine

/-! ## The datapath -/

/-- `C` (R111). -/
def roundConstant : Word := 0x9E3779B9

/-- `Q = 6 + (52 div n)` (R112). -/
def roundCount (n : Nat) : Nat := 6 + 52 / n

/-- `MX(z, y, s, kx)` (R113). With MX_KEY_XOR_RIGHT, which the spec sets to false, the key word is first xored with
the predecessor. -/
def mx (c : Config) (z y sum kx : Word) : Word :=
  let a := (z >>> 5) ^^^ (y <<< 2)
  let b := ((y >>> 3) ^^^ (z <<< 4)) ^^^ (sum ^^^ y)
  a + b + (if c.mxKeyXorRight then kx ^^^ z else kx)

/-- `s` of R116: the accumulator a position step uses. -/
def sumUsed (c : Config) (p sum : Word) : Word :=
  if p = 0 ∧ c.sumPhase = .pre then sum + roundConstant else sum

/-- What R116 leaves in SUM after the step at position `p` of `n`. -/
def sumLeft (c : Config) (n p used : Word) : Word :=
  if p = n - 1 ∧ c.sumPhase = .post then used + roundConstant else used

/-! ## The engine's steps -/

/-- The preconditions of both phases: what R207 checked at acceptance (R37 d, R59). -/
def mixable (s : State) : Bool :=
  decide (2 ≤ s.n.toNat) && decide (s.n.toNat ≤ nMax s.cfg) &&
  decide (4 ≤ s.kn.toNat) && decide (s.kn.toNat ≤ knMax s.cfg)

/-- Phase 3 (R118). -/
def phaseMixi (s : State) : Outcome :=
  if mixable s then
    .next { s with q := BitVec.ofNat 32 (roundCount s.n.toNat), sum := 0, zreg := s.w.read (s.n.toNat - 1),
                   rnd := 0, pos := 0, ph := .mixr }
  else .fault .engineRange

/-- The sequencer advance of R117. -/
def mixAdvance (s : State) : Outcome :=
  if s.pos.toNat < s.n.toNat - 1 then .next { s with pos := s.pos + 1 }
  else
    let s1 := { s with pos := 0, rnd := s.rnd + 1 }
    if s1.rnd = s1.q then advance s1 else .next s1

/-- Phase 4, one position step (R116): the successor is read from the buffer as it stands (R121). -/
def phaseMixr (s : State) : Outcome :=
  if mixable s && decide (s.pos.toNat < s.n.toNat) then
    let used := sumUsed s.cfg s.pos s.sum
    let y := s.w.read (successor s.n.toNat s.pos.toNat)
    let v := s.w.read s.pos.toNat + mx s.cfg s.zreg y used (s.k.read (keyIndex s.pos used))
    mixAdvance { s with w := s.w.write s.pos.toNat v, zreg := v, sum := sumLeft s.cfg s.n s.pos used }
  else .fault .engineRange

/-- The engine's part of a mix: one step of phase 3, then `Q * N` steps of phase 4 (R119). -/
def mixRun (s : State) : Outcome :=
  andThen (phaseMixi s) fun s1 => repeatStep phaseMixr (s1.q.toNat * s1.n.toNat) s1

/-! ## The instruction -/

/-- The write of MIX's command word to CSR.CMD, block idle and not in error (R119, R207). -/
def issueMix (s : State) : State :=
  acceptIf
    [lengthCheck s.n (nMax s.cfg),
     { fails := decide (s.n.toNat < 2), cause := .nShort, info := s.n },
     lengthCheck s.kn (knMax s.cfg),
     { fails := decide (s.kn.toNat < 4), cause := .keyShort, info := s.kn }]
    (encode .mix) .mixi false s

/-- MIX (R119): encrypt the word buffer in place. -/
def execMix (s : State) : Outcome :=
  unlessDropped s fun s => ifAccepted (issueMix s) mixRun

/-! ## The whole as one function (R120) -/

/-- One position of R120's inner loop: the words and the predecessor `z`. -/
def encryptPosition (c : Config) (key : List Word) (n : Nat) (sum : Word) (wz : List Word × Word) (p : Nat) :
    List Word × Word :=
  let y := wz.1.getD ((p + 1) % n) 0
  let v := wz.1.getD p 0 + mx c wz.2 y sum (key.getD (keyIndex (BitVec.ofNat 32 p) sum) 0)
  (wz.1.set p v, v)

/-- One round of R120: the words, the predecessor and the accumulator. -/
def encryptRound (c : Config) (key : List Word) (n : Nat) (x : (List Word × Word) × Word) :
    (List Word × Word) × Word :=
  let used := if c.sumPhase = .pre then x.2 + roundConstant else x.2
  let wz := (List.range n).foldl (encryptPosition c key n used) x.1
  (wz, if c.sumPhase = .post then used + roundConstant else used)

/-- `encrypt(w, n, k)` of R120, with `n` the length of `w`. -/
def encrypt (c : Config) (w key : List Word) : List Word :=
  ((encryptRound c key w.length)^[roundCount w.length] ((w, w.getD (w.length - 1) 0), 0)).1.1

end Sys2Proof.Machine
end

