-- ==== Sys2Proof/Machine/Packer.lean ====
section
/-! DEFINITION. The Word Packer (R90 to R99): the functions `pack` and `unpack`, the engine's steps in phases 1, 2
and 5, and the instructions PACKM, PACKK and UNPACK. -/

namespace Sys2Proof.Machine

/-! ## The functions -/

/-- `byteat(i)` of R91: zero padding is a constant, not what the buffer holds past the length. -/
def byteAt (b : Memory 8) (len i : Nat) : Byte := if i < len then b.read i else 0

/-- Word `j` of R91: four bytes, the first one lowest (R51). -/
def packWord (b : Memory 8) (len j : Nat) : Word :=
  (byteAt b len (4 * j)).setWidth 32 +
  (byteAt b len (4 * j + 1)).setWidth 32 <<< 8 +
  (byteAt b len (4 * j + 2)).setWidth 32 <<< 16 +
  (byteAt b len (4 * j + 3)).setWidth 32 <<< 24

/-- `pack(b, L, t)` of R91. -/
def pack (b : Memory 8) (len : Nat) (t : Bool) : List Word :=
  (List.range (wordsFor len)).map (packWord b len) ++ (if t then [BitVec.ofNat 32 len] else [])

/-- Byte `i` of the reassembly of R94. -/
def byteOf (w : Memory 32) (i : Nat) : Byte := (w.read (i / 4) >>> (8 * (i % 4))).setWidth 8

/-- `bytes_of(w, n)` of R94. -/
def bytesOf (w : Memory 32) (n : Nat) : List Byte := (List.range (4 * n)).map (byteOf w)

/-- The test of R96, on unbounded integers: `marker < expected - 3 or marker > expected`. -/
def rejects (marker : Word) (n : Nat) : Bool :=
  let expected : Int := ((n : Int) - 1) * 4
  decide ((marker.toNat : Int) < expected - 3) || decide (expected < (marker.toNat : Int))

/-- `unpack(w, n, t)` of R96 and R97: the bytes, and whether the buffer was rejected. -/
def unpackBytes (w : Memory 32) (n : Nat) (t : Bool) : List Byte × Bool :=
  if t = false then (bytesOf w n, false)
  else if rejects (w.read (n - 1)) n then ([], true)
  else ((bytesOf w n).take (w.read (n - 1)).toNat, false)

/-! ## The engine's steps -/

/-- Phase 1 (R92). -/
def phasePackm (s : State) : Outcome :=
  if s.ptLen.toNat ≤ s.cfg.ptMax then
    let ws := pack s.pt s.ptLen.toNat (tEff s)
    advance { s with w := s.w.writeAll 0 ws, n := BitVec.ofNat 32 ws.length }
  else .fault .engineRange

/-- Phase 2 (R93). -/
def phasePackk (s : State) : Outcome :=
  if s.kbLen.toNat ≤ s.cfg.kbMax then
    let ws := pack s.kb s.kbLen.toNat (tEff s)
    advance { s with k := s.k.writeAll 0 ws, kn := BitVec.ofNat 32 ws.length }
  else .fault .engineRange

/-- Phase 5 (R95): all `4N` bytes are written in every case; the length and REJ say what the result is. -/
def phaseUnpack (s : State) : Outcome :=
  if 1 ≤ s.n.toNat ∧ s.n.toNat ≤ nMax s.cfg then
    let s1 := { s with ob := s.ob.writeAll 0 (bytesOf s.w s.n.toNat) }
    let marker := s.w.read (s.n.toNat - 1)
    if tEff s = false then
      advance { s1 with obLen := 4 * s.n, status := { s.status with rej := false } }
    else if rejects marker s.n.toNat then
      advance { s1 with obLen := 0, status := { s.status with rej := true } }
    else
      advance { s1 with obLen := marker, status := { s.status with rej := false } }
  else .fault .engineRange

/-! ## The instructions -/

/-- The write of PACKM's command word to CSR.CMD, block idle and not in error (R92, R202, R207). -/
def issuePackm (t : Bool) (s : State) : State :=
  acceptIf [lengthCheck s.ptLen s.cfg.ptMax] (encode (.packm t)) .packm false s

/-- The write of PACKK's command word (R93, R202, R207). -/
def issuePackk (t : Bool) (s : State) : State :=
  acceptIf [lengthCheck s.kbLen s.cfg.kbMax] (encode (.packk t)) .packk false s

/-- The write of UNPACK's command word (R95, R202, R205, R207). -/
def issueUnpack (t : Bool) (s : State) : State :=
  acceptIf
    [lengthCheck s.n (nMax s.cfg),
     { fails := s.n == 0, cause := .unpackEmpty, info := 0 }]
    (encode (.unpack t)) .unpack false s

/-- PACKM (R92): pack the plaintext into the word buffer. -/
def execPackm (t : Bool) (s : State) : Outcome :=
  unlessDropped s fun s => ifAccepted (issuePackm t s) phasePackm

/-- PACKK (R93): pack the key into the key word file. -/
def execPackk (t : Bool) (s : State) : Outcome :=
  unlessDropped s fun s => ifAccepted (issuePackk t s) phasePackk

/-- UNPACK (R95): turn the word buffer back into bytes. -/
def execUnpack (t : Bool) (s : State) : Outcome :=
  unlessDropped s fun s => ifAccepted (issueUnpack t s) phaseUnpack

end Sys2Proof.Machine
end

