-- ==== Sys2Proof/Machine/Encode.lean ====
section
/-! DEFINITION. The top-level operation ENCODE (R140 to R145). -/

namespace Sys2Proof.Machine

/-- The short-circuit on an empty plaintext (R141), which completes inside the host's step. -/
def encodeShortCircuit (s : State) : State :=
  { s with cur := encode .encode, obLen := 0, status := flagsShortCircuit s.status }

/-- The checks of R140, in its order. -/
def encodeChecks (s : State) : List Check :=
  [lengthCheck s.ptLen s.cfg.ptMax,
   lengthCheck s.kbLen s.cfg.kbMax,
   { fails := decide (wordsFor s.kbLen.toNat < 4), cause := .keyShort,
     info := BitVec.ofNat 32 (wordsFor s.kbLen.toNat) }]

/-- The write of ENCODE's command word to CSR.CMD, block idle and not in error (R140). -/
def issueEncode (s : State) : State :=
  if s.ptLen = 0 then encodeShortCircuit s else acceptIf (encodeChecks s) (encode .encode) .packm true s

/-- The engine's part: the four phases in a row (R142). -/
def encodeRun (s : State) : Outcome :=
  andThen (phasePackm s) fun s => andThen (phasePackk s) fun s => andThen (mixRun s) phaseUnpack

/-- ENCODE (R140): produce the cipher bytes of the plaintext under the key. -/
def execEncode (s : State) : Outcome :=
  unlessDropped s fun s => ifAccepted (issueEncode s) encodeRun

end Sys2Proof.Machine
end

