-- ==== Sys2Proof/Machine/Control.lean ====
section
/-! DEFINITION. The control layer (R170 to R182): SRESET, the write of a command word as the one atomic host step
that R170 gives, and the engine's step (R177). -/

namespace Sys2Proof.Machine

/-- SRESET (R178): executed inside the host's step; dropped while BUSY = 1, honoured while ERR = 1. -/
def execSreset (s : State) : Outcome :=
  if s.status.busy then .next s else .next (softReset s)

/-- The last case of R170: a decoded command meets an idle block that is not in error. -/
def issue (i : Instr) (s : State) : State :=
  match i with
  | .packm t  => issuePackm t s
  | .packk t  => issuePackk t s
  | .unpack t => issueUnpack t s
  | .mix      => issueMix s
  | .encode   => issueEncode s
  | .b64o     => issueB64o s
  | .b64p     => issueB64p s
  | .sreset   => softReset s

/-- The write of `v` to CSR.CMD (R170), the host's step alone: no engine step happens in it. -/
def writeCommand (v : Word) (s : State) : State :=
  if s.status.busy then s
  else if s.status.err then (if v = 0x0000000F then softReset s else s)
  else match decode v with
    | .error _ => raiseFault .illegalCmd v s
    | .ok i    => issue i s

/-- The engine's step while BUSY = 1, fixed by PH (R177). -/
def engineStep (s : State) : Outcome :=
  match s.ph with
  | .idle   => .fault .engineStuck
  | .packm  => phasePackm s
  | .packk  => phasePackk s
  | .mixi   => phaseMixi s
  | .mixr   => phaseMixr s
  | .unpack => phaseUnpack s
  | .b64    => phaseB64 s

/-- The engine's turn: "the engine has a step if and only if STATUS.BUSY = 1" (R177). -/
def engineTurn (s : State) : Outcome := if s.status.busy then engineStep s else .next s

end Sys2Proof.Machine
end

