-- ==== Sys2Proof/Machine/Dispatch.lean ====
section
/-! DEFINITION. The meaning of every instruction, one arm per constructor: the write of its command word to CSR.CMD
(R170) and, if that accepts it, its engine steps to completion, with no other event among them (log 4). -/

namespace Sys2Proof.Machine

def exec (i : Instr) (s : State) : Host.Outcome State Fault Refusal :=
  match i with
  | .packm t => Sys2Proof.Machine.execPackm t s
  | .packk t => Sys2Proof.Machine.execPackk t s
  | .unpack t => Sys2Proof.Machine.execUnpack t s
  | .mix => Sys2Proof.Machine.execMix s
  | .encode => Sys2Proof.Machine.execEncode s
  | .b64o => Sys2Proof.Machine.execB64o s
  | .b64p => Sys2Proof.Machine.execB64p s
  | .sreset => Sys2Proof.Machine.execSreset s

end Sys2Proof.Machine
end

