-- ==== Sys2Proof/Machine/HostPort.lean ====
section
/-! DEFINITION. The host port (R50 to R58, R181): reading and writing one entry of a space, the gate on writes, and
the platform's bus addresses. -/

namespace Sys2Proof.Machine

/-- The register with a number of R34 (R57: CMD reads 0). Numbers past 16 do not exist and are refused before. -/
def readCsr (s : State) (i : Nat) : Word :=
  match i with
  | 0  => 0
  | 1  => statusWord s.status
  | 2  => causeCode s.cause
  | 3  => s.einfo
  | 4  => s.ptLen
  | 5  => s.kbLen
  | 6  => s.n
  | 7  => s.kn
  | 8  => s.obLen
  | 9  => s.syLen
  | 10 => s.cur
  | 11 => phaseWord s.ph s.chain
  | 12 => s.q
  | 13 => s.rnd
  | 14 => s.pos
  | 15 => s.sum
  | 16 => s.zreg
  | _  => 0

/-- `MemRead(S, i)` of R57, as a word: an 8-bit entry has zeros above it (log 5). -/
def readEntry (s : State) (sp : Space) (i : Nat) : Word :=
  match sp with
  | .csr => readCsr s i
  | .pt  => (s.pt.read i).setWidth 32
  | .kb  => (s.kb.read i).setWidth 32
  | .w   => s.w.read i
  | .k   => s.k.read i
  | .ob  => (s.ob.read i).setWidth 32
  | .sy  => (s.sy.read i).setWidth 32

/-- The writable registers (R34, R56). Every other number drops the write; CMD is not written here. -/
def storeCsr (s : State) (i : Nat) (v : Word) : State :=
  match i with
  | 4 => { s with ptLen := v }
  | 5 => { s with kbLen := v }
  | 6 => { s with n := v }
  | 7 => { s with kn := v }
  | _ => s

/-- The store of R56, where the gate is open. OB and SY drop it. An 8-bit access carries the low 8 bits. -/
def storeEntry (s : State) (sp : Space) (i : Nat) (v : Word) : State :=
  match sp with
  | .csr => storeCsr s i v
  | .pt  => { s with pt := s.pt.write i (v.setWidth 8) }
  | .kb  => { s with kb := s.kb.write i (v.setWidth 8) }
  | .w   => { s with w := s.w.write i v }
  | .k   => { s with k := s.k.write i v }
  | .ob | .sy => s

/-- `MemWrite(S, i, v)` of R56: the write to CMD is R170; every other one is gated by BUSY and ERR. -/
def writeEntry (s : State) (sp : Space) (i : Nat) (v : Word) : State :=
  if sp = .csr ∧ i = 0 then writeCommand v s
  else if s.status.busy || s.status.err then s
  else storeEntry s sp i v

/-- Whether an access is one the spec gives a meaning (R53, R55), and if not, why it is refused. -/
def accessRefusal (c : Config) (sp : Space) (i bytes : Nat) : Option Refusal :=
  if capacity c sp ≤ i then some .noSuchEntry
  else if bytes ≠ sp.entryBytes then some .wrongWidth
  else none

/-- A host read: its value goes back to the host and nothing else changes (R54, R57). -/
def hostRead (sp : Space) (i bytes : Nat) (s : State) : Outcome :=
  match accessRefusal s.cfg sp i bytes with
  | some r => .refused r
  | none   => .next (s.reply (readEntry s sp i))

/-- A host write (R56). -/
def hostWrite (sp : Space) (i bytes : Nat) (v : Word) (s : State) : Outcome :=
  match accessRefusal s.cfg sp i bytes with
  | some r => .refused r
  | none   => .next (writeEntry s sp i v)

/-! ## Bus addresses (R53, R58) -/

/-- The entry that a window binds to a bus address, if the address is the first of an entry. -/
def windowEntry (m : MapWindow) (addr : Nat) : Option (Space × Nat) :=
  if m.base ≤ addr ∧ addr < m.addressOf m.count ∧ (addr - m.base) % m.space.entryBytes = 0 then
    some (m.space, m.first + (addr - m.base) / m.space.entryBytes)
  else none

/-- The entry at a bus address under the platform's map. -/
def busEntry (c : Config) (addr : Nat) : Option (Space × Nat) := c.map.findSome? (windowEntry · addr)

/-- A bus read: the host read of the entry at that address. -/
def busRead (addr bytes : Nat) (s : State) : Outcome :=
  match busEntry s.cfg addr with
  | none         => .refused .noSuchAddress
  | some (sp, i) => hostRead sp i bytes s

/-- A bus write: the host write of the entry at that address. -/
def busWrite (addr bytes : Nat) (v : Word) (s : State) : Outcome :=
  match busEntry s.cfg addr with
  | none         => .refused .noSuchAddress
  | some (sp, i) => hostWrite sp i bytes v s

/-! ## The other events -/

/-- The end of `wait` (R78): the poll that finds BUSY = 0 (log 6). -/
def pollStatus (s : State) : State := s.reply (statusWord s.status)

end Sys2Proof.Machine
end

