-- ==== Sys2Proof/Machine/Schedule.lean ====
section
/-! DEFINITION. What each event of the schedule does (log 3): the two agents' steps (R180), the platform's reset
(R230), the command event (log 4) and the end of a wait (log 6). -/

namespace Sys2Proof.Machine

/-- The event `command`: the decoded instruction is executed; an illegal word is R170's write alone, which faults or
is dropped. -/
def commandStep (v : Word) (s : State) : Outcome :=
  match decode v with
  | .ok i    => exec i s
  | .error _ => .next (writeCommand v s)

/-- One event, `rest` being the schedule after it. While BUSY = 1 a `wait` stays first and the engine takes its
step. -/
def runEvent (e : Event) (rest : List Event) (s : State) : Outcome :=
  match e with
  | .engine          => engineTurn (s.withEvents rest)
  | .read sp i b     => hostRead sp i b (s.withEvents rest)
  | .write sp i b v  => hostWrite sp i b v (s.withEvents rest)
  | .busRead a b     => busRead a b (s.withEvents rest)
  | .busWrite a b v  => busWrite a b v (s.withEvents rest)
  | .command v       => commandStep v (s.withEvents rest)
  | .wait            => if s.status.busy then engineStep s else .next (pollStatus (s.withEvents rest))
  | .hwReset         => .next (softReset (s.withEvents rest))

end Sys2Proof.Machine
end

