-- ==== Sys2Proof/Machine/Step.lean ====
section
/-! DEFINITION. One step: the first event of the schedule. The block fetches nothing (R30); what stands in for a fetch
is the host's write of a command word, the event `command` (log 3, log 4). -/

namespace Sys2Proof.Machine

/-- One step. After the end of the schedule the engine takes its steps until it has none (log 3). -/
def step (s : State) : Host.Outcome State Fault Refusal :=
  match s.events with
  | []        => engineTurn s
  | e :: rest => runEvent e rest s

/-- The state whose very next event is the command word `w` of `nbits` bits. -/
def State.withFetchWord (s : State) (nbits w : Nat) : State :=
  s.withEvents (.command (tableWord nbits w) :: s.events)

end Sys2Proof.Machine
end

