-- ==== Sys2Proof/Machine/Script.lean ====
section
/-! DEFINITION. The host-script notation of R77 and R78: each line as the events it stands for. -/

namespace Sys2Proof.Machine

/-- `wb S[i], v`. -/
def scriptWb (sp : Space) (i : Nat) (v : Byte) : Event := .write sp i 1 (v.setWidth 32)

/-- `ww S[i], v`. -/
def scriptWw (sp : Space) (i : Nat) (v : Word) : Event := .write sp i 4 v

/-- `wr NAME, v`, by register number. -/
def scriptWr (r : Nat) (v : Word) : Event := .write .csr r 4 v

/-- `rb S[i]`. -/
def scriptRb (sp : Space) (i : Nat) : Event := .read sp i 1

/-- `rw S[i]`. -/
def scriptRw (sp : Space) (i : Nat) : Event := .read sp i 4

/-- `rr NAME`, by register number. -/
def scriptRr (r : Nat) : Event := .read .csr r 4

/-- `cmd.raw v`. -/
def scriptCmdRaw (v : Word) : Event := .write .csr 0 4 v

/-- `cmd M`. -/
def scriptCmd (i : Instr) : Event := scriptCmdRaw (encode i)

/-- `loadpt b`. -/
def scriptLoadpt (b : List Byte) : List Event :=
  b.zipIdx.map (fun x => scriptWb .pt x.2 x.1) ++ [scriptWr 4 (BitVec.ofNat 32 b.length)]

/-- `loadkey b`. -/
def scriptLoadkey (b : List Byte) : List Event :=
  b.zipIdx.map (fun x => scriptWb .kb x.2 x.1) ++ [scriptWr 5 (BitVec.ofNat 32 b.length)]

/-- `loadw ws`. -/
def scriptLoadw (ws : List Word) : List Event :=
  ws.zipIdx.map (fun x => scriptWw .w x.2 x.1) ++ [scriptWr 6 (BitVec.ofNat 32 ws.length)]

/-- `loadk ws`. -/
def scriptLoadk (ws : List Word) : List Event :=
  ws.zipIdx.map (fun x => scriptWw .k x.2 x.1) ++ [scriptWr 7 (BitVec.ofNat 32 ws.length)]

/-- `token`. -/
def scriptToken : List Event := [scriptCmd .encode, .wait, scriptCmd .b64o, .wait]

end Sys2Proof.Machine
end

