-- ==== Sys2Proof/Safety.lean ====
section
/-! DEFINITION. The terms that claims use: the invariants of R37 and the stronger one that every step keeps, the states
a run reaches, the block without the model's own fields, and how many engine steps a command takes (R243). -/

namespace Sys2Proof.Machine

/-- The block idle and not in error: the state in which a command is examined (R170). -/
def State.ready (s : State) : Prop := s.status.busy = false ∧ s.status.err = false

/-- The block alone: the model's own schedule and replies blanked. -/
def State.block (s : State) : State := { s with events := [], replies := [] }

/-- The flags of a command that has completed and has neither REJ nor EMPTY: STATUS = 0x2. -/
def Status.doneOnly : Status := { Status.clear with done := true }

/-- R37, clause by clause. -/
structure Legal (s : State) : Prop where
  /-- (a) -/
  busyIsClean : s.status.busy = true → s.status.err = false ∧ s.status.done = false
  /-- (b) -/
  idleRests : s.status.busy = false → s.ph = .idle ∧ s.chain = false
  /-- (c) -/
  noErrorNoCause : s.status.err = false → s.cause = .none ∧ s.einfo = 0
  /-- (d) -/
  mixing : s.ph = .mixr →
    2 ≤ s.n.toNat ∧ s.n.toNat ≤ nMax s.cfg ∧ 4 ≤ s.kn.toNat ∧ s.kn.toNat ≤ knMax s.cfg ∧
    s.q.toNat = 6 + 52 / s.n.toNat ∧ s.rnd.toNat < s.q.toNat ∧ s.pos.toNat < s.n.toNat ∧
    s.zreg = s.w.read ((s.pos.toNat + s.n.toNat - 1) % s.n.toNat)
  /-- (e), first half -/
  rejected : s.status.rej = true → s.status.done = true ∧ s.obLen = 0
  /-- (e), second half -/
  emptied : s.status.empty = true → s.status.done = true ∧ s.obLen = 0

/-- A buffer in canonical form, inside its capacity. -/
def Memory.ok {width : Nat} (m : Memory width) (cap : Nat) : Prop := m.wf = true ∧ m.within cap = true

/-- The invariant that every step keeps: R37, the parameters' constraints, the form of every buffer, and for each
phase what the acceptance checks established (R59, R142, R208). -/
structure Inv (s : State) : Prop extends Legal s where
  cfgOk : s.cfg.wf = true
  ptOk : s.pt.ok s.cfg.ptMax
  kbOk : s.kb.ok s.cfg.kbMax
  wOk : s.w.ok (nMax s.cfg)
  kOk : s.k.ok (knMax s.cfg)
  obOk : s.ob.ok (obMax s.cfg)
  syOk : s.sy.ok (syMax s.cfg)
  obLenOk : s.obLen.toNat ≤ obMax s.cfg
  syLenOk : s.syLen.toNat ≤ syMax s.cfg
  busyHasPhase : s.status.busy = true → s.ph ≠ .idle
  packmReady : s.ph = .packm → s.ptLen.toNat ≤ s.cfg.ptMax ∧
    (s.chain = true → 0 < s.ptLen.toNat ∧ 13 ≤ s.kbLen.toNat ∧ s.kbLen.toNat ≤ s.cfg.kbMax)
  packkReady : s.ph = .packk → s.kbLen.toNat ≤ s.cfg.kbMax ∧
    (s.chain = true → 13 ≤ s.kbLen.toNat ∧ 2 ≤ s.n.toNat ∧ s.n.toNat ≤ nMax s.cfg)
  mixiReady : s.ph = .mixi → mixable s = true
  unpackReady : s.ph = .unpack → 1 ≤ s.n.toNat ∧ s.n.toNat ≤ nMax s.cfg
  b64Ready : s.ph = .b64 → s.chain = false ∧ (sEff s = true → s.ptLen.toNat ≤ s.cfg.ptMax)

/-- The states a run reaches from reset, for a block with parameters `c` and ANY schedule of host accesses, engine
turns and resets. -/
inductive Reachable (c : Config) : State → Prop where
  | reset (events : List Event) : Reachable c ((State.resetWith c).withEvents events)
  | step {s t : State} : Reachable c s → Machine.step s = .next t → Reachable c t

/-- How many engine steps a command takes from its acceptance to its completion (R243). -/
def engineSteps (i : Instr) (s : State) : Nat :=
  match i with
  | .packm _ | .packk _ | .unpack _ | .b64o | .b64p => 1
  | .mix => 1 + roundCount s.n.toNat * s.n.toNat
  | .encode => 4 + roundCount (wordsFor s.ptLen.toNat + 1) * (wordsFor s.ptLen.toNat + 1)
  | .sreset => 0

/-- A host read, by index or by bus address. -/
def Event.isRead : Event → Bool
  | .read _ _ _ | .busRead _ _ => true
  | .engine | .write _ _ _ _ | .busWrite _ _ _ | .command _ | .wait | .hwReset => false

/-- A host access or a command, whatever it is: everything but the engine's turn, a wait and a hardware reset. -/
def Event.isHost : Event → Bool
  | .read _ _ _ | .busRead _ _ | .write _ _ _ _ | .busWrite _ _ _ | .command _ => true
  | .engine | .wait | .hwReset => false

end Sys2Proof.Machine
end

