-- ==== Sys2Proof/Certificates/Slice0/Obligations.lean ====
section
/-! DEFINITION. The statements for the provers. Each docstring names the rules it formalises; what rests on a choice of
the model names the log entry. A statement holds for every parameter record unless it says otherwise. -/

open Sys2Proof Sys2Proof.Machine

/-! ## Encoding -/

/-- R71, R73. The decoder and the encoder are inverse to each other in both directions, over all words. -/
def Obligations.DecodeInvertsEncode : Prop :=
  ∀ (v : Word) (i : Instr), i.wf = true → (decode v = .ok i ↔ v = encode i)

/-- R71. The eleven legal words, what each decodes to, and that there are no others. -/
def Obligations.LegalWordsAreEleven : Prop :=
  decode 0x00000001 = .ok (.packm false) ∧ decode 0x00000011 = .ok (.packm true) ∧
  decode 0x00000021 = .ok (.packk false) ∧ decode 0x00000031 = .ok (.packk true) ∧
  decode 0x00000002 = .ok (.unpack false) ∧ decode 0x00000012 = .ok (.unpack true) ∧
  decode 0x00000003 = .ok .mix ∧ decode 0x00000004 = .ok .encode ∧
  decode 0x00000005 = .ok .b64o ∧ decode 0x00000025 = .ok .b64p ∧ decode 0x0000000F = .ok .sreset ∧
  ∀ v : Word, (∃ i, decode v = .ok i) ↔
    v ∈ [0x01, 0x11, 0x21, 0x31, 0x02, 0x12, 0x03, 0x04, 0x05, 0x25, (0x0F : Word)]

/-- Sanity (R71, R74, the table of V12): a few words written out, one of each instruction and some illegal ones. -/
def Obligations.SampleWordsDecode : Prop :=
  decode 0x00000011 = .ok (.packm true) ∧ decode 0x00000021 = .ok (.packk false) ∧
  decode 0x00000012 = .ok (.unpack true) ∧ decode 0x00000003 = .ok .mix ∧ decode 0x00000004 = .ok .encode ∧
  decode 0x00000005 = .ok .b64o ∧ decode 0x00000025 = .ok .b64p ∧ decode 0x0000000F = .ok .sreset ∧
  decode 0x00000000 = .error .opcode ∧ decode 0x00000022 = .error .sBit ∧ decode 0x00000015 = .error .tBit ∧
  decode 0x80000003 = .error .zeroField

/-- R73. The rows of the opcode table are disjoint and select exactly what the decoder gives: a legal word selects the
one row of its instruction, an illegal word none. -/
def Obligations.TableSelectsWhatDecodes : Prop :=
  ∀ v : Word, instrsSelected v = (decode v).toOption.toList

/-- R201, and the list of R74. The illegal words, class by class, and the fault that writing one to CSR.CMD raises in an
idle block that is not in error. -/
def Obligations.IllegalWordsFault : Prop :=
  ∀ v : Word,
    let op := (v.extractLsb' 0 4).toNat
    ((∃ r, decode v = .error r) ↔
      (v.extractLsb' 6 26 ≠ 0 ∨ op = 0 ∨ (6 ≤ op ∧ op ≤ 0xE) ∨
       (v.getLsbD 5 = true ∧ (op = 2 ∨ op = 3 ∨ op = 4 ∨ op = 0xF)) ∨
       (v.getLsbD 4 = true ∧ (op = 3 ∨ op = 4 ∨ op = 5 ∨ op = 0xF)))) ∧
    ∀ s : State, s.ready → (∃ r, decode v = .error r) →
      hostWrite .csr 0 4 v s =
        .next { s with status := { s.status with err := true }, cause := .illegalCmd, einfo := v }

/-- Sanity, the model's choice of log 4 (beside R62, R73): the step on a command event is `exec` of the decoded
instruction on the state whose schedule is what follows the event, on an illegal word it is the write of that word, and
the host's fetch word makes the next step that instruction. -/
def Obligations.StepRunsTheDecodedCommand : Prop :=
  (∀ (s : State) (v : Word) (rest : List Event) (i : Instr),
    s.events = .command v :: rest → decode v = .ok i → step s = exec i (s.withEvents rest)) ∧
  (∀ (s : State) (v : Word) (rest : List Event) (r : Illegal),
    s.events = .command v :: rest → decode v = .error r → step s = .next (writeCommand v (s.withEvents rest))) ∧
  (∀ (s : State) (i : Instr), step (s.withFetchWord 32 (encode i).toNat) = exec i s)

/-! ## Reset -/

/-- R38. Every register and every entry is 0 after reset, whatever the parameters, and after the write of SRESET's word
to an idle block, in error or not. -/
def Obligations.ResetLeavesZero : Prop :=
  (∀ (c : Config) (sp : Space) (i : Nat), readEntry (State.resetWith c) sp i = 0) ∧
  (∀ s : State, s.status.busy = false →
    ∃ t, hostWrite .csr 0 4 0x0000000F s = .next t ∧ ∀ sp i, readEntry t sp i = 0)

/-- R230. Hardware reset in any state, a running command included. That the parameters, the schedule and the replies
stay is the model's (log 14). -/
def Obligations.HardwareResetFromAnyState : Prop :=
  ∀ (s : State) (rest : List Event), s.events = .hwReset :: rest →
    ∃ t, step s = .next t ∧ t.block = (State.resetWith s.cfg).block ∧ (∀ sp i, readEntry t sp i = 0) ∧
      t.events = rest ∧ t.replies = s.replies

/-- R178. SRESET: honoured when BUSY = 0, in the fault state too; dropped when BUSY = 1; no other word resets. -/
def Obligations.SresetClearsEverything : Prop :=
  encode .sreset = 0x0000000F ∧
  ∀ s : State,
    (s.status.busy = false →
      ∃ t, exec .sreset s = .next t ∧ writeCommand 0x0000000F s = t ∧ t.block = (State.resetWith s.cfg).block ∧
        (∀ sp i, readEntry t sp i = 0) ∧ t.events = s.events ∧ t.replies = s.replies) ∧
    (s.status.busy = true → exec .sreset s = .next s ∧ writeCommand 0x0000000F s = s) ∧
    (∀ v : Word, v ≠ 0x0000000F → s.status.err = true → writeCommand v s = s)

/-- R232. Straight after reset every command has an outcome; ENCODE completes by the short-circuit and MIX faults with
N_SHORT. -/
def Obligations.CommandsAfterReset : Prop :=
  ∀ c : Config, c.wf = true →
    (∀ i, ∃ t, exec i (State.resetWith c) = .next t ∧ t.status.busy = false) ∧
    (∃ t, exec .encode (State.resetWith c) = .next t ∧ readCsr t 1 = 0x12 ∧ t.obLen = 0) ∧
    (∃ t, exec .mix (State.resetWith c) = .next t ∧ readCsr t 1 = 0x4 ∧ readCsr t 2 = 4 ∧ t.einfo = 0)

/-! ## Issuing a command -/

/-- R172. Acceptance: for every instruction with an engine part, and exactly under the conditions that its checks
leave, the write of its word changes CUR, the flags, PH and CHAIN and nothing else. -/
def Obligations.AcceptanceStartsTheSequencer : Prop :=
  ∀ (s : State), s.ready →
    let accepted := fun (v : Word) (ph : Phase) (ch : Bool) =>
      { s with cur := v, ph := ph, chain := ch,
               status := { busy := true, done := false, err := false, rej := false, empty := false } }
    (∀ t, s.ptLen.toNat ≤ s.cfg.ptMax →
      writeCommand (encode (.packm t)) s = accepted (encode (.packm t)) .packm false) ∧
    (∀ t, s.kbLen.toNat ≤ s.cfg.kbMax →
      writeCommand (encode (.packk t)) s = accepted (encode (.packk t)) .packk false) ∧
    (∀ t, 1 ≤ s.n.toNat → s.n.toNat ≤ nMax s.cfg →
      writeCommand (encode (.unpack t)) s = accepted (encode (.unpack t)) .unpack false) ∧
    (2 ≤ s.n.toNat → s.n.toNat ≤ nMax s.cfg → 4 ≤ s.kn.toNat → s.kn.toNat ≤ knMax s.cfg →
      writeCommand (encode .mix) s = accepted (encode .mix) .mixi false) ∧
    (0 < s.ptLen.toNat → s.ptLen.toNat ≤ s.cfg.ptMax → 13 ≤ s.kbLen.toNat → s.kbLen.toNat ≤ s.cfg.kbMax →
      writeCommand (encode .encode) s = accepted (encode .encode) .packm true) ∧
    (writeCommand (encode .b64o) s = accepted (encode .b64o) .b64 false) ∧
    (s.ptLen.toNat ≤ s.cfg.ptMax →
      writeCommand (encode .b64p) s = accepted (encode .b64p) .b64 false)

/-- R207. The checks of every instruction in their order, each with its cause and its EINFO (R201 to R205), that the fault
changes nothing but ERR, CAUSE and EINFO (R206), and the rows that have no check. The capacities are spelled out (R12). -/
def Obligations.FirstFailingCheckFaults : Prop :=
  ∀ (s : State), s.ready →
    let faults := fun (i : Instr) (c : Cause) (info : Word) =>
      exec i s = .next { s with status := { s.status with err := true }, cause := c, einfo := info }
    let nCap := (s.cfg.ptMax + 3) / 4 + 1
    let knCap := (s.cfg.kbMax + 3) / 4 + 1
    (∀ v, (∃ r, decode v = .error r) →
      writeCommand v s = { s with status := { s.status with err := true }, cause := .illegalCmd, einfo := v }) ∧
    (∀ t, s.cfg.ptMax < s.ptLen.toNat → faults (.packm t) .lenOvf s.ptLen) ∧
    (∀ t, s.cfg.kbMax < s.kbLen.toNat → faults (.packk t) .lenOvf s.kbLen) ∧
    (∀ t, nCap < s.n.toNat → faults (.unpack t) .lenOvf s.n) ∧
    (∀ t, s.n = 0 → faults (.unpack t) .unpackEmpty 0) ∧
    (nCap < s.n.toNat → faults .mix .lenOvf s.n) ∧
    (s.n.toNat < 2 → faults .mix .nShort s.n) ∧
    (2 ≤ s.n.toNat → s.n.toNat ≤ nCap → knCap < s.kn.toNat → faults .mix .lenOvf s.kn) ∧
    (s.cfg.wf = true → 2 ≤ s.n.toNat → s.n.toNat ≤ nCap → s.kn.toNat < 4 → faults .mix .keyShort s.kn) ∧
    (s.cfg.ptMax < s.ptLen.toNat → faults .encode .lenOvf s.ptLen) ∧
    (0 < s.ptLen.toNat → s.ptLen.toNat ≤ s.cfg.ptMax → s.cfg.kbMax < s.kbLen.toNat →
      faults .encode .lenOvf s.kbLen) ∧
    (s.cfg.wf = true → 0 < s.ptLen.toNat → s.ptLen.toNat ≤ s.cfg.ptMax → s.kbLen.toNat < 13 →
      faults .encode .keyShort (BitVec.ofNat 32 ((s.kbLen.toNat + 3) / 4))) ∧
    (s.cfg.ptMax < s.ptLen.toNat → faults .b64p .lenOvf s.ptLen) ∧
    (s.ptLen = 0 → (writeCommand (encode .encode) s).status.err = false) ∧
    (writeCommand (encode .b64o) s).status.err = false ∧ (writeCommand (encode .sreset) s).status.err = false

/-- R208, R206. A command write that ends in error changed nothing but ERR, CAUSE and EINFO, and no engine step raises
or clears an error. -/
def Obligations.FaultsArePrecise : Prop :=
  (∀ (v : Word) (s : State), s.ready → (writeCommand v s).status.err = true →
    ∃ c info, c ≠ .none ∧
      writeCommand v s = { s with status := { s.status with err := true }, cause := c, einfo := info }) ∧
  (∀ s t : State, engineTurn s = .next t →
    t.status.err = s.status.err ∧ t.cause = s.cause ∧ t.einfo = s.einfo)

/-- R200. An error arises in a step only where the schedule's head is a write of CSR.CMD, by index, by a bus address bound
to it, or as a command event. -/
def Obligations.ErrorsComeFromCommandWrites : Prop :=
  ∀ s t : State, s.status.err = false → step s = .next t → t.status.err = true →
    ∃ e rest, s.events = e :: rest ∧
      ((∃ v, e = .command v) ∨ (∃ v, e = .write .csr 0 4 v) ∨
       (∃ a v, e = .busWrite a 4 v ∧ busEntry s.cfg a = some (.csr, 0)))

/-- R209. In the fault state the engine has no step, and no host event but a write of 0x0000000F to CSR.CMD changes
the block; that write (by index, at a bus address bound to CSR.CMD, or as the model's command event, log 4) and a
hardware reset clear ERR, CAUSE and EINFO. -/
def Obligations.FaultStateIsSticky : Prop :=
  ∀ (s : State), s.status.busy = false → s.status.err = true →
    let clears := fun (o : Outcome) =>
      ∃ t, o = .next t ∧ t.status.err = false ∧ t.cause = .none ∧ t.einfo = 0
    engineTurn s = .next s ∧
    (∀ (e : Event) (rest : List Event) (t : State), e.isHost = true → runEvent e rest s = .next t →
      e ≠ .command 0x0000000F → e ≠ .write .csr 0 4 0x0000000F →
      (∀ a, e = .busWrite a 4 0x0000000F → busEntry s.cfg a ≠ some (.csr, 0)) → t.block = s.block) ∧
    clears (hostWrite .csr 0 4 0x0000000F s) ∧
    (∀ a, busEntry s.cfg a = some (.csr, 0) → clears (busWrite a 4 0x0000000F s)) ∧
    (∀ rest, clears (runEvent (.command 0x0000000F) rest s)) ∧ (∀ rest, clears (runEvent .hwReset rest s))

/-- R170, R56, R62. While BUSY = 1 no host event, a command and SRESET included, changes the block. -/
def Obligations.BusyShutsTheHostOut : Prop :=
  ∀ (s t : State) (e : Event) (rest : List Event), s.status.busy = true → e.isHost = true →
    runEvent e rest s = .next t → t.block = s.block ∧ t.events = rest

/-- R170. What the meaning of an instruction does when the write of its word is dropped: nothing. -/
def Obligations.DroppedCommandsDoNothing : Prop :=
  ∀ (i : Instr) (s : State),
    (s.status.busy = true → exec i s = .next s) ∧
    (s.status.busy = false → s.status.err = true → i ≠ .sreset → exec i s = .next s)

/-- R171. When CUR is written and with what. -/
def Obligations.CurHoldsTheAcceptedWord : Prop :=
  (∀ (v : Word) (s : State), s.ready →
    (writeCommand v s).cur =
      if (writeCommand v s).status.busy = true then v
      else if v = 0x00000004 ∧ s.ptLen = 0 then 0x00000004
      else if v = 0x0000000F then 0
      else s.cur) ∧
  (∀ (v : Word) (s : State), s.status.busy = true → (writeCommand v s).cur = s.cur) ∧
  (∀ (v : Word) (s : State), s.status.busy = false → s.status.err = true →
    (writeCommand v s).cur = if v = 0x0000000F then 0 else s.cur) ∧
  (∀ s t : State, engineTurn s = .next t → t.cur = s.cur)

/-! ## The sequencer -/

/-- R175, R176. The transfer that ends a phase: completion, or inside ENCODE the next phase of the chain. -/
def Obligations.PhaseAdvanceFollowsTheChain : Prop :=
  ∀ s : State,
    let completed := { s with ph := .idle, chain := false, status := { s.status with busy := false, done := true } }
    (s.chain = false → advance s = .next completed) ∧
    (s.chain = true → s.ph = .packm → advance s = .next { s with ph := .packk }) ∧
    (s.chain = true → s.ph = .packk → advance s = .next { s with ph := .mixi }) ∧
    (s.chain = true → s.ph = .mixr → advance s = .next { s with ph := .unpack }) ∧
    (s.chain = true → s.ph = .unpack → advance s = .next completed)

/-- R173. The effective flag bits of a phase. -/
def Obligations.EffectiveFlagBits : Prop :=
  ∀ s : State,
    (s.chain = true → s.ph = .packm → tEff s = true) ∧
    (s.chain = true → s.ph ≠ .packm → tEff s = false) ∧
    (s.chain = false → tEff s = s.cur.getLsbD 4) ∧
    sEff s = s.cur.getLsbD 5

/-- R243, R176, R170, R174. The meaning of an instruction IS the write of its word followed by its engine steps: the
write alone if nothing is accepted; else the block stays busy for exactly the number of steps of R243 and then is
idle in the state that `exec` answers. -/
def Obligations.ExecRefinesEngineSteps : Prop :=
  ∀ (i : Instr) (s : State), Inv s → s.ready →
    let s1 := writeCommand (encode i) s
    (s1.status.busy = false → exec i s = .next s1) ∧
    (s1.status.busy = true →
      (∃ t, exec i s = .next t ∧ t.status.busy = false ∧ t.status.done = true) ∧
      repeatStep engineTurn (engineSteps i s) s1 = exec i s ∧
      ∀ k, k < engineSteps i s → ∃ u, repeatStep engineTurn k s1 = .next u ∧ u.status.busy = true)

/-- R242, R176. From every state of the invariant in which a command runs, the engine alone completes it, within a
number of steps that the capacity of W bounds. -/
def Obligations.RunningCommandCompletes : Prop :=
  ∀ s : State, Inv s → s.status.busy = true →
    ∃ k t, k ≤ 4 + 32 * nMax s.cfg ∧ repeatStep engineTurn k s = .next t ∧
      t.status.busy = false ∧ t.status.done = true

/-- R78, R242, log 6. A `wait` at the head of the schedule ends, with the block idle and the STATUS it read as the last
reply. -/
def Obligations.WaitTerminates : Prop :=
  ∀ (s : State) (rest : List Event), Inv s → s.events = .wait :: rest →
    ∃ k t, core.run k s = .next t ∧ t.status.busy = false ∧ t.events = rest ∧
      t.replies = s.replies ++ [statusWord t.status]

/-- R126 (a), R54, R60. Host reads are invisible to the engine: however reads and engine turns interleave, the block
ends as it does after the engine turns alone. -/
def Obligations.ReadsNeverDisturbTheEngine : Prop :=
  ∀ (es : List Event) (s t : State), (∀ e ∈ es, e.isRead = true ∨ e = .engine) →
    core.run es.length (s.withEvents es) = .next t →
    ∃ u, repeatStep engineTurn (es.count .engine) s = .next u ∧ u.block = t.block

/-! ## The Word Packer -/

/-- R92, R91, R51, R79. PACKM: the words, their count, what is left alone. -/
def Obligations.PackmPacksPlaintext : Prop :=
  ∀ (t : Bool) (s : State), s.cfg.wf = true → s.w.wf = true → s.ready → s.ptLen.toNat ≤ s.cfg.ptMax →
    let d := (s.ptLen.toNat + 3) / 4
    ∃ u, exec (.packm t) s = .next u ∧
      u = { s with w := u.w, n := u.n, cur := (if t then 0x00000011 else 0x00000001), ph := .idle, chain := false,
                   status := Status.doneOnly } ∧
      u.n.toNat = (if t then d + 1 else d) ∧
      (∀ j k, j < d → k < 4 →
        (u.w.read j >>> (8 * k)).setWidth 8 = (if 4 * j + k < s.ptLen.toNat then s.pt.read (4 * j + k) else 0)) ∧
      (t = true → u.w.read d = s.ptLen) ∧
      (∀ j, u.n.toNat ≤ j → u.w.read j = s.w.read j)

/-- R93, R91, R51, R80. PACKK: the key words, their count, what is left alone. No key length is too short for it. -/
def Obligations.PackkPacksKey : Prop :=
  ∀ (t : Bool) (s : State), s.cfg.wf = true → s.k.wf = true → s.ready → s.kbLen.toNat ≤ s.cfg.kbMax →
    let d := (s.kbLen.toNat + 3) / 4
    ∃ u, exec (.packk t) s = .next u ∧
      u = { s with k := u.k, kn := u.kn, cur := (if t then 0x00000031 else 0x00000021), ph := .idle, chain := false,
                   status := Status.doneOnly } ∧
      u.kn.toNat = (if t then d + 1 else d) ∧
      (∀ j k, j < d → k < 4 →
        (u.k.read j >>> (8 * k)).setWidth 8 = (if 4 * j + k < s.kbLen.toNat then s.kb.read (4 * j + k) else 0)) ∧
      (t = true → u.k.read d = s.kbLen) ∧
      (∀ j, u.kn.toNat ≤ j → u.k.read j = s.k.read j)

/-- R95, R94, R96, R97. UNPACK: the bytes, the length, REJ, what is left alone. -/
def Obligations.UnpackReassemblesBytes : Prop :=
  ∀ (t : Bool) (s : State), s.cfg.wf = true → s.ob.wf = true → s.ready →
    1 ≤ s.n.toNat → s.n.toNat ≤ nMax s.cfg →
    let marker := (s.w.read (s.n.toNat - 1)).toNat
    let expected := 4 * (s.n.toNat - 1)
    ∃ u, exec (.unpack t) s = .next u ∧
      u = { s with ob := u.ob, obLen := u.obLen, cur := (if t then 0x00000012 else 0x00000002), ph := .idle,
                   chain := false, status := { Status.doneOnly with rej := u.status.rej } } ∧
      (∀ j k, j < s.n.toNat → k < 4 → u.ob.read (4 * j + k) = (s.w.read j >>> (8 * k)).setWidth 8) ∧
      (∀ i, 4 * s.n.toNat ≤ i → u.ob.read i = s.ob.read i) ∧
      (t = false → u.obLen.toNat = 4 * s.n.toNat ∧ u.status.rej = false) ∧
      (t = true → expected ≤ marker + 3 → marker ≤ expected → u.obLen.toNat = marker ∧ u.status.rej = false) ∧
      (t = true → (marker + 3 < expected ∨ expected < marker) → u.obLen = 0 ∧ u.status.rej = true)

/-- R98. Packing with the length trailer and unpacking with validation returns the plaintext; unpacking without
validation returns the length of CipherOutput. -/
def Obligations.UnpackInvertsPack : Prop :=
  ∀ s : State, s.cfg.wf = true → s.w.wf = true → s.ob.wf = true → s.ready → s.ptLen.toNat ≤ s.cfg.ptMax →
    (∃ u, andThen (exec (.packm true) s) (exec (.unpack true)) = .next u ∧ u.obLen = s.ptLen ∧
      u.status.rej = false ∧ ∀ i, i < s.ptLen.toNat → u.ob.read i = s.pt.read i) ∧
    (∃ u, andThen (exec (.packm true) s) (exec (.unpack false)) = .next u ∧
      u.obLen.toNat = 4 * ((s.ptLen.toNat + 3) / 4 + 1))

/-! ## The Block Mixer -/

/-- R112. The round count and its values. -/
def Obligations.RoundCountTable : Prop :=
  (∀ n, 2 ≤ n → 6 ≤ roundCount n ∧ roundCount n ≤ 32) ∧
  [2, 3, 4, 5, 6, 7, 8, 9, 10, 11, 12, 13].map roundCount = [32, 23, 19, 16, 14, 13, 12, 11, 11, 10, 10, 10] ∧
  (∀ n, 14 ≤ n → n ≤ 17 → roundCount n = 9) ∧ (∀ n, 18 ≤ n → n ≤ 26 → roundCount n = 8) ∧
  (∀ n, 27 ≤ n → n ≤ 52 → roundCount n = 7) ∧ (∀ n, 53 ≤ n → roundCount n = 6)

/-- R113, R15. The mixing value, as arithmetic on natural numbers; the spec's own value of MX_KEY_XOR_RIGHT is false. -/
def Obligations.MixingValueFormula : Prop :=
  ∀ (c : Config) (z y sum kx : Word),
    (mx c z y sum kx).toNat =
      (((z.toNat / 32) ^^^ (y.toNat * 4 % 2 ^ 32)) +
       (((y.toNat / 8) ^^^ (z.toNat * 16 % 2 ^ 32)) ^^^ (sum.toNat ^^^ y.toNat)) +
       (if c.mxKeyXorRight = true then kx.toNat ^^^ z.toNat else kx.toNat)) % 2 ^ 32

/-- R114. The key word selection, as the table of the rule: a row for each `e`, a column for each `p mod 4`. -/
def Obligations.KeyIndexTable : Prop :=
  ∀ p sum : Word,
    let e := sum.toNat / 4 % 4
    let column := p.toNat % 4
    (e = 0 → keyIndex p sum = [0, 1, 2, 3].getD column 4) ∧ (e = 1 → keyIndex p sum = [1, 0, 3, 2].getD column 4) ∧
    (e = 2 → keyIndex p sum = [2, 3, 0, 1].getD column 4) ∧ (e = 3 → keyIndex p sum = [3, 2, 1, 0].getD column 4)

/-- R118. The step of phase 3, and why ZREG needs no reload: the last position step of a round leaves it equal to the last
word. -/
def Obligations.MixInitialisation : Prop :=
  ∀ s : State, s.status.busy = true → s.w.wf = true →
    2 ≤ s.n.toNat → s.n.toNat ≤ nMax s.cfg → 4 ≤ s.kn.toNat → s.kn.toNat ≤ knMax s.cfg →
    (s.ph = .mixi → engineTurn s = .next { s with
      q := BitVec.ofNat 32 (6 + 52 / s.n.toNat), sum := 0, zreg := s.w.read (s.n.toNat - 1), rnd := 0, pos := 0,
      ph := .mixr }) ∧
    (∀ t, s.ph = .mixr → s.pos.toNat = s.n.toNat - 1 → engineTurn s = .next t →
      t.pos = 0 ∧ t.zreg = t.w.read (s.n.toNat - 1))

/-- R116, R117, R113 to R115, R121. One position step in place, and where the sequencer goes after it: the next position,
the next round, completion, or inside ENCODE phase 5. The key word is added as the spec decides (R113). -/
def Obligations.PositionStep : Prop :=
  ∀ s : State, s.status.busy = true → s.ph = .mixr → s.cfg.mxKeyXorRight = false →
    2 ≤ s.n.toNat → s.n.toNat ≤ nMax s.cfg → 4 ≤ s.kn.toNat → s.kn.toNat ≤ knMax s.cfg →
    s.pos.toNat < s.n.toNat →
    let n := s.n.toNat
    let p := s.pos.toNat
    let used := if p = 0 ∧ s.cfg.sumPhase = SumPhase.pre then s.sum + 0x9E3779B9 else s.sum
    let y := s.w.read ((p + 1) % n)
    let z := s.zreg
    let kx := s.k.read ((p % 4) ^^^ (used.toNat / 4 % 4))
    let v := s.w.read p + (((z >>> 5) ^^^ (y <<< 2)) + (((y >>> 3) ^^^ (z <<< 4)) ^^^ (used ^^^ y)) + kx)
    let s1 := { s with w := s.w.write p v, zreg := v,
                       sum := if p = n - 1 ∧ s.cfg.sumPhase = SumPhase.post then used + 0x9E3779B9 else used }
    (p < n - 1 → engineTurn s = .next { s1 with pos := s.pos + 1 }) ∧
    (p = n - 1 → s.rnd + 1 ≠ s.q → engineTurn s = .next { s1 with pos := 0, rnd := s.rnd + 1 }) ∧
    (p = n - 1 → s.rnd + 1 = s.q → s.chain = false → engineTurn s = .next { s1 with
      pos := 0, rnd := s.rnd + 1, ph := .idle, status := { s.status with busy := false, done := true } }) ∧
    (p = n - 1 → s.rnd + 1 = s.q → s.chain = true → engineTurn s = .next { s1 with
      pos := 0, rnd := s.rnd + 1, ph := .unpack })

/-- R124 (a), R117, R118. After initialisation and `r` whole rounds, `r` less than Q, the engine stands at the start of
a round: RND = r, POS = 0, SUM = r * C and ZREG = W[n - 1], whichever SUM_PHASE is. -/
def Obligations.StateAfterRounds : Prop :=
  ∀ (s : State) (r : Nat), s.cfg.wf = true → s.w.wf = true → s.status.busy = true → s.ph = .mixi →
    2 ≤ s.n.toNat → s.n.toNat ≤ nMax s.cfg → 4 ≤ s.kn.toNat → s.kn.toNat ≤ knMax s.cfg →
    r < 6 + 52 / s.n.toNat →
    ∃ u, repeatStep engineTurn (1 + r * s.n.toNat) s = .next u ∧
      u = { s with w := u.w, q := BitVec.ofNat 32 (6 + 52 / s.n.toNat), rnd := BitVec.ofNat 32 r, pos := 0,
                   sum := BitVec.ofNat 32 (r * 0x9E3779B9), zreg := u.w.read (s.n.toNat - 1), ph := .mixr } ∧
      ∀ i, s.n.toNat ≤ i → u.w.read i = s.w.read i

/-- R119, R120. MIX computes `encrypt` of R120 on `W[0 .. N)` with `K[0 .. 4)`, leaves the sequencer registers as R119
says and everything else alone. -/
def Obligations.MixComputesEncrypt : Prop :=
  ∀ s : State, s.cfg.wf = true → s.w.wf = true → s.ready →
    2 ≤ s.n.toNat → s.n.toNat ≤ nMax s.cfg → 4 ≤ s.kn.toNat → s.kn.toNat ≤ knMax s.cfg →
    ∃ u, exec .mix s = .next u ∧
      u = { s with w := u.w, q := BitVec.ofNat 32 (6 + 52 / s.n.toNat), rnd := u.q, pos := 0,
                   sum := BitVec.ofNat 32 ((6 + 52 / s.n.toNat) * 0x9E3779B9), zreg := u.w.read (s.n.toNat - 1),
                   cur := 0x00000003, ph := .idle, chain := false, status := Status.doneOnly } ∧
      u.w.take s.n.toNat = encrypt s.cfg (s.w.take s.n.toNat) (s.k.take 4) ∧
      (∀ i, s.n.toNat ≤ i → u.w.read i = s.w.read i)

/-! ## ENCODE -/

/-- R141. The short-circuit, whatever the key. -/
def Obligations.EncodeShortCircuits : Prop :=
  ∀ s : State, s.ready → s.ptLen = 0 →
    let t := { s with cur := 0x00000004, obLen := 0,
                      status := { busy := false, done := true, err := false, rej := false, empty := true } }
    exec .encode s = .next t ∧ writeCommand 0x00000004 s = t

/-- R143, R142, R140. The end state of a completed ENCODE, every field of it. -/
def Obligations.EncodeEndState : Prop :=
  ∀ s : State, s.cfg.wf = true → s.w.wf = true → s.k.wf = true → s.ob.wf = true → s.ready →
    0 < s.ptLen.toNat → s.ptLen.toNat ≤ s.cfg.ptMax → 13 ≤ s.kbLen.toNat → s.kbLen.toNat ≤ s.cfg.kbMax →
    let n := (s.ptLen.toNat + 3) / 4 + 1
    let kn := (s.kbLen.toNat + 3) / 4
    let cipher := encrypt s.cfg (pack s.pt s.ptLen.toNat true) (pack s.kb s.kbLen.toNat false)
    ∃ u, exec .encode s = .next u ∧
      u = { s with w := u.w, n := BitVec.ofNat 32 n, k := u.k, kn := BitVec.ofNat 32 kn, ob := u.ob,
                   obLen := BitVec.ofNat 32 (4 * n), q := BitVec.ofNat 32 (6 + 52 / n),
                   rnd := BitVec.ofNat 32 (6 + 52 / n), pos := 0,
                   sum := BitVec.ofNat 32 ((6 + 52 / n) * 0x9E3779B9), zreg := cipher.getD (n - 1) 0,
                   cur := 0x00000004, ph := .idle, chain := false, status := Status.doneOnly } ∧
      u.w.take n = cipher ∧ (∀ i, n ≤ i → u.w.read i = s.w.read i) ∧
      u.k.take kn = pack s.kb s.kbLen.toNat false ∧ (∀ i, kn ≤ i → u.k.read i = s.k.read i) ∧
      (∀ j k, j < n → k < 4 → u.ob.read (4 * j + k) = (cipher.getD j 0 >>> (8 * k)).setWidth 8) ∧
      (∀ i, 4 * n ≤ i → u.ob.read i = s.ob.read i)

/-- R143, last sentence. ENCODE ends in the state of the script PACKM.L, PACKK, MIX, UNPACK, but for CUR. -/
def Obligations.EncodeEqualsTheScript : Prop :=
  ∀ s : State, s.cfg.wf = true → s.w.wf = true → s.k.wf = true → s.ob.wf = true → s.ready →
    0 < s.ptLen.toNat → s.ptLen.toNat ≤ s.cfg.ptMax → 13 ≤ s.kbLen.toNat → s.kbLen.toNat ≤ s.cfg.kbMax →
    ∃ u, exec .encode s = .next u ∧
      andThen (exec (.packm true) s) (fun a => andThen (exec (.packk false) a) fun b =>
        andThen (exec .mix b) fun c => exec (.unpack false) c) = .next { u with cur := 0x00000002 }

/-- R144. The length of CipherOutput. -/
def Obligations.EncodeLength : Prop :=
  ∀ s : State, s.cfg.wf = true → s.w.wf = true → s.ready → s.ptLen.toNat ≤ s.cfg.ptMax →
    (0 < s.ptLen.toNat → 13 ≤ s.kbLen.toNat ∧ s.kbLen.toNat ≤ s.cfg.kbMax) →
    ∃ u, exec .encode s = .next u ∧
      u.obLen.toNat = (if s.ptLen.toNat = 0 then 0 else 4 * ((s.ptLen.toNat + 3) / 4 + 1)) ∧
      u.obLen.toNat % 4 = 0 ∧ (0 < s.ptLen.toNat →
        s.ptLen.toNat + 4 ≤ u.obLen.toNat ∧ u.obLen.toNat ≤ s.ptLen.toNat + 7) ∧
      u.status.done = true ∧ u.status.err = false

/-- R145, R36. The output of ENCODE is a function of the plaintext bytes and of the first sixteen key bytes alone: nothing
past a length, no other register and no other buffer bears on it. -/
def Obligations.EncodeDependsOnItsOperandsOnly : Prop :=
  ∀ s s' : State, s.cfg = s'.cfg → s.cfg.wf = true → s.ready → s'.ready →
    s.w.wf = true → s'.w.wf = true → s.k.wf = true → s'.k.wf = true → s.ob.wf = true → s'.ob.wf = true →
    s.ptLen = s'.ptLen → s.ptLen.toNat ≤ s.cfg.ptMax →
    13 ≤ s.kbLen.toNat → s.kbLen.toNat ≤ s.cfg.kbMax → 13 ≤ s'.kbLen.toNat → s'.kbLen.toNat ≤ s.cfg.kbMax →
    min s.kbLen.toNat 16 = min s'.kbLen.toNat 16 →
    (∀ i, i < s.ptLen.toNat → s.pt.read i = s'.pt.read i) →
    (∀ i, i < min s.kbLen.toNat 16 → s.kb.read i = s'.kb.read i) →
    ∃ u u', exec .encode s = .next u ∧ exec .encode s' = .next u' ∧ u.obLen = u'.obLen ∧
      ∀ i, i < u.obLen.toNat → u.ob.read i = u'.ob.read i

/-! ## The Alphabet Encoder -/

/-- R156, R158, R154, R155. B64O: symbol `4g + r` is the table's entry for the 6 bits `r` of the 24-bit number of group
`g`, or the pad where the group has fewer than `r` bytes. -/
def Obligations.B64oEncodesOutput : Prop :=
  ∀ s : State, s.cfg.wf = true → s.sy.wf = true → s.ready → s.obLen.toNat ≤ 4 * ((s.cfg.ptMax + 3) / 4 + 1) →
    let len := s.obLen.toNat
    let byte := fun i => if i < len then (s.ob.read i).toNat else 0
    ∃ u, exec .b64o s = .next u ∧
      u = { s with sy := u.sy, syLen := BitVec.ofNat 32 (4 * ((len + 2) / 3)), cur := 0x00000005, ph := .idle,
                   chain := false, status := Status.doneOnly } ∧
      u.syLen.toNat = 4 * ((len + 2) / 3) ∧
      (∀ g r, g < (len + 2) / 3 → r < 4 →
        u.sy.read (4 * g + r) =
          if 3 * g + r ≤ len then
            s.cfg.customTable.getD
              ((byte (3 * g) * 65536 + byte (3 * g + 1) * 256 + byte (3 * g + 2)) / 64 ^ (3 - r) % 64) 0
          else s.cfg.padSymbol) ∧
      (∀ i, 4 * ((len + 2) / 3) ≤ i → u.sy.read i = s.sy.read i)

/-- R157, R158, R154, R155. B64P: the same function of the plaintext bytes. -/
def Obligations.B64pEncodesPlaintext : Prop :=
  ∀ s : State, s.cfg.wf = true → s.sy.wf = true → s.ready → s.ptLen.toNat ≤ s.cfg.ptMax →
    let len := s.ptLen.toNat
    let byte := fun i => if i < len then (s.pt.read i).toNat else 0
    ∃ u, exec .b64p s = .next u ∧
      u = { s with sy := u.sy, syLen := BitVec.ofNat 32 (4 * ((len + 2) / 3)), cur := 0x00000025, ph := .idle,
                   chain := false, status := Status.doneOnly } ∧
      u.syLen.toNat = 4 * ((len + 2) / 3) ∧
      (∀ g r, g < (len + 2) / 3 → r < 4 →
        u.sy.read (4 * g + r) =
          if 3 * g + r ≤ len then
            s.cfg.customTable.getD
              ((byte (3 * g) * 65536 + byte (3 * g + 1) * 256 + byte (3 * g + 2)) / 64 ^ (3 - r) % 64) 0
          else s.cfg.padSymbol) ∧
      (∀ i, 4 * ((len + 2) / 3) ≤ i → u.sy.read i = s.sy.read i)

/-- R159. The symbol stream: its length, its pads, its other symbols, and that it determines the bytes and their
number, for every admissible table. -/
def Obligations.SymbolStreamLaws : Prop :=
  ∀ c : Config, c.tableOk = true → ∀ (b : Memory 8) (len : Nat),
    (b64 c b len).length = 4 * ((len + 2) / 3) ∧
    (b64 c b len).count c.padSymbol = (3 - len % 3) % 3 ∧
    (∀ i, i < 4 * ((len + 2) / 3) →
      if i < 4 * ((len + 2) / 3) - (3 - len % 3) % 3 then (b64 c b len).getD i 0 ∈ c.customTable
      else (b64 c b len).getD i 0 = c.padSymbol) ∧
    (∀ (b' : Memory 8) (len' : Nat), b64 c b len = b64 c b' len' →
      len = len' ∧ ∀ i, i < len → b.read i = b'.read i)

/-! ## The host port -/

/-- R57, R54, R34. A host read answers the entry and changes nothing but the list of replies, which is the model's (log
5); the register file number by number. -/
def Obligations.HostReadsTheCurrentContent : Prop :=
  ∀ (s : State) (i : Nat),
    let answers := fun (sp : Space) (bytes : Nat) (v : Word) =>
      hostRead sp i bytes s = .next { s with replies := s.replies ++ [v] }
    (i < 17 → answers .csr 4 ([0, statusWord s.status, causeCode s.cause, s.einfo, s.ptLen, s.kbLen, s.n, s.kn, s.obLen,
      s.syLen, s.cur, phaseWord s.ph s.chain, s.q, s.rnd, s.pos, s.sum, s.zreg].getD i 0)) ∧
    (i < s.cfg.ptMax → answers .pt 1 ((s.pt.read i).setWidth 32)) ∧
    (i < s.cfg.kbMax → answers .kb 1 ((s.kb.read i).setWidth 32)) ∧
    (i < nMax s.cfg → answers .w 4 (s.w.read i)) ∧
    (i < knMax s.cfg → answers .k 4 (s.k.read i)) ∧
    (i < obMax s.cfg → answers .ob 1 ((s.ob.read i).setWidth 32)) ∧
    (i < syMax s.cfg → answers .sy 1 ((s.sy.read i).setWidth 32))

/-- R30 to R32, R200. The flag registers as words: each field at its bits, zeros elsewhere. -/
def Obligations.StatusRegistersBitByBit : Prop :=
  ∀ s : State,
    readCsr s 1 = (if s.status.busy then 1 else 0) + (if s.status.done then 2 else 0) +
      (if s.status.err then 4 else 0) + (if s.status.rej then 8 else 0) + (if s.status.empty then 16 else 0) ∧
    (s.cause = .none → readCsr s 2 = 0) ∧ (s.cause = .illegalCmd → readCsr s 2 = 1) ∧
    (s.cause = .lenOvf → readCsr s 2 = 2) ∧ (s.cause = .keyShort → readCsr s 2 = 3) ∧
    (s.cause = .nShort → readCsr s 2 = 4) ∧ (s.cause = .unpackEmpty → readCsr s 2 = 5) ∧
    readCsr s 11 = (if s.chain then 8 else 0) + (match s.ph with
      | .idle => 0 | .packm => 1 | .packk => 2 | .mixi => 3 | .mixr => 4 | .unpack => 5 | .b64 => 6)

/-- R56. The gate: an open gate stores the entry and nothing else, a shut gate and a read-only target store nothing. The
byte `b` of an 8-bit access is written as the word with zeros above it. -/
def Obligations.HostWriteGate : Prop :=
  ∀ (s : State) (v : Word) (b : Byte),
    let drops := fun (sp : Space) (i bytes : Nat) => hostWrite sp i bytes v s = .next s
    (s.ready →
      (∀ i, i < s.cfg.ptMax → hostWrite .pt i 1 (b.setWidth 32) s = .next { s with pt := s.pt.write i b }) ∧
      (∀ i, i < s.cfg.kbMax → hostWrite .kb i 1 (b.setWidth 32) s = .next { s with kb := s.kb.write i b }) ∧
      (∀ i, i < nMax s.cfg → hostWrite .w i 4 v s = .next { s with w := s.w.write i v }) ∧
      (∀ i, i < knMax s.cfg → hostWrite .k i 4 v s = .next { s with k := s.k.write i v }) ∧
      hostWrite .csr 4 4 v s = .next { s with ptLen := v } ∧ hostWrite .csr 5 4 v s = .next { s with kbLen := v } ∧
      hostWrite .csr 6 4 v s = .next { s with n := v } ∧ hostWrite .csr 7 4 v s = .next { s with kn := v }) ∧
    (s.status.busy = true ∨ s.status.err = true →
      (∀ i, i < s.cfg.ptMax → drops .pt i 1) ∧ (∀ i, i < s.cfg.kbMax → drops .kb i 1) ∧
      (∀ i, i < nMax s.cfg → drops .w i 4) ∧ (∀ i, i < knMax s.cfg → drops .k i 4) ∧
      (∀ i, 4 ≤ i → i ≤ 7 → drops .csr i 4)) ∧
    (∀ i, i < obMax s.cfg → drops .ob i 1) ∧ (∀ i, i < syMax s.cfg → drops .sy i 1) ∧
    (∀ i, i = 1 ∨ i = 2 ∨ i = 3 ∨ (8 ≤ i ∧ i ≤ 16) → drops .csr i 4)

/-- R54, R56. A stored entry reads back, and every other entry of its buffer reads as before. -/
def Obligations.StoredEntryReadsBack : Prop :=
  ∀ (width : Nat) (m : Memory width) (i : Nat) (v : BitVec width) (cap : Nat), m.ok cap → i < cap →
    (m.write i v).ok cap ∧ (m.write i v).read i = v ∧ ∀ j, j ≠ i → (m.write i v).read j = m.read j

/-- R53, R55, R50. Accesses that the spec gives no meaning are refused, in every state; the capacities are spelled out
(R12). Which refusal is answered where index and width are both wrong, that of the index, is the model's (log 8). -/
def Obligations.AccessesOutsideAreRefused : Prop :=
  ∀ (s : State) (sp : Space) (i bytes : Nat) (v : Word),
    let nCap := (s.cfg.ptMax + 3) / 4 + 1
    let cap : Nat := match sp with
      | .csr => 17 | .pt => s.cfg.ptMax | .kb => s.cfg.kbMax | .w => nCap | .k => (s.cfg.kbMax + 3) / 4 + 1
      | .ob => 4 * nCap | .sy => 4 * ((4 * nCap + 2) / 3)
    let size : Nat := match sp with | .csr | .w | .k => 4 | .pt | .kb | .ob | .sy => 1
    (cap ≤ i → hostRead sp i bytes s = .refused .noSuchEntry ∧ hostWrite sp i bytes v s = .refused .noSuchEntry) ∧
    (i < cap → bytes ≠ size →
      hostRead sp i bytes s = .refused .wrongWidth ∧ hostWrite sp i bytes v s = .refused .wrongWidth)

/-- R58, R53, log 11. Under an admissible map a bus access at an entry's address is the host access of that entry, no two
addresses name one entry, and an address that is no entry's is refused. -/
def Obligations.BusAddressesNameEntries : Prop :=
  ∀ (s : State) (v : Word) (bytes : Nat), s.cfg.mapOk = true →
    (∀ m ∈ s.cfg.map, ∀ k, k < m.count →
      busRead (m.base + m.space.entryBytes * k) bytes s = hostRead m.space (m.first + k) bytes s ∧
      busWrite (m.base + m.space.entryBytes * k) bytes v s = hostWrite m.space (m.first + k) bytes v s) ∧
    (∀ a b x, busEntry s.cfg a = some x → busEntry s.cfg b = some x → a = b) ∧
    (∀ a, (∀ m ∈ s.cfg.map, ∀ k, k < m.count → a ≠ m.base + m.space.entryBytes * k) →
      busRead a bytes s = .refused .noSuchAddress ∧ busWrite a bytes v s = .refused .noSuchAddress)

/-! ## Rules over the whole machine -/

/-- R26, R27, R40, R233. No command but SRESET, and no engine step, changes the plaintext, the key or their lengths. -/
def Obligations.CommandsKeepTheOperands : Prop :=
  (∀ (i : Instr) (s t : State), i ≠ .sreset → exec i s = .next t →
    t.pt = s.pt ∧ t.kb = s.kb ∧ t.ptLen = s.ptLen ∧ t.kbLen = s.kbLen) ∧
  (∀ s t : State, engineTurn s = .next t →
    t.pt = s.pt ∧ t.kb = s.kb ∧ t.ptLen = s.ptLen ∧ t.kbLen = s.kbLen)

/-- R35. No step changes the table or any other parameter. -/
def Obligations.ParametersAreConstant : Prop :=
  ∀ s t : State, step s = .next t → t.cfg = s.cfg

/-- The model's faults are unreachable and its refusals are the access refusals of R53 and R55: under the invariant a
step faults never, and refuses only where the schedule's head is an access. -/
def Obligations.StepStopsOnlyAtBadAccesses : Prop :=
  ∀ s : State, Inv s →
    (∀ f, step s ≠ .fault f) ∧
    (∀ r, step s = .refused r → ∃ e rest, s.events = e :: rest ∧
      ((∃ sp i b, e = .read sp i b ∧ accessRefusal s.cfg sp i b = some r) ∨
       (∃ sp i b v, e = .write sp i b v ∧ accessRefusal s.cfg sp i b = some r) ∨
       (∃ a b, e = .busRead a b ∧ busRead a b s = .refused r) ∨
       (∃ a b v, e = .busWrite a b v ∧ busWrite a b v s = .refused r)))

/-- R37, and for each phase what its acceptance established: every step keeps the invariant, under any schedule. -/
def Obligations.StepKeepsTheInvariant : Prop :=
  ∀ s t : State, Inv s → step s = .next t → Inv t

/-- The invariant holds after reset, for every admissible parameter record and every schedule, and of State.reset. -/
def Obligations.ResetMeetsTheInvariant : Prop :=
  (∀ (c : Config) (es : List Event), c.wf = true → Inv ((State.resetWith c).withEvents es)) ∧
  Inv State.reset

/-- R37. The five clauses in every state that any run from reset reaches, for every admissible parameter record and any
schedule of host accesses, engine turns and resets. -/
def Obligations.ReachableStatesAreLegal : Prop :=
  ∀ (c : Config) (s : State), c.wf = true → Reachable c s →
    (s.status.busy = true → s.status.err = false ∧ s.status.done = false) ∧
    (s.status.busy = false → s.ph = .idle ∧ s.chain = false) ∧
    (s.status.err = false → s.cause = .none ∧ s.einfo = 0) ∧
    (s.ph = .mixr → 2 ≤ s.n.toNat ∧ s.n.toNat ≤ nMax c ∧ 4 ≤ s.kn.toNat ∧ s.kn.toNat ≤ knMax c ∧
      s.q.toNat = 6 + 52 / s.n.toNat ∧ s.rnd.toNat < s.q.toNat ∧ s.pos.toNat < s.n.toNat ∧
      s.zreg = s.w.read ((s.pos.toNat + s.n.toNat - 1) % s.n.toNat)) ∧
    (s.status.rej = true → s.status.done = true ∧ s.obLen = 0) ∧
    (s.status.empty = true → s.status.done = true ∧ s.obLen = 0)
end

