-- ==== Sys2Proof/Laws/Encoding.lean ====
section
/-! SUPPORT. Cutting a word into fields and joining fields into a word are inverse to each other. -/

namespace Sys2Proof

theorem joinFields_fieldsOf (v : Word) : joinFields (fieldsOf v) = v := by
  apply BitVec.eq_of_getLsbD_eq
  intro i hi
  simp only [joinFields, fieldsOf, BitVec.getLsbD_append, BitVec.getLsbD_ofBool, BitVec.getLsbD_extractLsb']
  by_cases h4 : i < 4
  · simp [h4]
  · by_cases h5 : i - 4 < 1
    · obtain rfl : i = 4 := by omega
      simp
    · by_cases h6 : i - 4 - 1 < 1
      · obtain rfl : i = 5 := by omega
        simp
      · have : i - 4 - 1 - 1 < 26 := by omega
        simp [h4, h5, h6, this]
        congr 1; omega

theorem fieldsOf_joinFields (f : CmdFields) : fieldsOf (joinFields f) = f := by
  obtain ⟨z, s, t, op⟩ := f
  simp only [joinFields, fieldsOf, CmdFields.mk.injEq]
  refine ⟨?_, ?_, ?_, ?_⟩
  · ext i hi
    simp only [BitVec.getElem_extractLsb', BitVec.getLsbD_append]
    rw [if_neg (by omega), if_neg (by omega), if_neg (by omega)]
    simp only [show 6 + i - 4 - 1 - 1 = i by omega]
    exact BitVec.getLsbD_eq_getElem hi
  · simp only [BitVec.getLsbD_append]; simp
  · simp only [BitVec.getLsbD_append]; simp
  · ext i hi
    simp only [BitVec.getElem_extractLsb', BitVec.getLsbD_append, Nat.zero_add, if_pos hi]
    exact BitVec.getLsbD_eq_getElem hi

/-- An instruction's own word decodes to it (by its fields, one constructor at a time). -/
theorem decode_own_word (i : Instr) : decode (encode i) = .ok i := by
  rw [decode, encode, fieldsOf_joinFields]
  cases i with
  | packm t => cases t <;> rfl
  | packk t => cases t <;> rfl
  | unpack t => cases t <;> rfl
  | _ => rfl

end Sys2Proof
end

