-- ==== Sys2Proof/Laws/Memory.lean ====
section
/-! SUPPORT. The laws of buffers: a read after a write, many writes at once, the canonical form and the capacity kept
by every write, and that two canonical buffers which read the same are equal. -/

namespace Sys2Proof.Machine

variable {width : Nat}

@[simp] theorem Memory.read_nil (i : Nat) : Memory.read ([] : Memory width) i = 0 := rfl

theorem Memory.read_cons (j : Nat) (v : BitVec width) (rest : Memory width) (i : Nat) :
    Memory.read ((j, v) :: rest) i = if i = j then v else Memory.read rest i := rfl

/-- Below the first listed index everything reads 0. -/
theorem Memory.read_below (m : Memory width) (i : Nat) (h : m.all (fun c => decide (i < c.1)) = true) :
    m.read i = 0 := by
  induction m with
  | nil => rfl
  | cons c rest ih =>
    obtain ⟨j, v⟩ := c
    simp only [List.all_cons, Bool.and_eq_true, decide_eq_true_eq] at h
    rw [Memory.read_cons, if_neg (by omega), ih h.2]

theorem Memory.all_mono (m : Memory width) (i j : Nat) (hij : i ≤ j)
    (h : m.all (fun c => decide (j < c.1)) = true) : m.all (fun c => decide (i < c.1)) = true := by
  rw [List.all_eq_true] at h ⊢
  intro c hc
  have := h c hc
  simp only [decide_eq_true_eq] at this ⊢
  omega

theorem Memory.wf_cons (i : Nat) (v : BitVec width) (rest : Memory width) :
    Memory.wf ((i, v) :: rest) = true ↔
      v ≠ 0 ∧ rest.all (fun c => decide (i < c.1)) = true ∧ rest.wf = true := by
  simp [Memory.wf, and_assoc]

theorem Memory.read_cell (i : Nat) (v : BitVec width) (rest : Memory width) (a : Nat)
    (h : rest.all (fun c => decide (i < c.1)) = true) :
    Memory.read (Memory.cell i v rest) a = if a = i then v else rest.read a := by
  unfold Memory.cell
  split
  · next hv =>
    split
    · next ha => rw [ha, hv, Memory.read_below rest i h]
    · rfl
  · rfl

/-- The law of a write: the written entry holds the value, every other entry is as before. -/
theorem Memory.read_write (m : Memory width) (hm : m.wf = true) (i : Nat) (v : BitVec width) (a : Nat) :
    (m.write i v).read a = if a = i then v else m.read a := by
  induction m with
  | nil => exact Memory.read_cell i v [] a rfl
  | cons c rest ih =>
    obtain ⟨j, u⟩ := c
    obtain ⟨-, hall, hrest⟩ := (Memory.wf_cons j u rest).mp hm
    unfold Memory.write
    split
    · next hij =>
      refine Memory.read_cell i v _ a ?_
      simp only [List.all_cons, Bool.and_eq_true, decide_eq_true_eq]
      exact ⟨hij, Memory.all_mono rest i j (by omega) hall⟩
    · split
      · next hij =>
        rw [Memory.read_cell i v rest a (hij ▸ hall), Memory.read_cons]
        split <;> simp_all
      · next hlt hne =>
        rw [Memory.read_cons, Memory.read_cons, ih hrest]
        by_cases haj : a = j
        · subst haj; simp [show ¬ a = i from fun h => hne h.symm]
        · simp [haj]

theorem Memory.wf_cell (i : Nat) (v : BitVec width) (rest : Memory width)
    (h : rest.all (fun c => decide (i < c.1)) = true) (hr : rest.wf = true) :
    (Memory.cell i v rest).wf = true := by
  unfold Memory.cell
  split
  · exact hr
  · next hv => exact (Memory.wf_cons i v rest).mpr ⟨hv, h, hr⟩

theorem Memory.all_cell (P : Nat × BitVec width → Bool) (i : Nat) (v : BitVec width) (rest : Memory width)
    (hi : P (i, v) = true) (h : rest.all P = true) : (Memory.cell i v rest).all P = true := by
  unfold Memory.cell
  split <;> simp_all

theorem Memory.all_write (P : Nat × BitVec width → Bool) (m : Memory width) (i : Nat) (v : BitVec width)
    (hi : P (i, v) = true) (h : m.all P = true) : (m.write i v).all P = true := by
  induction m with
  | nil => exact Memory.all_cell P i v [] hi rfl
  | cons c rest ih =>
    obtain ⟨j, u⟩ := c
    have hrest : rest.all P = true := by simp_all
    unfold Memory.write
    split
    · exact Memory.all_cell P i v _ hi h
    · split
      · exact Memory.all_cell P i v rest hi hrest
      · simp_all

/-- A write keeps the canonical form. -/
theorem Memory.wf_write (m : Memory width) (hm : m.wf = true) (i : Nat) (v : BitVec width) :
    (m.write i v).wf = true := by
  induction m with
  | nil => exact Memory.wf_cell i v [] rfl rfl
  | cons c rest ih =>
    obtain ⟨j, u⟩ := c
    obtain ⟨hu, hall, hrest⟩ := (Memory.wf_cons j u rest).mp hm
    unfold Memory.write
    split
    · next hij =>
      refine Memory.wf_cell i v _ ?_ hm
      simp only [List.all_cons, Bool.and_eq_true, decide_eq_true_eq]
      exact ⟨hij, Memory.all_mono rest i j (by omega) hall⟩
    · split
      · next hij => exact Memory.wf_cell i v rest (hij ▸ hall) hrest
      · refine (Memory.wf_cons j u _).mpr ⟨hu, ?_, ih hrest⟩
        exact Memory.all_write _ rest i v (by simp; omega) hall

/-- A write inside the capacity stays inside it. -/
theorem Memory.within_write (m : Memory width) (cap i : Nat) (v : BitVec width) (hi : i < cap)
    (hm : m.within cap = true) : (m.write i v).within cap = true :=
  Memory.all_write _ m i v (by simpa using hi) hm

/-- The law of a block of writes. -/
theorem Memory.read_writeAll (m : Memory width) (hm : m.wf = true) (base : Nat) (vs : List (BitVec width)) (a : Nat) :
    (m.writeAll base vs).read a =
      if base ≤ a ∧ a < base + vs.length then vs.getD (a - base) 0 else m.read a := by
  induction vs generalizing m base with
  | nil => simp [Memory.writeAll]
  | cons v vs ih =>
    rw [Memory.writeAll, ih _ (Memory.wf_write m hm base v), Memory.read_write m hm]
    simp only [List.length_cons]
    by_cases h1 : a = base
    · subst h1; simp
    · by_cases h2 : base + 1 ≤ a ∧ a < base + 1 + vs.length
      · have h3 : base ≤ a ∧ a < base + (vs.length + 1) := by omega
        have h4 : a - base = (a - (base + 1)) + 1 := by omega
        rw [if_pos h2, if_pos h3, h4, List.getD_cons_succ]
      · have h3 : ¬ (base ≤ a ∧ a < base + (vs.length + 1)) := by omega
        rw [if_neg h2, if_neg h3, if_neg h1]

theorem Memory.wf_writeAll (m : Memory width) (hm : m.wf = true) (base : Nat) (vs : List (BitVec width)) :
    (m.writeAll base vs).wf = true := by
  induction vs generalizing m base with
  | nil => exact hm
  | cons v vs ih => exact ih _ (Memory.wf_write m hm base v) _

theorem Memory.within_writeAll (m : Memory width) (cap base : Nat) (vs : List (BitVec width))
    (hv : base + vs.length ≤ cap) (hm : m.within cap = true) : (m.writeAll base vs).within cap = true := by
  induction vs generalizing m base with
  | nil => exact hm
  | cons v vs ih =>
    rw [List.length_cons] at hv
    exact ih _ (base + 1) (by omega) (Memory.within_write m cap base v (by omega) hm)

/-- Every operation keeps a buffer in form and inside its capacity. -/
theorem Memory.ok_write (m : Memory width) (cap i : Nat) (v : BitVec width) (hi : i < cap) (h : m.ok cap) :
    (m.write i v).ok cap :=
  ⟨Memory.wf_write m h.1 i v, Memory.within_write m cap i v hi h.2⟩

theorem Memory.ok_writeAll (m : Memory width) (cap base : Nat) (vs : List (BitVec width))
    (hv : base + vs.length ≤ cap) (h : m.ok cap) : (m.writeAll base vs).ok cap :=
  ⟨Memory.wf_writeAll m h.1 base vs, Memory.within_writeAll m cap base vs hv h.2⟩

/-- The empty buffer of reset is in form. -/
theorem Memory.ok_nil (cap : Nat) : Memory.ok ([] : Memory width) cap := ⟨rfl, rfl⟩

/-- Two canonical buffers that read the same are the same data. -/
theorem Memory.ext_read (m1 m2 : Memory width) (h1 : m1.wf = true) (h2 : m2.wf = true)
    (h : ∀ i, m1.read i = m2.read i) : m1 = m2 := by
  induction m1 generalizing m2 with
  | nil =>
    cases m2 with
    | nil => rfl
    | cons c rest =>
      obtain ⟨j, v⟩ := c
      have := h j
      rw [Memory.read_cons, if_pos rfl] at this
      exact absurd this.symm ((Memory.wf_cons j v rest).mp h2).1
  | cons c1 r1 ih =>
    obtain ⟨j1, v1⟩ := c1
    obtain ⟨hv1, ha1, hw1⟩ := (Memory.wf_cons j1 v1 r1).mp h1
    cases m2 with
    | nil =>
      have := h j1
      rw [Memory.read_cons, if_pos rfl] at this
      exact absurd this hv1
    | cons c2 r2 =>
      obtain ⟨j2, v2⟩ := c2
      obtain ⟨hv2, ha2, hw2⟩ := (Memory.wf_cons j2 v2 r2).mp h2
      have e1 := h j1
      have e2 := h j2
      simp only [Memory.read_cons, if_true] at e1 e2
      have hj : j1 = j2 := by
        by_contra hne
        rw [if_neg hne] at e1
        rw [if_neg (fun hh => hne hh.symm)] at e2
        rcases Nat.lt_or_gt_of_ne hne with hlt | hgt
        · rw [Memory.read_below r2 j1 (Memory.all_mono r2 j1 j2 (by omega) ha2)] at e1
          exact hv1 e1
        · rw [Memory.read_below r1 j2 (Memory.all_mono r1 j2 j1 (by omega) ha1)] at e2
          exact hv2 e2.symm
      subst hj
      rw [if_pos rfl] at e1
      subst e1
      have : r1 = r2 := by
        refine ih r2 hw1 hw2 fun i => ?_
        have hi := h i
        simp only [Memory.read_cons] at hi
        by_cases hij : i = j1
        · subst hij
          rw [Memory.read_below r1 i ha1, Memory.read_below r2 i ha2]
        · rwa [if_neg hij, if_neg hij] at hi
      rw [this]

@[simp] theorem Memory.length_take (m : Memory width) (len : Nat) : (m.take len).length = len := by
  simp [Memory.take]

/-- Entry `i` of the first `len` entries. -/
theorem Memory.getD_take (m : Memory width) (len i : Nat) (h : i < len) : (m.take len).getD i 0 = m.read i := by
  simp [Memory.take, List.getD, h]

end Sys2Proof.Machine
end

