-- ==== Sys2Proof/Laws/State.lean ====
section
/-! SUPPORT. One lemma per field per update of State, true by rfl, so that no proof unfolds a record update. -/

namespace Sys2Proof.Machine

/-! ## raiseFault (R206) -/

@[simp] theorem raiseFault_pt (c : Cause) (info : Word) (s : State) : (raiseFault c info s).pt = s.pt := rfl
@[simp] theorem raiseFault_kb (c : Cause) (info : Word) (s : State) : (raiseFault c info s).kb = s.kb := rfl
@[simp] theorem raiseFault_w (c : Cause) (info : Word) (s : State) : (raiseFault c info s).w = s.w := rfl
@[simp] theorem raiseFault_k (c : Cause) (info : Word) (s : State) : (raiseFault c info s).k = s.k := rfl
@[simp] theorem raiseFault_ob (c : Cause) (info : Word) (s : State) : (raiseFault c info s).ob = s.ob := rfl
@[simp] theorem raiseFault_sy (c : Cause) (info : Word) (s : State) : (raiseFault c info s).sy = s.sy := rfl
@[simp] theorem raiseFault_status (c : Cause) (info : Word) (s : State) : (raiseFault c info s).status = flagsFaulted s.status := rfl
@[simp] theorem raiseFault_cause (c : Cause) (info : Word) (s : State) : (raiseFault c info s).cause = c := rfl
@[simp] theorem raiseFault_einfo (c : Cause) (info : Word) (s : State) : (raiseFault c info s).einfo = info := rfl
@[simp] theorem raiseFault_ptLen (c : Cause) (info : Word) (s : State) : (raiseFault c info s).ptLen = s.ptLen := rfl
@[simp] theorem raiseFault_kbLen (c : Cause) (info : Word) (s : State) : (raiseFault c info s).kbLen = s.kbLen := rfl
@[simp] theorem raiseFault_n (c : Cause) (info : Word) (s : State) : (raiseFault c info s).n = s.n := rfl
@[simp] theorem raiseFault_kn (c : Cause) (info : Word) (s : State) : (raiseFault c info s).kn = s.kn := rfl
@[simp] theorem raiseFault_obLen (c : Cause) (info : Word) (s : State) : (raiseFault c info s).obLen = s.obLen := rfl
@[simp] theorem raiseFault_syLen (c : Cause) (info : Word) (s : State) : (raiseFault c info s).syLen = s.syLen := rfl
@[simp] theorem raiseFault_cur (c : Cause) (info : Word) (s : State) : (raiseFault c info s).cur = s.cur := rfl
@[simp] theorem raiseFault_ph (c : Cause) (info : Word) (s : State) : (raiseFault c info s).ph = s.ph := rfl
@[simp] theorem raiseFault_chain (c : Cause) (info : Word) (s : State) : (raiseFault c info s).chain = s.chain := rfl
@[simp] theorem raiseFault_q (c : Cause) (info : Word) (s : State) : (raiseFault c info s).q = s.q := rfl
@[simp] theorem raiseFault_rnd (c : Cause) (info : Word) (s : State) : (raiseFault c info s).rnd = s.rnd := rfl
@[simp] theorem raiseFault_pos (c : Cause) (info : Word) (s : State) : (raiseFault c info s).pos = s.pos := rfl
@[simp] theorem raiseFault_sum (c : Cause) (info : Word) (s : State) : (raiseFault c info s).sum = s.sum := rfl
@[simp] theorem raiseFault_zreg (c : Cause) (info : Word) (s : State) : (raiseFault c info s).zreg = s.zreg := rfl
@[simp] theorem raiseFault_cfg (c : Cause) (info : Word) (s : State) : (raiseFault c info s).cfg = s.cfg := rfl
@[simp] theorem raiseFault_events (c : Cause) (info : Word) (s : State) : (raiseFault c info s).events = s.events := rfl
@[simp] theorem raiseFault_replies (c : Cause) (info : Word) (s : State) : (raiseFault c info s).replies = s.replies := rfl

/-! ## accept (R172) -/

@[simp] theorem accept_pt (v : Word) (first : Phase) (ch : Bool) (s : State) : (accept v first ch s).pt = s.pt := rfl
@[simp] theorem accept_kb (v : Word) (first : Phase) (ch : Bool) (s : State) : (accept v first ch s).kb = s.kb := rfl
@[simp] theorem accept_w (v : Word) (first : Phase) (ch : Bool) (s : State) : (accept v first ch s).w = s.w := rfl
@[simp] theorem accept_k (v : Word) (first : Phase) (ch : Bool) (s : State) : (accept v first ch s).k = s.k := rfl
@[simp] theorem accept_ob (v : Word) (first : Phase) (ch : Bool) (s : State) : (accept v first ch s).ob = s.ob := rfl
@[simp] theorem accept_sy (v : Word) (first : Phase) (ch : Bool) (s : State) : (accept v first ch s).sy = s.sy := rfl
@[simp] theorem accept_status (v : Word) (first : Phase) (ch : Bool) (s : State) : (accept v first ch s).status = flagsAccepted s.status := rfl
@[simp] theorem accept_cause (v : Word) (first : Phase) (ch : Bool) (s : State) : (accept v first ch s).cause = s.cause := rfl
@[simp] theorem accept_einfo (v : Word) (first : Phase) (ch : Bool) (s : State) : (accept v first ch s).einfo = s.einfo := rfl
@[simp] theorem accept_ptLen (v : Word) (first : Phase) (ch : Bool) (s : State) : (accept v first ch s).ptLen = s.ptLen := rfl
@[simp] theorem accept_kbLen (v : Word) (first : Phase) (ch : Bool) (s : State) : (accept v first ch s).kbLen = s.kbLen := rfl
@[simp] theorem accept_n (v : Word) (first : Phase) (ch : Bool) (s : State) : (accept v first ch s).n = s.n := rfl
@[simp] theorem accept_kn (v : Word) (first : Phase) (ch : Bool) (s : State) : (accept v first ch s).kn = s.kn := rfl
@[simp] theorem accept_obLen (v : Word) (first : Phase) (ch : Bool) (s : State) : (accept v first ch s).obLen = s.obLen := rfl
@[simp] theorem accept_syLen (v : Word) (first : Phase) (ch : Bool) (s : State) : (accept v first ch s).syLen = s.syLen := rfl
@[simp] theorem accept_cur (v : Word) (first : Phase) (ch : Bool) (s : State) : (accept v first ch s).cur = v := rfl
@[simp] theorem accept_ph (v : Word) (first : Phase) (ch : Bool) (s : State) : (accept v first ch s).ph = first := rfl
@[simp] theorem accept_chain (v : Word) (first : Phase) (ch : Bool) (s : State) : (accept v first ch s).chain = ch := rfl
@[simp] theorem accept_q (v : Word) (first : Phase) (ch : Bool) (s : State) : (accept v first ch s).q = s.q := rfl
@[simp] theorem accept_rnd (v : Word) (first : Phase) (ch : Bool) (s : State) : (accept v first ch s).rnd = s.rnd := rfl
@[simp] theorem accept_pos (v : Word) (first : Phase) (ch : Bool) (s : State) : (accept v first ch s).pos = s.pos := rfl
@[simp] theorem accept_sum (v : Word) (first : Phase) (ch : Bool) (s : State) : (accept v first ch s).sum = s.sum := rfl
@[simp] theorem accept_zreg (v : Word) (first : Phase) (ch : Bool) (s : State) : (accept v first ch s).zreg = s.zreg := rfl
@[simp] theorem accept_cfg (v : Word) (first : Phase) (ch : Bool) (s : State) : (accept v first ch s).cfg = s.cfg := rfl
@[simp] theorem accept_events (v : Word) (first : Phase) (ch : Bool) (s : State) : (accept v first ch s).events = s.events := rfl
@[simp] theorem accept_replies (v : Word) (first : Phase) (ch : Bool) (s : State) : (accept v first ch s).replies = s.replies := rfl

/-! ## complete (R176) -/

@[simp] theorem complete_pt (s : State) : (complete s).pt = s.pt := rfl
@[simp] theorem complete_kb (s : State) : (complete s).kb = s.kb := rfl
@[simp] theorem complete_w (s : State) : (complete s).w = s.w := rfl
@[simp] theorem complete_k (s : State) : (complete s).k = s.k := rfl
@[simp] theorem complete_ob (s : State) : (complete s).ob = s.ob := rfl
@[simp] theorem complete_sy (s : State) : (complete s).sy = s.sy := rfl
@[simp] theorem complete_status (s : State) : (complete s).status = flagsCompleted s.status := rfl
@[simp] theorem complete_cause (s : State) : (complete s).cause = s.cause := rfl
@[simp] theorem complete_einfo (s : State) : (complete s).einfo = s.einfo := rfl
@[simp] theorem complete_ptLen (s : State) : (complete s).ptLen = s.ptLen := rfl
@[simp] theorem complete_kbLen (s : State) : (complete s).kbLen = s.kbLen := rfl
@[simp] theorem complete_n (s : State) : (complete s).n = s.n := rfl
@[simp] theorem complete_kn (s : State) : (complete s).kn = s.kn := rfl
@[simp] theorem complete_obLen (s : State) : (complete s).obLen = s.obLen := rfl
@[simp] theorem complete_syLen (s : State) : (complete s).syLen = s.syLen := rfl
@[simp] theorem complete_cur (s : State) : (complete s).cur = s.cur := rfl
@[simp] theorem complete_ph (s : State) : (complete s).ph = .idle := rfl
@[simp] theorem complete_chain (s : State) : (complete s).chain = false := rfl
@[simp] theorem complete_q (s : State) : (complete s).q = s.q := rfl
@[simp] theorem complete_rnd (s : State) : (complete s).rnd = s.rnd := rfl
@[simp] theorem complete_pos (s : State) : (complete s).pos = s.pos := rfl
@[simp] theorem complete_sum (s : State) : (complete s).sum = s.sum := rfl
@[simp] theorem complete_zreg (s : State) : (complete s).zreg = s.zreg := rfl
@[simp] theorem complete_cfg (s : State) : (complete s).cfg = s.cfg := rfl
@[simp] theorem complete_events (s : State) : (complete s).events = s.events := rfl
@[simp] theorem complete_replies (s : State) : (complete s).replies = s.replies := rfl

/-! ## encodeShortCircuit (R141) -/

@[simp] theorem encodeShortCircuit_pt (s : State) : (encodeShortCircuit s).pt = s.pt := rfl
@[simp] theorem encodeShortCircuit_kb (s : State) : (encodeShortCircuit s).kb = s.kb := rfl
@[simp] theorem encodeShortCircuit_w (s : State) : (encodeShortCircuit s).w = s.w := rfl
@[simp] theorem encodeShortCircuit_k (s : State) : (encodeShortCircuit s).k = s.k := rfl
@[simp] theorem encodeShortCircuit_ob (s : State) : (encodeShortCircuit s).ob = s.ob := rfl
@[simp] theorem encodeShortCircuit_sy (s : State) : (encodeShortCircuit s).sy = s.sy := rfl
@[simp] theorem encodeShortCircuit_status (s : State) : (encodeShortCircuit s).status = flagsShortCircuit s.status := rfl
@[simp] theorem encodeShortCircuit_cause (s : State) : (encodeShortCircuit s).cause = s.cause := rfl
@[simp] theorem encodeShortCircuit_einfo (s : State) : (encodeShortCircuit s).einfo = s.einfo := rfl
@[simp] theorem encodeShortCircuit_ptLen (s : State) : (encodeShortCircuit s).ptLen = s.ptLen := rfl
@[simp] theorem encodeShortCircuit_kbLen (s : State) : (encodeShortCircuit s).kbLen = s.kbLen := rfl
@[simp] theorem encodeShortCircuit_n (s : State) : (encodeShortCircuit s).n = s.n := rfl
@[simp] theorem encodeShortCircuit_kn (s : State) : (encodeShortCircuit s).kn = s.kn := rfl
@[simp] theorem encodeShortCircuit_obLen (s : State) : (encodeShortCircuit s).obLen = 0 := rfl
@[simp] theorem encodeShortCircuit_syLen (s : State) : (encodeShortCircuit s).syLen = s.syLen := rfl
@[simp] theorem encodeShortCircuit_cur (s : State) : (encodeShortCircuit s).cur = encode .encode := rfl
@[simp] theorem encodeShortCircuit_ph (s : State) : (encodeShortCircuit s).ph = s.ph := rfl
@[simp] theorem encodeShortCircuit_chain (s : State) : (encodeShortCircuit s).chain = s.chain := rfl
@[simp] theorem encodeShortCircuit_q (s : State) : (encodeShortCircuit s).q = s.q := rfl
@[simp] theorem encodeShortCircuit_rnd (s : State) : (encodeShortCircuit s).rnd = s.rnd := rfl
@[simp] theorem encodeShortCircuit_pos (s : State) : (encodeShortCircuit s).pos = s.pos := rfl
@[simp] theorem encodeShortCircuit_sum (s : State) : (encodeShortCircuit s).sum = s.sum := rfl
@[simp] theorem encodeShortCircuit_zreg (s : State) : (encodeShortCircuit s).zreg = s.zreg := rfl
@[simp] theorem encodeShortCircuit_cfg (s : State) : (encodeShortCircuit s).cfg = s.cfg := rfl
@[simp] theorem encodeShortCircuit_events (s : State) : (encodeShortCircuit s).events = s.events := rfl
@[simp] theorem encodeShortCircuit_replies (s : State) : (encodeShortCircuit s).replies = s.replies := rfl

/-! ## softReset (R178) -/

@[simp] theorem softReset_pt (s : State) : (softReset s).pt = [] := rfl
@[simp] theorem softReset_kb (s : State) : (softReset s).kb = [] := rfl
@[simp] theorem softReset_w (s : State) : (softReset s).w = [] := rfl
@[simp] theorem softReset_k (s : State) : (softReset s).k = [] := rfl
@[simp] theorem softReset_ob (s : State) : (softReset s).ob = [] := rfl
@[simp] theorem softReset_sy (s : State) : (softReset s).sy = [] := rfl
@[simp] theorem softReset_status (s : State) : (softReset s).status = .clear := rfl
@[simp] theorem softReset_cause (s : State) : (softReset s).cause = .none := rfl
@[simp] theorem softReset_einfo (s : State) : (softReset s).einfo = 0 := rfl
@[simp] theorem softReset_ptLen (s : State) : (softReset s).ptLen = 0 := rfl
@[simp] theorem softReset_kbLen (s : State) : (softReset s).kbLen = 0 := rfl
@[simp] theorem softReset_n (s : State) : (softReset s).n = 0 := rfl
@[simp] theorem softReset_kn (s : State) : (softReset s).kn = 0 := rfl
@[simp] theorem softReset_obLen (s : State) : (softReset s).obLen = 0 := rfl
@[simp] theorem softReset_syLen (s : State) : (softReset s).syLen = 0 := rfl
@[simp] theorem softReset_cur (s : State) : (softReset s).cur = 0 := rfl
@[simp] theorem softReset_ph (s : State) : (softReset s).ph = .idle := rfl
@[simp] theorem softReset_chain (s : State) : (softReset s).chain = false := rfl
@[simp] theorem softReset_q (s : State) : (softReset s).q = 0 := rfl
@[simp] theorem softReset_rnd (s : State) : (softReset s).rnd = 0 := rfl
@[simp] theorem softReset_pos (s : State) : (softReset s).pos = 0 := rfl
@[simp] theorem softReset_sum (s : State) : (softReset s).sum = 0 := rfl
@[simp] theorem softReset_zreg (s : State) : (softReset s).zreg = 0 := rfl
@[simp] theorem softReset_cfg (s : State) : (softReset s).cfg = s.cfg := rfl
@[simp] theorem softReset_events (s : State) : (softReset s).events = s.events := rfl
@[simp] theorem softReset_replies (s : State) : (softReset s).replies = s.replies := rfl

/-! ## resetWith (R38) -/

@[simp] theorem resetWith_pt (c : Config) : (State.resetWith c).pt = [] := rfl
@[simp] theorem resetWith_kb (c : Config) : (State.resetWith c).kb = [] := rfl
@[simp] theorem resetWith_w (c : Config) : (State.resetWith c).w = [] := rfl
@[simp] theorem resetWith_k (c : Config) : (State.resetWith c).k = [] := rfl
@[simp] theorem resetWith_ob (c : Config) : (State.resetWith c).ob = [] := rfl
@[simp] theorem resetWith_sy (c : Config) : (State.resetWith c).sy = [] := rfl
@[simp] theorem resetWith_status (c : Config) : (State.resetWith c).status = .clear := rfl
@[simp] theorem resetWith_cause (c : Config) : (State.resetWith c).cause = .none := rfl
@[simp] theorem resetWith_einfo (c : Config) : (State.resetWith c).einfo = 0 := rfl
@[simp] theorem resetWith_ptLen (c : Config) : (State.resetWith c).ptLen = 0 := rfl
@[simp] theorem resetWith_kbLen (c : Config) : (State.resetWith c).kbLen = 0 := rfl
@[simp] theorem resetWith_n (c : Config) : (State.resetWith c).n = 0 := rfl
@[simp] theorem resetWith_kn (c : Config) : (State.resetWith c).kn = 0 := rfl
@[simp] theorem resetWith_obLen (c : Config) : (State.resetWith c).obLen = 0 := rfl
@[simp] theorem resetWith_syLen (c : Config) : (State.resetWith c).syLen = 0 := rfl
@[simp] theorem resetWith_cur (c : Config) : (State.resetWith c).cur = 0 := rfl
@[simp] theorem resetWith_ph (c : Config) : (State.resetWith c).ph = .idle := rfl
@[simp] theorem resetWith_chain (c : Config) : (State.resetWith c).chain = false := rfl
@[simp] theorem resetWith_q (c : Config) : (State.resetWith c).q = 0 := rfl
@[simp] theorem resetWith_rnd (c : Config) : (State.resetWith c).rnd = 0 := rfl
@[simp] theorem resetWith_pos (c : Config) : (State.resetWith c).pos = 0 := rfl
@[simp] theorem resetWith_sum (c : Config) : (State.resetWith c).sum = 0 := rfl
@[simp] theorem resetWith_zreg (c : Config) : (State.resetWith c).zreg = 0 := rfl
@[simp] theorem resetWith_cfg (c : Config) : (State.resetWith c).cfg = c := rfl
@[simp] theorem resetWith_events (c : Config) : (State.resetWith c).events = [] := rfl
@[simp] theorem resetWith_replies (c : Config) : (State.resetWith c).replies = [] := rfl

/-! ## State.reply (R54) -/

@[simp] theorem reply_pt (s : State) (v : Word) : (s.reply v).pt = s.pt := rfl
@[simp] theorem reply_kb (s : State) (v : Word) : (s.reply v).kb = s.kb := rfl
@[simp] theorem reply_w (s : State) (v : Word) : (s.reply v).w = s.w := rfl
@[simp] theorem reply_k (s : State) (v : Word) : (s.reply v).k = s.k := rfl
@[simp] theorem reply_ob (s : State) (v : Word) : (s.reply v).ob = s.ob := rfl
@[simp] theorem reply_sy (s : State) (v : Word) : (s.reply v).sy = s.sy := rfl
@[simp] theorem reply_status (s : State) (v : Word) : (s.reply v).status = s.status := rfl
@[simp] theorem reply_cause (s : State) (v : Word) : (s.reply v).cause = s.cause := rfl
@[simp] theorem reply_einfo (s : State) (v : Word) : (s.reply v).einfo = s.einfo := rfl
@[simp] theorem reply_ptLen (s : State) (v : Word) : (s.reply v).ptLen = s.ptLen := rfl
@[simp] theorem reply_kbLen (s : State) (v : Word) : (s.reply v).kbLen = s.kbLen := rfl
@[simp] theorem reply_n (s : State) (v : Word) : (s.reply v).n = s.n := rfl
@[simp] theorem reply_kn (s : State) (v : Word) : (s.reply v).kn = s.kn := rfl
@[simp] theorem reply_obLen (s : State) (v : Word) : (s.reply v).obLen = s.obLen := rfl
@[simp] theorem reply_syLen (s : State) (v : Word) : (s.reply v).syLen = s.syLen := rfl
@[simp] theorem reply_cur (s : State) (v : Word) : (s.reply v).cur = s.cur := rfl
@[simp] theorem reply_ph (s : State) (v : Word) : (s.reply v).ph = s.ph := rfl
@[simp] theorem reply_chain (s : State) (v : Word) : (s.reply v).chain = s.chain := rfl
@[simp] theorem reply_q (s : State) (v : Word) : (s.reply v).q = s.q := rfl
@[simp] theorem reply_rnd (s : State) (v : Word) : (s.reply v).rnd = s.rnd := rfl
@[simp] theorem reply_pos (s : State) (v : Word) : (s.reply v).pos = s.pos := rfl
@[simp] theorem reply_sum (s : State) (v : Word) : (s.reply v).sum = s.sum := rfl
@[simp] theorem reply_zreg (s : State) (v : Word) : (s.reply v).zreg = s.zreg := rfl
@[simp] theorem reply_cfg (s : State) (v : Word) : (s.reply v).cfg = s.cfg := rfl
@[simp] theorem reply_events (s : State) (v : Word) : (s.reply v).events = s.events := rfl
@[simp] theorem reply_replies (s : State) (v : Word) : (s.reply v).replies = s.replies ++ [v] := rfl
@[simp] theorem reply_block (s : State) (v : Word) : (s.reply v).block = s.block := rfl

/-! ## State.block -/

@[simp] theorem block_pt (s : State) : s.block.pt = s.pt := rfl
@[simp] theorem block_kb (s : State) : s.block.kb = s.kb := rfl
@[simp] theorem block_w (s : State) : s.block.w = s.w := rfl
@[simp] theorem block_k (s : State) : s.block.k = s.k := rfl
@[simp] theorem block_ob (s : State) : s.block.ob = s.ob := rfl
@[simp] theorem block_sy (s : State) : s.block.sy = s.sy := rfl
@[simp] theorem block_status (s : State) : s.block.status = s.status := rfl
@[simp] theorem block_cause (s : State) : s.block.cause = s.cause := rfl
@[simp] theorem block_einfo (s : State) : s.block.einfo = s.einfo := rfl
@[simp] theorem block_ptLen (s : State) : s.block.ptLen = s.ptLen := rfl
@[simp] theorem block_kbLen (s : State) : s.block.kbLen = s.kbLen := rfl
@[simp] theorem block_n (s : State) : s.block.n = s.n := rfl
@[simp] theorem block_kn (s : State) : s.block.kn = s.kn := rfl
@[simp] theorem block_obLen (s : State) : s.block.obLen = s.obLen := rfl
@[simp] theorem block_syLen (s : State) : s.block.syLen = s.syLen := rfl
@[simp] theorem block_cur (s : State) : s.block.cur = s.cur := rfl
@[simp] theorem block_ph (s : State) : s.block.ph = s.ph := rfl
@[simp] theorem block_chain (s : State) : s.block.chain = s.chain := rfl
@[simp] theorem block_q (s : State) : s.block.q = s.q := rfl
@[simp] theorem block_rnd (s : State) : s.block.rnd = s.rnd := rfl
@[simp] theorem block_pos (s : State) : s.block.pos = s.pos := rfl
@[simp] theorem block_sum (s : State) : s.block.sum = s.sum := rfl
@[simp] theorem block_zreg (s : State) : s.block.zreg = s.zreg := rfl
@[simp] theorem block_cfg (s : State) : s.block.cfg = s.cfg := rfl
@[simp] theorem block_events (s : State) : s.block.events = [] := rfl
@[simp] theorem block_replies (s : State) : s.block.replies = [] := rfl

/-! ## State.withEvents -/

@[simp] theorem withEvents_pt (s : State) (es : List Event) : (s.withEvents es).pt = s.pt := rfl
@[simp] theorem withEvents_kb (s : State) (es : List Event) : (s.withEvents es).kb = s.kb := rfl
@[simp] theorem withEvents_w (s : State) (es : List Event) : (s.withEvents es).w = s.w := rfl
@[simp] theorem withEvents_k (s : State) (es : List Event) : (s.withEvents es).k = s.k := rfl
@[simp] theorem withEvents_ob (s : State) (es : List Event) : (s.withEvents es).ob = s.ob := rfl
@[simp] theorem withEvents_sy (s : State) (es : List Event) : (s.withEvents es).sy = s.sy := rfl
@[simp] theorem withEvents_status (s : State) (es : List Event) : (s.withEvents es).status = s.status := rfl
@[simp] theorem withEvents_cause (s : State) (es : List Event) : (s.withEvents es).cause = s.cause := rfl
@[simp] theorem withEvents_einfo (s : State) (es : List Event) : (s.withEvents es).einfo = s.einfo := rfl
@[simp] theorem withEvents_ptLen (s : State) (es : List Event) : (s.withEvents es).ptLen = s.ptLen := rfl
@[simp] theorem withEvents_kbLen (s : State) (es : List Event) : (s.withEvents es).kbLen = s.kbLen := rfl
@[simp] theorem withEvents_n (s : State) (es : List Event) : (s.withEvents es).n = s.n := rfl
@[simp] theorem withEvents_kn (s : State) (es : List Event) : (s.withEvents es).kn = s.kn := rfl
@[simp] theorem withEvents_obLen (s : State) (es : List Event) : (s.withEvents es).obLen = s.obLen := rfl
@[simp] theorem withEvents_syLen (s : State) (es : List Event) : (s.withEvents es).syLen = s.syLen := rfl
@[simp] theorem withEvents_cur (s : State) (es : List Event) : (s.withEvents es).cur = s.cur := rfl
@[simp] theorem withEvents_ph (s : State) (es : List Event) : (s.withEvents es).ph = s.ph := rfl
@[simp] theorem withEvents_chain (s : State) (es : List Event) : (s.withEvents es).chain = s.chain := rfl
@[simp] theorem withEvents_q (s : State) (es : List Event) : (s.withEvents es).q = s.q := rfl
@[simp] theorem withEvents_rnd (s : State) (es : List Event) : (s.withEvents es).rnd = s.rnd := rfl
@[simp] theorem withEvents_pos (s : State) (es : List Event) : (s.withEvents es).pos = s.pos := rfl
@[simp] theorem withEvents_sum (s : State) (es : List Event) : (s.withEvents es).sum = s.sum := rfl
@[simp] theorem withEvents_zreg (s : State) (es : List Event) : (s.withEvents es).zreg = s.zreg := rfl
@[simp] theorem withEvents_cfg (s : State) (es : List Event) : (s.withEvents es).cfg = s.cfg := rfl
@[simp] theorem withEvents_events (s : State) (es : List Event) : (s.withEvents es).events = es := rfl
@[simp] theorem withEvents_replies (s : State) (es : List Event) : (s.withEvents es).replies = s.replies := rfl
@[simp] theorem withEvents_block (s : State) (es : List Event) : (s.withEvents es).block = s.block := rfl
@[simp] theorem withEvents_self (s : State) : s.withEvents s.events = s := rfl
@[simp] theorem withEvents_withEvents (s : State) (es fs : List Event) : (s.withEvents es).withEvents fs = s.withEvents fs := rfl

/-! ## State.withFetchWord -/

@[simp] theorem withFetchWord_pt (s : State) (nbits : Nat) (v : Nat) : (s.withFetchWord nbits v).pt = s.pt := rfl
@[simp] theorem withFetchWord_kb (s : State) (nbits : Nat) (v : Nat) : (s.withFetchWord nbits v).kb = s.kb := rfl
@[simp] theorem withFetchWord_w (s : State) (nbits : Nat) (v : Nat) : (s.withFetchWord nbits v).w = s.w := rfl
@[simp] theorem withFetchWord_k (s : State) (nbits : Nat) (v : Nat) : (s.withFetchWord nbits v).k = s.k := rfl
@[simp] theorem withFetchWord_ob (s : State) (nbits : Nat) (v : Nat) : (s.withFetchWord nbits v).ob = s.ob := rfl
@[simp] theorem withFetchWord_sy (s : State) (nbits : Nat) (v : Nat) : (s.withFetchWord nbits v).sy = s.sy := rfl
@[simp] theorem withFetchWord_status (s : State) (nbits : Nat) (v : Nat) : (s.withFetchWord nbits v).status = s.status := rfl
@[simp] theorem withFetchWord_cause (s : State) (nbits : Nat) (v : Nat) : (s.withFetchWord nbits v).cause = s.cause := rfl
@[simp] theorem withFetchWord_einfo (s : State) (nbits : Nat) (v : Nat) : (s.withFetchWord nbits v).einfo = s.einfo := rfl
@[simp] theorem withFetchWord_ptLen (s : State) (nbits : Nat) (v : Nat) : (s.withFetchWord nbits v).ptLen = s.ptLen := rfl
@[simp] theorem withFetchWord_kbLen (s : State) (nbits : Nat) (v : Nat) : (s.withFetchWord nbits v).kbLen = s.kbLen := rfl
@[simp] theorem withFetchWord_n (s : State) (nbits : Nat) (v : Nat) : (s.withFetchWord nbits v).n = s.n := rfl
@[simp] theorem withFetchWord_kn (s : State) (nbits : Nat) (v : Nat) : (s.withFetchWord nbits v).kn = s.kn := rfl
@[simp] theorem withFetchWord_obLen (s : State) (nbits : Nat) (v : Nat) : (s.withFetchWord nbits v).obLen = s.obLen := rfl
@[simp] theorem withFetchWord_syLen (s : State) (nbits : Nat) (v : Nat) : (s.withFetchWord nbits v).syLen = s.syLen := rfl
@[simp] theorem withFetchWord_cur (s : State) (nbits : Nat) (v : Nat) : (s.withFetchWord nbits v).cur = s.cur := rfl
@[simp] theorem withFetchWord_ph (s : State) (nbits : Nat) (v : Nat) : (s.withFetchWord nbits v).ph = s.ph := rfl
@[simp] theorem withFetchWord_chain (s : State) (nbits : Nat) (v : Nat) : (s.withFetchWord nbits v).chain = s.chain := rfl
@[simp] theorem withFetchWord_q (s : State) (nbits : Nat) (v : Nat) : (s.withFetchWord nbits v).q = s.q := rfl
@[simp] theorem withFetchWord_rnd (s : State) (nbits : Nat) (v : Nat) : (s.withFetchWord nbits v).rnd = s.rnd := rfl
@[simp] theorem withFetchWord_pos (s : State) (nbits : Nat) (v : Nat) : (s.withFetchWord nbits v).pos = s.pos := rfl
@[simp] theorem withFetchWord_sum (s : State) (nbits : Nat) (v : Nat) : (s.withFetchWord nbits v).sum = s.sum := rfl
@[simp] theorem withFetchWord_zreg (s : State) (nbits : Nat) (v : Nat) : (s.withFetchWord nbits v).zreg = s.zreg := rfl
@[simp] theorem withFetchWord_cfg (s : State) (nbits : Nat) (v : Nat) : (s.withFetchWord nbits v).cfg = s.cfg := rfl
@[simp] theorem withFetchWord_events (s : State) (nbits : Nat) (v : Nat) : (s.withFetchWord nbits v).events = .command (tableWord nbits v) :: s.events := rfl
@[simp] theorem withFetchWord_replies (s : State) (nbits : Nat) (v : Nat) : (s.withFetchWord nbits v).replies = s.replies := rfl

/-! ## flagsAccepted -/

@[simp] theorem flagsAccepted_busy (f : Status) : (flagsAccepted f).busy = true := rfl
@[simp] theorem flagsAccepted_done (f : Status) : (flagsAccepted f).done = false := rfl
@[simp] theorem flagsAccepted_err (f : Status) : (flagsAccepted f).err = f.err := rfl
@[simp] theorem flagsAccepted_rej (f : Status) : (flagsAccepted f).rej = false := rfl
@[simp] theorem flagsAccepted_empty (f : Status) : (flagsAccepted f).empty = false := rfl

/-! ## flagsCompleted -/

@[simp] theorem flagsCompleted_busy (f : Status) : (flagsCompleted f).busy = false := rfl
@[simp] theorem flagsCompleted_done (f : Status) : (flagsCompleted f).done = true := rfl
@[simp] theorem flagsCompleted_err (f : Status) : (flagsCompleted f).err = f.err := rfl
@[simp] theorem flagsCompleted_rej (f : Status) : (flagsCompleted f).rej = f.rej := rfl
@[simp] theorem flagsCompleted_empty (f : Status) : (flagsCompleted f).empty = f.empty := rfl

/-! ## flagsShortCircuit -/

@[simp] theorem flagsShortCircuit_busy (f : Status) : (flagsShortCircuit f).busy = f.busy := rfl
@[simp] theorem flagsShortCircuit_done (f : Status) : (flagsShortCircuit f).done = true := rfl
@[simp] theorem flagsShortCircuit_err (f : Status) : (flagsShortCircuit f).err = f.err := rfl
@[simp] theorem flagsShortCircuit_rej (f : Status) : (flagsShortCircuit f).rej = false := rfl
@[simp] theorem flagsShortCircuit_empty (f : Status) : (flagsShortCircuit f).empty = true := rfl

/-! ## flagsFaulted -/

@[simp] theorem flagsFaulted_busy (f : Status) : (flagsFaulted f).busy = f.busy := rfl
@[simp] theorem flagsFaulted_done (f : Status) : (flagsFaulted f).done = f.done := rfl
@[simp] theorem flagsFaulted_err (f : Status) : (flagsFaulted f).err = true := rfl
@[simp] theorem flagsFaulted_rej (f : Status) : (flagsFaulted f).rej = f.rej := rfl
@[simp] theorem flagsFaulted_empty (f : Status) : (flagsFaulted f).empty = f.empty := rfl

@[simp] theorem Status.clear_busy : Status.clear.busy = false := rfl
@[simp] theorem Status.clear_done : Status.clear.done = false := rfl
@[simp] theorem Status.clear_err : Status.clear.err = false := rfl
@[simp] theorem Status.clear_rej : Status.clear.rej = false := rfl
@[simp] theorem Status.clear_empty : Status.clear.empty = false := rfl

end Sys2Proof.Machine
end

