-- ==== Sys2Proof/Laws/Ops.lean ====
section
/-! SUPPORT. The laws of the shared operations: sequencing, acceptance, the phase advance, and for each phase step the
one lemma that says when it answers a next state and which. -/

namespace Sys2Proof.Machine

/-! ## Sequencing -/

@[simp] theorem andThen_next (s : State) (f : State → Outcome) : andThen (.next s) f = f s := rfl
@[simp] theorem andThen_fault (r : Fault) (f : State → Outcome) : andThen (.fault r) f = .fault r := rfl
@[simp] theorem andThen_refused (r : Refusal) (f : State → Outcome) : andThen (.refused r) f = .refused r := rfl
@[simp] theorem repeatStep_zero (f : State → Outcome) (s : State) : repeatStep f 0 s = .next s := rfl

theorem repeatStep_succ (f : State → Outcome) (k : Nat) (s : State) :
    repeatStep f (k + 1) s = andThen (f s) (repeatStep f k) := rfl

theorem andThen_assoc (o : Outcome) (f g : State → Outcome) :
    andThen (andThen o f) g = andThen o fun s => andThen (f s) g := by cases o <;> rfl

/-- What a sequence that answers a next state has gone through. -/
theorem andThen_eq_next {o : Outcome} {f : State → Outcome} {t : State} (h : andThen o f = .next t) :
    ∃ u, o = .next u ∧ f u = .next t := by
  cases o with
  | next u => exact ⟨u, rfl, h⟩
  | fault r => cases h
  | refused r => cases h

theorem repeatStep_add (f : State → Outcome) (a b : Nat) (s : State) :
    repeatStep f (a + b) s = andThen (repeatStep f a s) (repeatStep f b) := by
  induction a generalizing s with
  | zero => simp
  | succ a ih =>
    rw [show a + 1 + b = (a + b) + 1 by omega, repeatStep_succ, repeatStep_succ, andThen_assoc]
    congr 1
    funext u
    exact ih u

theorem repeatStep_one (f : State → Outcome) (s : State) : repeatStep f 1 s = f s := by
  rw [repeatStep_succ]
  cases f s <;> rfl

/-- A step that keeps a property, repeated, keeps it. -/
theorem repeatStep_keeps {f : State → Outcome} {P : State → Prop} (hf : ∀ s t, P s → f s = .next t → P t)
    (k : Nat) (s t : State) (hs : P s) (h : repeatStep f k s = .next t) : P t := by
  induction k generalizing s with
  | zero => cases h; exact hs
  | succ k ih =>
    obtain ⟨u, hu, ht⟩ := andThen_eq_next h
    exact ih u (hf s u hs hu) ht

/-! ## The gates of a meaning -/

theorem unlessDropped_ready (s : State) (h : s.ready) (f : State → Outcome) : unlessDropped s f = f s := by
  simp [unlessDropped, h.1, h.2]

theorem unlessDropped_busy (s : State) (h : s.status.busy = true) (f : State → Outcome) :
    unlessDropped s f = .next s := by simp [unlessDropped, h]

theorem unlessDropped_err (s : State) (h : s.status.err = true) (f : State → Outcome) :
    unlessDropped s f = .next s := by simp [unlessDropped, h]

theorem ifAccepted_busy (s : State) (h : s.status.busy = true) (f : State → Outcome) : ifAccepted s f = f s := by
  simp [ifAccepted, h]

theorem ifAccepted_idle (s : State) (h : s.status.busy = false) (f : State → Outcome) :
    ifAccepted s f = .next s := by simp [ifAccepted, h]

@[simp] theorem ifAccepted_accept (v : Word) (ph : Phase) (ch : Bool) (s : State) (f : State → Outcome) :
    ifAccepted (accept v ph ch s) f = f (accept v ph ch s) := ifAccepted_busy _ rfl f

theorem ifAccepted_raiseFault (c : Cause) (info : Word) (s : State) (h : s.status.busy = false)
    (f : State → Outcome) : ifAccepted (raiseFault c info s) f = .next (raiseFault c info s) :=
  ifAccepted_idle (raiseFault c info s) h f

/-! ## Acceptance -/

theorem acceptIf_passes (cs : List Check) (v : Word) (ph : Phase) (ch : Bool) (s : State)
    (h : ∀ c ∈ cs, c.fails = false) : acceptIf cs v ph ch s = accept v ph ch s := by
  have : firstFailing cs = none := by
    simpa [firstFailing, List.find?_eq_none] using h
  simp [acceptIf, this]

/-- Acceptance does one of two things: no check fails and the command is accepted, or one is raised. -/
theorem acceptIf_cases (cs : List Check) (v : Word) (ph : Phase) (ch : Bool) (s : State) :
    ((∀ c ∈ cs, c.fails = false) ∧ acceptIf cs v ph ch s = accept v ph ch s) ∨
    (∃ c ∈ cs, c.fails = true ∧ acceptIf cs v ph ch s = raiseFault c.cause c.info s) := by
  cases h : firstFailing cs with
  | none =>
    have hall : ∀ c ∈ cs, c.fails = false := by simpa [firstFailing, List.find?_eq_none] using h
    exact .inl ⟨hall, acceptIf_passes cs v ph ch s hall⟩
  | some c =>
    exact .inr ⟨c, List.mem_of_find?_eq_some h, List.find?_some h, by simp [acceptIf, h]⟩

theorem lengthCheck_passes {r : Word} {cap : Nat} (h : r.toNat ≤ cap) : (lengthCheck r cap).fails = false := by
  simp [lengthCheck, h]

theorem lengthCheck_fails {r : Word} {cap : Nat} (h : cap < r.toNat) : (lengthCheck r cap).fails = true := by
  simp [lengthCheck, h]

/-! ## The phase advance -/

/-- Where the chain goes on: the phase after one that ENCODE hands over. -/
theorem advance_next {s t : State} (h : advance s = .next t) :
    t = complete s ∨ (s.chain = true ∧
      ((s.ph = .packm ∧ t = { s with ph := .packk }) ∨ (s.ph = .packk ∧ t = { s with ph := .mixi }) ∨
       (s.ph = .mixr ∧ t = { s with ph := .unpack }))) := by
  unfold advance at h
  split at h
  · cases h; exact .inl rfl
  · next hc =>
    have hc' : s.chain = true := by simpa using hc
    split at h <;> first | (cases h; simp_all) | cases h

theorem advance_single (s : State) (h : s.chain = false) : advance s = .next (complete s) := by
  simp [advance, h]

/-! ## The phase steps -/

theorem phasePackm_eq (s : State) (h : s.ptLen.toNat ≤ s.cfg.ptMax) :
    phasePackm s = advance { s with
      w := s.w.writeAll 0 (pack s.pt s.ptLen.toNat (tEff s)),
      n := BitVec.ofNat 32 (pack s.pt s.ptLen.toNat (tEff s)).length } := by
  simp [phasePackm, h]

theorem phasePackk_eq (s : State) (h : s.kbLen.toNat ≤ s.cfg.kbMax) :
    phasePackk s = advance { s with
      k := s.k.writeAll 0 (pack s.kb s.kbLen.toNat (tEff s)),
      kn := BitVec.ofNat 32 (pack s.kb s.kbLen.toNat (tEff s)).length } := by
  simp [phasePackk, h]

/-- The length and the flag that UNPACK leaves (R95). -/
def unpackResult (s : State) : Word × Bool :=
  if tEff s = false then (4 * s.n, false)
  else if rejects (s.w.read (s.n.toNat - 1)) s.n.toNat then (0, true)
  else (s.w.read (s.n.toNat - 1), false)

theorem phaseUnpack_eq (s : State) (h1 : 1 ≤ s.n.toNat) (h2 : s.n.toNat ≤ nMax s.cfg) :
    phaseUnpack s = advance { s with
      ob := s.ob.writeAll 0 (bytesOf s.w s.n.toNat),
      obLen := (unpackResult s).1, status := { s.status with rej := (unpackResult s).2 } } := by
  simp only [phaseUnpack, h1, h2, and_self, if_true, unpackResult]
  split
  · rfl
  · split <;> rfl

/-- What phase 6 reads. -/
def b64Source (s : State) : Memory 8 × Nat :=
  if sEff s then (s.pt, s.ptLen.toNat) else (s.ob, s.obLen.toNat)

theorem phaseB64_eq (s : State) (h : (b64Source s).2 ≤ if sEff s then s.cfg.ptMax else obMax s.cfg) :
    phaseB64 s = advance { s with
      sy := s.sy.writeAll 0 (b64 s.cfg (b64Source s).1 (b64Source s).2),
      syLen := BitVec.ofNat 32 (b64 s.cfg (b64Source s).1 (b64Source s).2).length } := by
  unfold phaseB64 b64Source at *
  split <;> simp_all

theorem phaseMixi_eq (s : State) (h : mixable s = true) :
    phaseMixi s = .next { s with
      q := BitVec.ofNat 32 (roundCount s.n.toNat), sum := 0, zreg := s.w.read (s.n.toNat - 1), rnd := 0, pos := 0,
      ph := .mixr } := by
  simp [phaseMixi, h]

/-- The word that a position step writes, and the accumulator it uses. -/
def mixWord (s : State) : Word :=
  s.w.read s.pos.toNat + mx s.cfg s.zreg (s.w.read (successor s.n.toNat s.pos.toNat)) (sumUsed s.cfg s.pos s.sum)
    (s.k.read (keyIndex s.pos (sumUsed s.cfg s.pos s.sum)))

theorem phaseMixr_eq (s : State) (h : mixable s = true) (hp : s.pos.toNat < s.n.toNat) :
    phaseMixr s = mixAdvance { s with
      w := s.w.write s.pos.toNat (mixWord s), zreg := mixWord s,
      sum := sumLeft s.cfg s.n s.pos (sumUsed s.cfg s.pos s.sum) } := by
  simp [phaseMixr, h, hp, mixWord]

/-- The three ways a position step goes on (R117). -/
theorem mixAdvance_next {s t : State} (h : mixAdvance s = .next t) :
    (s.pos.toNat < s.n.toNat - 1 ∧ t = { s with pos := s.pos + 1 }) ∨
    (¬ s.pos.toNat < s.n.toNat - 1 ∧ s.rnd + 1 ≠ s.q ∧ t = { s with pos := 0, rnd := s.rnd + 1 }) ∨
    (¬ s.pos.toNat < s.n.toNat - 1 ∧ s.rnd + 1 = s.q ∧
      advance { s with pos := 0, rnd := s.rnd + 1 } = .next t) := by
  unfold mixAdvance at h
  split at h
  · next hp => cases h; exact .inl ⟨hp, rfl⟩
  · next hp =>
    dsimp only at h
    split at h
    · next hq => exact .inr (.inr ⟨hp, hq, h⟩)
    · next hq => cases h; exact .inr (.inl ⟨hp, hq, rfl⟩)

/-- Outside its ranges a phase step is a fault, so a next state means that the ranges held. -/
theorem phase_ranges {s t : State} :
    (phasePackm s = .next t → s.ptLen.toNat ≤ s.cfg.ptMax) ∧
    (phasePackk s = .next t → s.kbLen.toNat ≤ s.cfg.kbMax) ∧
    (phaseMixi s = .next t → mixable s = true) ∧
    (phaseMixr s = .next t → mixable s = true ∧ s.pos.toNat < s.n.toNat) ∧
    (phaseUnpack s = .next t → 1 ≤ s.n.toNat ∧ s.n.toNat ≤ nMax s.cfg) ∧
    (phaseB64 s = .next t → (b64Source s).2 ≤ if sEff s then s.cfg.ptMax else obMax s.cfg) := by
  refine ⟨?_, ?_, ?_, ?_, ?_, ?_⟩ <;> intro h
  · by_contra hc; simp [phasePackm, hc] at h
  · by_contra hc; simp [phasePackk, hc] at h
  · by_contra hc; simp [phaseMixi, hc] at h
  · by_contra hc
    unfold phaseMixr at h
    rw [if_neg (by simpa using hc)] at h
    cases h
  · by_contra hc; simp [phaseUnpack, hc] at h
  · by_contra hc
    unfold phaseB64 b64Source at *
    split at hc <;> simp_all

end Sys2Proof.Machine
end

