-- ==== Sys2Proof/Laws/Control.lean ====
section
/-! SUPPORT. The laws of the control layer: the ways a command write can end, and what no engine step changes. -/

namespace Sys2Proof.Machine

/-! ## The command write (R170) -/

theorem writeCommand_busy (v : Word) (s : State) (h : s.status.busy = true) : writeCommand v s = s := by
  simp [writeCommand, h]

theorem writeCommand_err (v : Word) (s : State) (hb : s.status.busy = false) (h : s.status.err = true) :
    writeCommand v s = if v = 0x0000000F then softReset s else s := by
  simp [writeCommand, h, hb]

theorem writeCommand_illegal (v : Word) (s : State) (hs : s.ready) {r : Illegal} (h : decode v = .error r) :
    writeCommand v s = raiseFault .illegalCmd v s := by
  simp [writeCommand, hs.1, hs.2, h]

theorem writeCommand_legal (v : Word) (s : State) (hs : s.ready) {i : Instr} (h : decode v = .ok i) :
    writeCommand v s = issue i s := by
  simp [writeCommand, hs.1, hs.2, h]

theorem writeCommand_encode (i : Instr) (s : State) (hs : s.ready) : writeCommand (encode i) s = issue i s :=
  writeCommand_legal _ s hs (decode_own_word i)

/-- The ways the issue of an instruction can end: accepted with its own word in CUR, faulted, short-circuited, reset. -/
inductive Issued (i : Instr) (s t : State) : Prop where
  | accepted (ph : Phase) (ch : Bool) (hph : ph ≠ .idle) (h : t = accept (encode i) ph ch s)
  | faulted (c : Cause) (info : Word) (hc : c ≠ .none) (h : t = raiseFault c info s)
  | shortCircuit (hi : i = .encode) (h0 : s.ptLen = 0) (h : t = encodeShortCircuit s)
  | reset (hi : i = .sreset) (h : t = softReset s)

theorem issued_acceptIf (i : Instr) (s : State) (cs : List Check) (ph : Phase) (ch : Bool) (hph : ph ≠ .idle)
    (hc : ∀ c ∈ cs, c.cause ≠ .none) : Issued i s (acceptIf cs (encode i) ph ch s) := by
  rcases acceptIf_cases cs (encode i) ph ch s with ⟨-, h⟩ | ⟨c, hm, -, h⟩
  · exact .accepted ph ch hph h
  · exact .faulted c.cause c.info (hc c hm) h

theorem issue_issued (i : Instr) (s : State) : Issued i s (issue i s) := by
  cases i with
  | packm t => exact issued_acceptIf _ s _ _ _ (by simp) (by simp [lengthCheck])
  | packk t => exact issued_acceptIf _ s _ _ _ (by simp) (by simp [lengthCheck])
  | unpack t => exact issued_acceptIf _ s _ _ _ (by simp) (by simp [lengthCheck])
  | mix => exact issued_acceptIf _ s _ _ _ (by simp) (by simp [lengthCheck])
  | encode =>
    by_cases h : s.ptLen = 0
    · exact .shortCircuit rfl h (by rw [issue, issueEncode, if_pos h])
    · rw [issue, issueEncode, if_neg h]
      exact issued_acceptIf _ s _ _ _ (by simp) (by simp [lengthCheck, encodeChecks])
  | b64o => exact issued_acceptIf _ s [] _ _ (by simp) (by simp)
  | b64p => exact issued_acceptIf _ s _ _ _ (by simp) (by simp [lengthCheck])
  | sreset => exact .reset rfl rfl

/-! ## The effective flag bits of an accepted command (R173) -/

theorem tEff_accept (v : Word) (ph : Phase) (s : State) : tEff (accept v ph false s) = v.getLsbD 4 := by
  simp [tEff]

theorem sEff_accept (v : Word) (ph : Phase) (ch : Bool) (s : State) : sEff (accept v ph ch s) = v.getLsbD 5 := rfl

theorem tBit_encode (t : Bool) :
    (encode (.packm t)).getLsbD 4 = t ∧ (encode (.packk t)).getLsbD 4 = t ∧ (encode (.unpack t)).getLsbD 4 = t := by
  cases t <;> decide

/-- The flags at the end of a command that a ready block accepted. -/
theorem completed_flags (s : State) (hs : s.ready) : flagsCompleted (flagsAccepted s.status) = Status.doneOnly := by
  obtain ⟨-, h⟩ := hs
  simp [flagsCompleted, flagsAccepted, Status.doneOnly, Status.clear, h]

/-! ## What no engine step changes -/

/-- The fields that no engine step writes: the fault registers, CUR, the operands, the parameters and the model's own. -/
structure EngineKeeps (s t : State) : Prop where
  err : t.status.err = s.status.err
  empty : t.status.empty = s.status.empty
  cause : t.cause = s.cause
  einfo : t.einfo = s.einfo
  cur : t.cur = s.cur
  pt : t.pt = s.pt
  kb : t.kb = s.kb
  ptLen : t.ptLen = s.ptLen
  kbLen : t.kbLen = s.kbLen
  cfg : t.cfg = s.cfg
  events : t.events = s.events
  replies : t.replies = s.replies

theorem EngineKeeps.refl (s : State) : EngineKeeps s s := by constructor <;> rfl

theorem EngineKeeps.trans {s t u : State} (h : EngineKeeps s t) (k : EngineKeeps t u) : EngineKeeps s u := by
  constructor
  · rw [k.err, h.err]
  · rw [k.empty, h.empty]
  · rw [k.cause, h.cause]
  · rw [k.einfo, h.einfo]
  · rw [k.cur, h.cur]
  · rw [k.pt, h.pt]
  · rw [k.kb, h.kb]
  · rw [k.ptLen, h.ptLen]
  · rw [k.kbLen, h.kbLen]
  · rw [k.cfg, h.cfg]
  · rw [k.events, h.events]
  · rw [k.replies, h.replies]

theorem advance_keeps {s t : State} (h : advance s = .next t) : EngineKeeps s t := by
  rcases advance_next h with rfl | ⟨-, ⟨-, rfl⟩ | ⟨-, rfl⟩ | ⟨-, rfl⟩⟩ <;> constructor <;> rfl

theorem phasePackm_keeps {s t : State} (h : phasePackm s = .next t) : EngineKeeps s t := by
  rw [phasePackm_eq s (phase_ranges.1 h)] at h
  exact .trans (by constructor <;> rfl) (advance_keeps h)

theorem phasePackk_keeps {s t : State} (h : phasePackk s = .next t) : EngineKeeps s t := by
  rw [phasePackk_eq s (phase_ranges.2.1 h)] at h
  exact .trans (by constructor <;> rfl) (advance_keeps h)

theorem phaseMixi_keeps {s t : State} (h : phaseMixi s = .next t) : EngineKeeps s t := by
  rw [phaseMixi_eq s (phase_ranges.2.2.1 h)] at h
  cases h
  constructor <;> rfl

theorem phaseMixr_keeps {s t : State} (h : phaseMixr s = .next t) : EngineKeeps s t := by
  have hr := phase_ranges.2.2.2.1 h
  rw [phaseMixr_eq s hr.1 hr.2] at h
  rcases mixAdvance_next h with ⟨-, rfl⟩ | ⟨-, -, rfl⟩ | ⟨-, -, h'⟩
  · constructor <;> rfl
  · constructor <;> rfl
  · exact .trans (by constructor <;> rfl) (advance_keeps h')

theorem phaseUnpack_keeps {s t : State} (h : phaseUnpack s = .next t) : EngineKeeps s t := by
  have hr := phase_ranges.2.2.2.2.1 h
  rw [phaseUnpack_eq s hr.1 hr.2] at h
  exact .trans (by constructor <;> rfl) (advance_keeps h)

theorem phaseB64_keeps {s t : State} (h : phaseB64 s = .next t) : EngineKeeps s t := by
  rw [phaseB64_eq s (phase_ranges.2.2.2.2.2 h)] at h
  exact .trans (by constructor <;> rfl) (advance_keeps h)

theorem engineStep_keeps {s t : State} (h : engineStep s = .next t) : EngineKeeps s t := by
  unfold engineStep at h
  split at h
  · cases h
  · exact phasePackm_keeps h
  · exact phasePackk_keeps h
  · exact phaseMixi_keeps h
  · exact phaseMixr_keeps h
  · exact phaseUnpack_keeps h
  · exact phaseB64_keeps h

theorem engineTurn_keeps {s t : State} (h : engineTurn s = .next t) : EngineKeeps s t := by
  unfold engineTurn at h
  split at h
  · exact engineStep_keeps h
  · cases h; exact .refl s

theorem repeatStep_engine_keeps {f : State → Outcome} (hf : ∀ s t, f s = .next t → EngineKeeps s t) (k : Nat)
    {s t : State} (h : repeatStep f k s = .next t) : EngineKeeps s t :=
  repeatStep_keeps (P := EngineKeeps s) (fun a b ha hab => ha.trans (hf a b hab)) k s t (.refl s) h

theorem mixRun_keeps {s t : State} (h : mixRun s = .next t) : EngineKeeps s t := by
  obtain ⟨u, hu, ht⟩ := andThen_eq_next h
  exact (phaseMixi_keeps hu).trans (repeatStep_engine_keeps (fun _ _ => phaseMixr_keeps) _ ht)

theorem encodeRun_keeps {s t : State} (h : encodeRun s = .next t) : EngineKeeps s t := by
  obtain ⟨a, ha, h⟩ := andThen_eq_next h
  obtain ⟨b, hb, h⟩ := andThen_eq_next h
  obtain ⟨c, hc, h⟩ := andThen_eq_next h
  exact (((phasePackm_keeps ha).trans (phasePackk_keeps hb)).trans (mixRun_keeps hc)).trans (phaseUnpack_keeps h)

/-! ## The meanings, as the write of the word and the engine's part -/

/-- The engine's part of an instruction (R142, R174); SRESET has none. -/
def enginePart : Instr → State → Outcome
  | .packm _  => phasePackm
  | .packk _  => phasePackk
  | .unpack _ => phaseUnpack
  | .mix      => mixRun
  | .encode   => encodeRun
  | .b64o     => phaseB64
  | .b64p     => phaseB64
  | .sreset   => .next

/-- One equation for all the meanings in a ready state. -/
theorem exec_ready (i : Instr) (s : State) (hs : s.ready) :
    exec i s = ifAccepted (issue i s) (enginePart i) := by
  cases i with
  | sreset =>
    have hb : (softReset s).status.busy = false := rfl
    simp [exec, execSreset, hs.1, issue, ifAccepted_idle _ hb]
  | packm t => exact unlessDropped_ready s hs fun s => ifAccepted (issuePackm t s) phasePackm
  | packk t => exact unlessDropped_ready s hs fun s => ifAccepted (issuePackk t s) phasePackk
  | unpack t => exact unlessDropped_ready s hs fun s => ifAccepted (issueUnpack t s) phaseUnpack
  | mix => exact unlessDropped_ready s hs fun s => ifAccepted (issueMix s) mixRun
  | encode => exact unlessDropped_ready s hs fun s => ifAccepted (issueEncode s) encodeRun
  | b64o => exact unlessDropped_ready s hs fun s => ifAccepted (issueB64o s) phaseB64
  | b64p => exact unlessDropped_ready s hs fun s => ifAccepted (issueB64p s) phaseB64

theorem enginePart_keeps (i : Instr) {s t : State} (h : enginePart i s = .next t) : EngineKeeps s t := by
  cases i with
  | packm t => exact phasePackm_keeps h
  | packk t => exact phasePackk_keeps h
  | unpack t => exact phaseUnpack_keeps h
  | mix => exact mixRun_keeps h
  | encode => exact encodeRun_keeps h
  | b64o => exact phaseB64_keeps h
  | b64p => exact phaseB64_keeps h
  | sreset => cases h; exact .refl _

end Sys2Proof.Machine
end

