-- ==== Sys2Proof/Laws/Alphabet.lean ====
section
/-! SUPPORT. The laws of the Alphabet Encoder's function: its length, and every symbol of it. -/

namespace Sys2Proof.Machine

/-! ## The indices as numbers -/

/-- The 24-bit number of group `g` (R154): the bytes past the length are 0 (R155). -/
def groupNumber (b : Memory 8) (len g : Nat) : Nat :=
  (if 3 * g < len then (b.read (3 * g)).toNat else 0) * 65536 +
  (if 3 * g + 1 < len then (b.read (3 * g + 1)).toNat else 0) * 256 +
  (if 3 * g + 2 < len then (b.read (3 * g + 2)).toNat else 0)

theorem indices_toNat (b0 b1 b2 : Byte) :
    (index0 b0).toNat = b0.toNat / 4 ∧ (index1 b0 b1).toNat = b0.toNat % 4 * 16 + b1.toNat / 16 ∧
    (index2 b1 b2).toNat = b1.toNat % 16 * 4 + b2.toNat / 64 ∧ (index3 b2).toNat = b2.toNat % 64 := by
  have h0 := b0.isLt
  have h1 := b1.isLt
  have h2 := b2.isLt
  have m3 : ∀ x : Nat, x &&& (0x03 : Byte).toNat = x % 4 := fun x => Nat.and_two_pow_sub_one_eq_mod x 2
  have m15 : ∀ x : Nat, x &&& (0x0F : Byte).toNat = x % 16 := fun x => Nat.and_two_pow_sub_one_eq_mod x 4
  have m63 : ∀ x : Nat, x &&& (0x3F : Byte).toNat = x % 64 := fun x => Nat.and_two_pow_sub_one_eq_mod x 6
  refine ⟨?_, ?_, ?_, ?_⟩
  · simp [index0, Nat.shiftRight_eq_div_pow]
  · rw [index1, BitVec.toNat_or, BitVec.toNat_shiftLeft, BitVec.toNat_and, m3, BitVec.toNat_ushiftRight,
      Nat.shiftRight_eq_div_pow, Nat.shiftLeft_eq, Nat.mod_eq_of_lt (by omega), ← Nat.shiftLeft_eq,
      ← Nat.shiftLeft_add_eq_or_of_lt (by omega), Nat.shiftLeft_eq]
  · rw [index2, BitVec.toNat_or, BitVec.toNat_shiftLeft, BitVec.toNat_and, m15, BitVec.toNat_ushiftRight,
      Nat.shiftRight_eq_div_pow, Nat.shiftLeft_eq, Nat.mod_eq_of_lt (by omega), ← Nat.shiftLeft_eq,
      ← Nat.shiftLeft_add_eq_or_of_lt (by omega), Nat.shiftLeft_eq]
  · rw [index3, BitVec.toNat_and, m63]

/-! ## The stream -/

theorem length_fullGroups (c : Config) (b : Memory 8) (k : Nat) :
    ((List.range k).flatMap (fullGroup c b)).length = 4 * k := by
  induction k with
  | zero => rfl
  | succ k ih =>
    rw [List.range_succ, List.flatMap_append, List.length_append, ih]
    simp [fullGroup]
    omega

theorem length_tailGroup (c : Config) (b : Memory 8) (len : Nat) :
    (tailGroup c b len).length = if len % 3 = 0 then 0 else 4 := by
  unfold tailGroup
  split
  · next h => simp [h]
  · split
    · next h => simp [h]
    · rw [if_pos (by omega)]; rfl

@[simp] theorem length_b64 (c : Config) (b : Memory 8) (len : Nat) : (b64 c b len).length = 4 * groupsFor len := by
  rw [b64, List.length_append, length_fullGroups, length_tailGroup, groupsFor]
  split <;> omega

theorem getD_fullGroups (c : Config) (b : Memory 8) (k g r : Nat) (hg : g < k) (hr : r < 4) :
    ((List.range k).flatMap (fullGroup c b)).getD (4 * g + r) 0 = (fullGroup c b g).getD r 0 := by
  induction k with
  | zero => omega
  | succ k ih =>
    rw [List.range_succ, List.flatMap_append]
    by_cases h : g < k
    · rw [List.getD_append _ _ _ _ (by rw [length_fullGroups]; omega), ih h]
    · obtain rfl : g = k := by omega
      rw [List.getD_append_right _ _ _ _ (by rw [length_fullGroups]; omega), length_fullGroups]
      simp

/-- Every symbol of the stream: the table's entry for its 6 bits of its group's number, or the pad (R154, R155). -/
theorem getD_b64 (c : Config) (b : Memory 8) (len g r : Nat) (hg : g < groupsFor len) (hr : r < 4) :
    (b64 c b len).getD (4 * g + r) 0 =
      if 3 * g + r ≤ len then c.customTable.getD (groupNumber b len g / 64 ^ (3 - r) % 64) 0 else c.padSymbol := by
  unfold groupsFor at hg
  by_cases h : g < len / 3
  · rw [if_pos (by omega), b64, List.getD_append _ _ _ _ (by rw [length_fullGroups]; omega),
      getD_fullGroups c b _ g r h hr]
    obtain ⟨i0, i1, i2, i3⟩ := indices_toNat (b.read (3 * g)) (b.read (3 * g + 1)) (b.read (3 * g + 2))
    have h0 := (b.read (3 * g)).isLt
    have h1 := (b.read (3 * g + 1)).isLt
    have h2 := (b.read (3 * g + 2)).isLt
    have hG : groupNumber b len g = (b.read (3 * g)).toNat * 65536 + (b.read (3 * g + 1)).toNat * 256 +
        (b.read (3 * g + 2)).toNat := by
      rw [groupNumber, if_pos (by omega), if_pos (by omega), if_pos (by omega)]
    rw [hG]
    interval_cases r <;> simp only [fullGroup, symbolOf, i0, i1, i2, i3, List.getD_cons_zero, List.getD_cons_succ] <;>
      congr 1 <;> omega
  · obtain rfl : g = len / 3 := by omega
    rw [b64, List.getD_append_right _ _ _ _ (by rw [length_fullGroups]; omega), length_fullGroups,
      show 4 * (len / 3) + r - 4 * (len / 3) = r by omega]
    by_cases h1 : len % 3 = 1
    · have e : len - 1 = 3 * (len / 3) := by omega
      rw [tailGroup, if_pos h1, e]
      obtain ⟨i0, i1, -, -⟩ := indices_toNat (b.read (3 * (len / 3))) 0 0
      have h0 := (b.read (3 * (len / 3))).isLt
      have hG : groupNumber b len (len / 3) = (b.read (3 * (len / 3))).toNat * 65536 := by
        rw [groupNumber, if_pos (by omega), if_neg (by omega), if_neg (by omega)]
        omega
      rw [hG]
      have hz : (0 : Byte).toNat = 0 := rfl
      interval_cases r <;> simp only [symbolOf, i0, i1, List.getD_cons_zero, List.getD_cons_succ]
      · rw [if_pos (by omega)]; congr 1; omega
      · rw [if_pos (by omega)]; congr 1; omega
      · rw [if_neg (by omega)]
      · rw [if_neg (by omega)]
    · have h2 : len % 3 = 2 := by omega
      have e : len - 2 = 3 * (len / 3) := by omega
      have e' : len - 1 = 3 * (len / 3) + 1 := by omega
      rw [tailGroup, if_neg h1, if_pos h2, e, e']
      obtain ⟨i0, i1, -, -⟩ := indices_toNat (b.read (3 * (len / 3))) (b.read (3 * (len / 3) + 1)) 0
      obtain ⟨-, -, i2, -⟩ := indices_toNat (b.read (3 * (len / 3))) (b.read (3 * (len / 3) + 1)) 0
      have h0 := (b.read (3 * (len / 3))).isLt
      have h1' := (b.read (3 * (len / 3) + 1)).isLt
      have hG : groupNumber b len (len / 3) =
          (b.read (3 * (len / 3))).toNat * 65536 + (b.read (3 * (len / 3) + 1)).toNat * 256 := by
        rw [groupNumber, if_pos (by omega), if_pos (by omega), if_neg (by omega)]
        omega
      rw [hG]
      have hz : (0 : Byte).toNat = 0 := rfl
      interval_cases r <;> simp only [symbolOf, i0, i1, i2, List.getD_cons_zero, List.getD_cons_succ]
      · rw [if_pos (by omega)]; congr 1; omega
      · rw [if_pos (by omega)]; congr 1; omega
      · rw [if_pos (by omega)]; congr 1; omega
      · rw [if_neg (by omega)]

end Sys2Proof.Machine
end

