-- ==== Sys2Proof/Laws/HostPort.lean ====
section
/-! SUPPORT. The laws of the host port: when an access is answered and with what, and the ways a host write can end. -/

namespace Sys2Proof.Machine

theorem accessRefusal_eq_none {c : Config} {sp : Space} {i bytes : Nat} (h : accessRefusal c sp i bytes = none) :
    i < capacity c sp ∧ bytes = sp.entryBytes := by
  unfold accessRefusal at h
  split at h
  · cases h
  · split at h
    · cases h
    · next h1 h2 => exact ⟨by omega, by simpa using h2⟩

theorem accessRefusal_allowed {c : Config} {sp : Space} {i bytes : Nat} (h : i < capacity c sp)
    (hb : bytes = sp.entryBytes) : accessRefusal c sp i bytes = none := by
  simp [accessRefusal, hb, show ¬ capacity c sp ≤ i by omega]

theorem hostRead_allowed {s : State} {sp : Space} {i bytes : Nat} (h : i < capacity s.cfg sp)
    (hb : bytes = sp.entryBytes) : hostRead sp i bytes s = .next (s.reply (readEntry s sp i)) := by
  rw [hostRead, accessRefusal_allowed h hb]

theorem hostWrite_allowed {s : State} {sp : Space} {i bytes : Nat} {v : Word} (h : i < capacity s.cfg sp)
    (hb : bytes = sp.entryBytes) : hostWrite sp i bytes v s = .next (writeEntry s sp i v) := by
  rw [hostWrite, accessRefusal_allowed h hb]

/-- A read that is answered has only sent its value back. -/
theorem hostRead_next {sp : Space} {i bytes : Nat} {s t : State} (h : hostRead sp i bytes s = .next t) :
    t = s.reply (readEntry s sp i) := by
  unfold hostRead at h
  split at h
  · cases h
  · cases h; rfl

/-- A write that is answered is the gated write of its entry. -/
theorem hostWrite_next {sp : Space} {i bytes : Nat} {v : Word} {s t : State}
    (h : hostWrite sp i bytes v s = .next t) :
    accessRefusal s.cfg sp i bytes = none ∧ t = writeEntry s sp i v := by
  unfold hostWrite at h
  split at h
  · cases h
  · next ha => cases h; exact ⟨ha, rfl⟩

/-! ## The gate (R56) -/

theorem writeEntry_command (s : State) (v : Word) : writeEntry s .csr 0 v = writeCommand v s := by simp [writeEntry]

theorem writeEntry_dropped {s : State} {sp : Space} {i : Nat} {v : Word}
    (h : s.status.busy = true ∨ s.status.err = true) (hc : ¬ (sp = .csr ∧ i = 0)) : writeEntry s sp i v = s := by
  rw [writeEntry, if_neg hc, if_pos (by simpa using h)]

theorem writeEntry_open {s : State} (hs : s.ready) {sp : Space} {i : Nat} {v : Word}
    (hc : ¬ (sp = .csr ∧ i = 0)) : writeEntry s sp i v = storeEntry s sp i v := by
  simp [writeEntry, hc, hs.1, hs.2]

/-- The buffers that the host only reads and the registers that it only reads drop a write. -/
theorem storeEntry_readOnly (s : State) {sp : Space} {i : Nat} (v : Word)
    (h : sp = .ob ∨ sp = .sy ∨ (sp = .csr ∧ i ≠ 4 ∧ i ≠ 5 ∧ i ≠ 6 ∧ i ≠ 7)) : storeEntry s sp i v = s := by
  rcases h with rfl | rfl | ⟨rfl, h4, h5, h6, h7⟩
  · rfl
  · rfl
  · unfold storeEntry storeCsr
    split <;> simp_all

/-! ## Bus addresses (R53, R58) -/

theorem entryBytes_pos (sp : Space) : 0 < sp.entryBytes := by cases sp <;> decide

/-- The address of a window's entry names that entry. -/
theorem windowEntry_addressOf (m : MapWindow) (k : Nat) (hk : k < m.count) :
    windowEntry m (m.addressOf k) = some (m.space, m.first + k) := by
  have hp := entryBytes_pos m.space
  have hlt := Nat.mul_lt_mul_of_pos_left hk hp
  unfold windowEntry MapWindow.addressOf
  rw [if_pos ⟨by omega, by omega, by rw [Nat.add_sub_cancel_left, Nat.mul_mod_right]⟩, Nat.add_sub_cancel_left,
    Nat.mul_div_cancel_left _ hp]

/-- An address that names an entry of a window is that entry's address. -/
theorem windowEntry_eq_some {m : MapWindow} {a : Nat} {x : Space × Nat} (h : windowEntry m a = some x) :
    ∃ k, k < m.count ∧ a = m.addressOf k ∧ x = (m.space, m.first + k) := by
  unfold windowEntry at h
  split at h
  · next hr =>
    obtain ⟨h1, h2, h3⟩ := hr
    cases h
    refine ⟨(a - m.base) / m.space.entryBytes, ?_, ?_, rfl⟩
    · rw [Nat.div_lt_iff_lt_mul (entryBytes_pos m.space), Nat.mul_comm]
      unfold MapWindow.addressOf at h2
      omega
    · have := Nat.div_add_mod (a - m.base) m.space.entryBytes
      unfold MapWindow.addressOf
      omega
  · cases h

theorem apart_addressOf {m n : MapWindow} (h : m.apart n = true) {j k : Nat} (hj : j < m.count) (hk : k < n.count) :
    m.addressOf j ≠ n.addressOf k := by
  simp only [MapWindow.apart, Bool.and_eq_true, decide_eq_true_eq] at h
  exact h.1 j hj k hk

theorem apart_entry {m n : MapWindow} (h : m.apart n = true) {j k : Nat} (hj : j < m.count) (hk : k < n.count)
    (hs : m.space = n.space) : m.first + j ≠ n.first + k := by
  simp [MapWindow.apart, hs] at h
  omega

/-- Of pairwise apart windows, the one that names an address decides the search. -/
theorem findWindow_eq {ws : List MapWindow} (hp : ws.Pairwise fun m n => m.apart n = true) {m : MapWindow}
    (hm : m ∈ ws) {a : Nat} {x : Space × Nat} (h : windowEntry m a = some x) :
    ws.findSome? (windowEntry · a) = some x := by
  induction ws with
  | nil => cases hm
  | cons y ys ih =>
    rw [List.pairwise_cons] at hp
    rw [List.findSome?_cons]
    rcases List.mem_cons.mp hm with rfl | hm'
    · rw [h]
    · cases hy : windowEntry y a with
      | none => exact ih hp.2 hm'
      | some z =>
        obtain ⟨j, hj, rfl, -⟩ := windowEntry_eq_some hy
        obtain ⟨k, hk, ha, -⟩ := windowEntry_eq_some h
        exact absurd ha (apart_addressOf (hp.1 m hm') hj hk)

/-- A store writes no flag, no fault register and no sequencer register. -/
theorem storeEntry_keeps (s : State) (sp : Space) (i : Nat) (v : Word) :
    (storeEntry s sp i v).status = s.status ∧ (storeEntry s sp i v).cause = s.cause ∧
    (storeEntry s sp i v).einfo = s.einfo ∧ (storeEntry s sp i v).cur = s.cur ∧ (storeEntry s sp i v).ph = s.ph ∧
    (storeEntry s sp i v).chain = s.chain ∧ (storeEntry s sp i v).cfg = s.cfg ∧
    (storeEntry s sp i v).obLen = s.obLen ∧ (storeEntry s sp i v).syLen = s.syLen := by
  unfold storeEntry storeCsr
  split <;> (try split) <;> simp

end Sys2Proof.Machine
end

