-- ==== Sys2Proof/Laws/Packer.lean ====
section
/-! SUPPORT. The laws of the Word Packer's functions: lengths, words, bytes, and that reassembling packed words gives
the bytes back. -/

namespace Sys2Proof.Machine

/-! ## Capacities -/

/-- What the parameters' constraints say of the capacities: every length fits in 32 bits (D30). -/
theorem capacities (c : Config) (h : c.wf = true) :
    c.ptMax ≤ 2 ^ 30 ∧ c.kbMax ≤ 2 ^ 30 ∧ 13 ≤ c.kbMax ∧ 2 ≤ nMax c ∧ nMax c ≤ 2 ^ 28 + 1 ∧ 5 ≤ knMax c ∧
      knMax c ≤ 2 ^ 28 + 1 ∧ obMax c ≤ 2 ^ 30 + 4 ∧ syMax c < 2 ^ 31 ∧ c.ptMax ≤ obMax c := by
  simp only [Config.wf, Config.ptMaxOk, Config.kbMaxOk, Bool.and_eq_true, decide_eq_true_eq] at h
  simp only [nMax, knMax, obMax, syMax, groupsFor, wordsFor]
  omega

theorem wordsFor_eq (len : Nat) : wordsFor len = (len + 3) / 4 := rfl

theorem wordsFor_mono {a b : Nat} (h : a ≤ b) : wordsFor a ≤ wordsFor b := by
  unfold wordsFor; omega

/-! ## Pack -/

@[simp] theorem length_pack (b : Memory 8) (len : Nat) (t : Bool) :
    (pack b len t).length = if t then wordsFor len + 1 else wordsFor len := by
  cases t <;> simp [pack]

theorem getD_pack_data (b : Memory 8) (len : Nat) (t : Bool) (j : Nat) (h : j < wordsFor len) :
    (pack b len t).getD j 0 = packWord b len j := by
  cases t <;> simp [pack, List.getD, h, List.getElem?_append]

theorem getD_pack_size (b : Memory 8) (len : Nat) : (pack b len true).getD (wordsFor len) 0 = BitVec.ofNat 32 len := by
  simp [pack, List.getD]

/-- Four bytes as one word, on natural numbers: the terms of R91 do not overlap. -/
theorem packWord_toNat (b : Memory 8) (len j : Nat) :
    (packWord b len j).toNat =
      (byteAt b len (4 * j)).toNat + (byteAt b len (4 * j + 1)).toNat * 2 ^ 8 +
      (byteAt b len (4 * j + 2)).toNat * 2 ^ 16 + (byteAt b len (4 * j + 3)).toNat * 2 ^ 24 := by
  have h0 := (byteAt b len (4 * j)).isLt
  have h1 := (byteAt b len (4 * j + 1)).isLt
  have h2 := (byteAt b len (4 * j + 2)).isLt
  have h3 := (byteAt b len (4 * j + 3)).isLt
  simp only [packWord, BitVec.toNat_add, BitVec.toNat_shiftLeft, BitVec.toNat_setWidth, Nat.shiftLeft_eq]
  omega

/-- Byte `k` of a packed word (R51). -/
theorem packWord_byte (b : Memory 8) (len j k : Nat) (hk : k < 4) :
    (packWord b len j >>> (8 * k)).setWidth 8 = byteAt b len (4 * j + k) := by
  apply BitVec.eq_of_toNat_eq
  have h0 := (byteAt b len (4 * j)).isLt
  have h1 := (byteAt b len (4 * j + 1)).isLt
  have h2 := (byteAt b len (4 * j + 2)).isLt
  have h3 := (byteAt b len (4 * j + 3)).isLt
  simp only [BitVec.toNat_setWidth, BitVec.toNat_ushiftRight, packWord_toNat, Nat.shiftRight_eq_div_pow]
  interval_cases k <;> simp only [Nat.mul_zero, Nat.add_zero, Nat.reduceMul, Nat.pow_zero] <;> omega

/-! ## Unpack -/

@[simp] theorem length_bytesOf (w : Memory 32) (n : Nat) : (bytesOf w n).length = 4 * n := by simp [bytesOf]

theorem getD_bytesOf (w : Memory 32) (n i : Nat) (h : i < 4 * n) : (bytesOf w n).getD i 0 = byteOf w i := by
  simp [bytesOf, List.getD, h]

theorem byteOf_word (w : Memory 32) (j k : Nat) (hk : k < 4) :
    byteOf w (4 * j + k) = (w.read j >>> (8 * k)).setWidth 8 := by
  rw [byteOf, show (4 * j + k) / 4 = j by omega, show (4 * j + k) % 4 = k by omega]

/-- The rejection test of R96 as two natural-number comparisons. -/
theorem rejects_iff (marker : Word) (n : Nat) (hn : 1 ≤ n) :
    rejects marker n = true ↔ marker.toNat + 3 < 4 * (n - 1) ∨ 4 * (n - 1) < marker.toNat := by
  simp only [rejects, Bool.or_eq_true, decide_eq_true_eq]
  omega

/-! ## The buffers after the phases -/

/-- What reading W gives after PACKM's words have been written from index 0. -/
theorem read_writeAll_pack (m : Memory 32) (hm : m.wf = true) (b : Memory 8) (len : Nat) (t : Bool) (i : Nat) :
    (m.writeAll 0 (pack b len t)).read i =
      if i < wordsFor len then packWord b len i
      else if i = wordsFor len ∧ t = true then BitVec.ofNat 32 len else m.read i := by
  rw [Memory.read_writeAll m hm, length_pack]
  by_cases h1 : i < wordsFor len
  · rw [if_pos h1, if_pos (by split <;> omega), Nat.sub_zero, getD_pack_data b len t i h1]
  · rw [if_neg h1]
    by_cases h2 : i = wordsFor len ∧ t = true
    · obtain ⟨rfl, rfl⟩ := h2
      rw [if_pos (by simp), Nat.sub_zero, getD_pack_size, if_pos (by simp)]
    · rw [if_neg h2, if_neg]
      rintro ⟨-, h3⟩
      cases t
      · simp at h3; omega
      · simp at h2 h3; omega

/-- The written words, read back as a list. -/
theorem take_writeAll {width : Nat} (m : Memory width) (hm : m.wf = true) (vs : List (BitVec width)) :
    (m.writeAll 0 vs).take vs.length = vs := by
  apply List.ext_getElem
  · simp
  · intro i h1 h2
    simp only [Memory.length_take] at h1
    simp only [Memory.take, List.getElem_map, List.getElem_range]
    rw [Memory.read_writeAll m hm, if_pos (by omega), Nat.sub_zero, List.getD_eq_getElem _ _ h2]

end Sys2Proof.Machine
end

