-- ==== Sys2Proof/Laws/Mixer.lean ====
section
/-! SUPPORT. The laws of the Block Mixer: what a sweep, a round and any number of rounds of position steps leave, on the
buffer itself, and that this is what the list functions of R120 compute. -/

namespace Sys2Proof.Machine

/-! ## The sweep on the buffer -/

/-- The accumulator that the sweep of a round uses (R115). -/
def roundSum (c : Config) (sum : Word) : Word := if c.sumPhase = .pre then sum + roundConstant else sum

/-- One position on the buffer: the words and the predecessor (R116). -/
def positionOn (c : Config) (k : Memory 32) (n : Nat) (used : Word) (wz : Memory 32 × Word) (p : Nat) :
    Memory 32 × Word :=
  let v := wz.1.read p + mx c wz.2 (wz.1.read ((p + 1) % n)) used (k.read (keyIndex (BitVec.ofNat 32 p) used))
  (wz.1.write p v, v)

/-- The first `p` positions of a sweep. -/
def sweepOn (c : Config) (k : Memory 32) (n : Nat) (used : Word) (wz : Memory 32 × Word) (p : Nat) :
    Memory 32 × Word := (List.range p).foldl (positionOn c k n used) wz

/-- A whole round: the words, the predecessor and the accumulator. -/
def roundOn (c : Config) (k : Memory 32) (n : Nat) (x : (Memory 32 × Word) × Word) : (Memory 32 × Word) × Word :=
  (sweepOn c k n (roundSum c x.2) x.1 n,
   if c.sumPhase = .post then roundSum c x.2 + roundConstant else roundSum c x.2)

@[simp] theorem sweepOn_zero (c : Config) (k : Memory 32) (n : Nat) (used : Word) (wz : Memory 32 × Word) :
    sweepOn c k n used wz 0 = wz := rfl

theorem sweepOn_succ (c : Config) (k : Memory 32) (n : Nat) (used : Word) (wz : Memory 32 × Word) (p : Nat) :
    sweepOn c k n used wz (p + 1) = positionOn c k n used (sweepOn c k n used wz p) p := by
  simp [sweepOn, List.range_succ]

/-! ## The steps -/

theorem mixable_iff (s : State) : mixable s = true ↔
    2 ≤ s.n.toNat ∧ s.n.toNat ≤ nMax s.cfg ∧ 4 ≤ s.kn.toNat ∧ s.kn.toNat ≤ knMax s.cfg := by
  simp [mixable, and_assoc]

/-- What the step at position `p` of a round does to the registers of the datapath. -/
theorem phaseMixr_at (s : State) (h : mixable s = true) {p : Nat} (hp : s.pos = BitVec.ofNat 32 p)
    (hpn : p < s.n.toNat) (used : Word) (hu : sumUsed s.cfg s.pos s.sum = used) :
    phaseMixr s = mixAdvance { s with
      w := (positionOn s.cfg s.k s.n.toNat used (s.w, s.zreg) p).1,
      zreg := (positionOn s.cfg s.k s.n.toNat used (s.w, s.zreg) p).2,
      sum := if p = s.n.toNat - 1 ∧ s.cfg.sumPhase = .post then used + roundConstant else used } := by
  have hn := s.n.isLt
  have hpv : s.pos.toNat = p := by rw [hp, BitVec.toNat_ofNat, Nat.mod_eq_of_lt (by omega)]
  have h2 := (mixable_iff s).mp h
  have hlast : (s.pos = s.n - 1) ↔ p = s.n.toNat - 1 := by
    rw [← BitVec.toNat_inj, BitVec.toNat_sub, hpv]
    simp
    omega
  rw [phaseMixr_eq s h (by omega)]
  simp only [positionOn, mixWord, sumLeft, successor, hu, hpv, hlast, ← hp]

/-- The first `p` steps of a round, `p` less than `n`: no step of them ends the round. `f` is the step of phase 4 or the
engine's turn. -/
theorem sweep_steps (f : State → Outcome)
    (hf : ∀ s : State, s.status.busy = true → s.ph = .mixr → f s = phaseMixr s)
    (s : State) (hb : s.status.busy = true) (hph : s.ph = .mixr) (h : mixable s = true) (hpos : s.pos = 0)
    (p : Nat) (hp : p < s.n.toNat) :
    repeatStep f p s = .next { s with
      w := (sweepOn s.cfg s.k s.n.toNat (roundSum s.cfg s.sum) (s.w, s.zreg) p).1,
      zreg := (sweepOn s.cfg s.k s.n.toNat (roundSum s.cfg s.sum) (s.w, s.zreg) p).2,
      sum := if p = 0 then s.sum else roundSum s.cfg s.sum, pos := BitVec.ofNat 32 p } := by
  induction p with
  | zero =>
    rw [repeatStep_zero]
    simp only [sweepOn_zero, if_true]
    rw [show BitVec.ofNat 32 0 = s.pos from hpos.symm]
  | succ p ih =>
    rw [repeatStep_add, ih (by omega), andThen_next, repeatStep_one]
    generalize hs1 : ({ s with
      w := (sweepOn s.cfg s.k s.n.toNat (roundSum s.cfg s.sum) (s.w, s.zreg) p).1,
      zreg := (sweepOn s.cfg s.k s.n.toNat (roundSum s.cfg s.sum) (s.w, s.zreg) p).2,
      sum := if p = 0 then s.sum else roundSum s.cfg s.sum, pos := BitVec.ofNat 32 p } : State) = s1
    have hused : sumUsed s1.cfg s1.pos s1.sum = roundSum s.cfg s.sum := by
      subst hs1
      have hn := s.n.isLt
      by_cases h0 : p = 0
      · subst h0
        simp [sumUsed, roundSum]
      · have hne : ¬ BitVec.ofNat 32 p = 0 := by
          rw [← BitVec.toNat_inj]
          simp
          omega
        simp only [sumUsed, if_neg h0]
        rw [if_neg fun hh => hne hh.1]
    rw [hf s1 (by subst hs1; exact hb) (by subst hs1; exact hph),
      phaseMixr_at s1 (by subst hs1; exact h) (p := p) (by subst hs1; rfl) (by subst hs1; exact (by omega : p < s.n.toNat)) _
        hused]
    subst hs1
    have hn := s.n.isLt
    have hv : (BitVec.ofNat 32 p).toNat = p := by rw [BitVec.toNat_ofNat, Nat.mod_eq_of_lt (by omega)]
    simp only [mixAdvance, hv]
    rw [if_pos (by omega), if_neg (by omega), if_neg (by omega), sweepOn_succ]
    congr 2
    rw [← BitVec.toNat_inj]
    simp

/-- A whole round of steps from position 0: it ends with the round counted, and with the phase advance where that was
the last round (R117). -/
theorem round_steps (f : State → Outcome)
    (hf : ∀ s : State, s.status.busy = true → s.ph = .mixr → f s = phaseMixr s)
    (s : State) (hb : s.status.busy = true) (hph : s.ph = .mixr) (h : mixable s = true) (hpos : s.pos = 0) :
    repeatStep f s.n.toNat s =
      (fun t => if s.rnd + 1 = s.q then advance t else .next t)
        { s with
          w := (roundOn s.cfg s.k s.n.toNat ((s.w, s.zreg), s.sum)).1.1,
          zreg := (roundOn s.cfg s.k s.n.toNat ((s.w, s.zreg), s.sum)).1.2,
          sum := (roundOn s.cfg s.k s.n.toNat ((s.w, s.zreg), s.sum)).2,
          pos := 0, rnd := s.rnd + 1 } := by
  have h2 := (mixable_iff s).mp h
  obtain ⟨p, hp⟩ : ∃ p, s.n.toNat = p + 1 := ⟨s.n.toNat - 1, by omega⟩
  have hn := s.n.isLt
  rw [show repeatStep f s.n.toNat s = repeatStep f (p + 1) s by rw [hp], repeatStep_add,
    sweep_steps f hf s hb hph h hpos p (by omega), andThen_next, repeatStep_one]
  generalize hs1 : ({ s with
      w := (sweepOn s.cfg s.k s.n.toNat (roundSum s.cfg s.sum) (s.w, s.zreg) p).1,
      zreg := (sweepOn s.cfg s.k s.n.toNat (roundSum s.cfg s.sum) (s.w, s.zreg) p).2,
      sum := if p = 0 then s.sum else roundSum s.cfg s.sum, pos := BitVec.ofNat 32 p } : State) = s1
  have hused : sumUsed s1.cfg s1.pos s1.sum = roundSum s.cfg s.sum := by
    subst hs1
    have h0 : p ≠ 0 := by omega
    have hne : ¬ BitVec.ofNat 32 p = 0 := by
      rw [← BitVec.toNat_inj]
      simp
      omega
    simp only [sumUsed, if_neg h0]
    rw [if_neg fun hh => hne hh.1]
  rw [hf s1 (by subst hs1; exact hb) (by subst hs1; exact hph),
    phaseMixr_at s1 (by subst hs1; exact h) (p := p) (by subst hs1; rfl) (by subst hs1; exact (by omega : p < s.n.toNat)) _
      hused]
  subst hs1
  have hv : (BitVec.ofNat 32 p).toNat = p := by rw [BitVec.toNat_ofNat, Nat.mod_eq_of_lt (by omega)]
  have hlast : (p = s.n.toNat - 1) ↔ True := by simp; omega
  have hsw : sweepOn s.cfg s.k s.n.toNat (roundSum s.cfg s.sum) (s.w, s.zreg) s.n.toNat =
      positionOn s.cfg s.k s.n.toNat (roundSum s.cfg s.sum)
        (sweepOn s.cfg s.k s.n.toNat (roundSum s.cfg s.sum) (s.w, s.zreg) p) p := by
    rw [← sweepOn_succ, ← hp]
  simp only [mixAdvance, hv, roundOn, hsw, hlast, true_and]
  rw [if_neg (by omega)]

/-- Any number of rounds short of the last. -/
theorem rounds_steps (f : State → Outcome)
    (hf : ∀ s : State, s.status.busy = true → s.ph = .mixr → f s = phaseMixr s)
    (s : State) (hb : s.status.busy = true) (hph : s.ph = .mixr) (h : mixable s = true) (hpos : s.pos = 0)
    (r : Nat) (hr : s.rnd.toNat + r < s.q.toNat) :
    repeatStep f (r * s.n.toNat) s = .next { s with
      w := ((roundOn s.cfg s.k s.n.toNat)^[r] ((s.w, s.zreg), s.sum)).1.1,
      zreg := ((roundOn s.cfg s.k s.n.toNat)^[r] ((s.w, s.zreg), s.sum)).1.2,
      sum := ((roundOn s.cfg s.k s.n.toNat)^[r] ((s.w, s.zreg), s.sum)).2,
      rnd := s.rnd + BitVec.ofNat 32 r } := by
  induction r with
  | zero => simp
  | succ r ih =>
    rw [Nat.add_mul, Nat.one_mul, repeatStep_add, ih (by omega), andThen_next]
    have hstep := round_steps f hf { s with
      w := ((roundOn s.cfg s.k s.n.toNat)^[r] ((s.w, s.zreg), s.sum)).1.1,
      zreg := ((roundOn s.cfg s.k s.n.toNat)^[r] ((s.w, s.zreg), s.sum)).1.2,
      sum := ((roundOn s.cfg s.k s.n.toNat)^[r] ((s.w, s.zreg), s.sum)).2,
      rnd := s.rnd + BitVec.ofNat 32 r } hb hph h hpos
    dsimp only at hstep
    rw [hstep]
    have hq := s.q.isLt
    have hne : ¬ s.rnd + BitVec.ofNat 32 r + 1 = s.q := by
      rw [← BitVec.toNat_inj]
      simp only [BitVec.toNat_add, BitVec.toNat_ofNat, show (1 : Word).toNat = 1 from rfl]
      omega
    rw [if_neg hne, Function.iterate_succ_apply']
    have h1 : s.rnd + BitVec.ofNat 32 r + 1 = s.rnd + BitVec.ofNat 32 (r + 1) := by
      rw [BitVec.ofNat_add, ← BitVec.add_assoc]; rfl
    simp only [h1, Prod.mk.eta, hpos]

/-- All the rounds: the phase advance ends them. -/
theorem all_rounds_steps (f : State → Outcome)
    (hf : ∀ s : State, s.status.busy = true → s.ph = .mixr → f s = phaseMixr s)
    (s : State) (hb : s.status.busy = true) (hph : s.ph = .mixr) (h : mixable s = true) (hpos : s.pos = 0)
    (r : Nat) (hr : s.rnd.toNat + r = s.q.toNat) (hr0 : 0 < r) :
    repeatStep f (r * s.n.toNat) s = advance { s with
      w := ((roundOn s.cfg s.k s.n.toNat)^[r] ((s.w, s.zreg), s.sum)).1.1,
      zreg := ((roundOn s.cfg s.k s.n.toNat)^[r] ((s.w, s.zreg), s.sum)).1.2,
      sum := ((roundOn s.cfg s.k s.n.toNat)^[r] ((s.w, s.zreg), s.sum)).2,
      rnd := s.q } := by
  obtain ⟨r, rfl⟩ : ∃ r', r = r' + 1 := ⟨r - 1, by omega⟩
  rw [Nat.add_mul, Nat.one_mul, repeatStep_add, rounds_steps f hf s hb hph h hpos r (by omega), andThen_next]
  have hstep := round_steps f hf { s with
    w := ((roundOn s.cfg s.k s.n.toNat)^[r] ((s.w, s.zreg), s.sum)).1.1,
    zreg := ((roundOn s.cfg s.k s.n.toNat)^[r] ((s.w, s.zreg), s.sum)).1.2,
    sum := ((roundOn s.cfg s.k s.n.toNat)^[r] ((s.w, s.zreg), s.sum)).2,
    rnd := s.rnd + BitVec.ofNat 32 r } hb hph h hpos
  dsimp only at hstep
  rw [hstep]
  have hq := s.q.isLt
  have he : s.rnd + BitVec.ofNat 32 r + 1 = s.q := by
    rw [← BitVec.toNat_inj]
    simp only [BitVec.toNat_add, BitVec.toNat_ofNat, show (1 : Word).toNat = 1 from rfl]
    omega
  rw [if_pos he, Function.iterate_succ_apply']
  simp only [he, Prod.mk.eta, hpos]

/-! ## The accumulator and the predecessor after rounds -/

theorem roundOn_sum (c : Config) (k : Memory 32) (n : Nat) (x : (Memory 32 × Word) × Word) :
    (roundOn c k n x).2 = x.2 + roundConstant := by
  cases h : c.sumPhase <;> simp [roundOn, roundSum, h]

theorem rounds_sum (c : Config) (k : Memory 32) (n r : Nat) (wz : Memory 32 × Word) :
    ((roundOn c k n)^[r] (wz, 0)).2 = BitVec.ofNat 32 (r * 0x9E3779B9) := by
  induction r with
  | zero => rfl
  | succ r ih =>
    rw [Function.iterate_succ_apply', roundOn_sum, ih, Nat.add_mul, BitVec.ofNat_add]
    rfl

/-! ## The buffer and the list of R120 -/

theorem Memory.take_write (m : Memory 32) (hm : m.wf = true) (n p : Nat) (v : Word) :
    (m.write p v).take n = (m.take n).set p v := by
  apply List.ext_getElem
  · simp
  · intro i h1 h2
    simp only [Memory.length_take] at h1
    simp only [List.getElem_set, Memory.take, List.getElem_map, List.getElem_range, Memory.read_write m hm]
    split <;> split <;> first | rfl | omega

/-- Only the first four key words are ever selected (R25, R114). -/
theorem keyIndex_lt (p sum : Word) : keyIndex p sum < 4 := by
  rw [keyIndex, eOf, BitVec.toNat_xor, BitVec.toNat_and, BitVec.toNat_and]
  exact Nat.xor_lt_two_pow (n := 2) (Nat.lt_of_le_of_lt Nat.and_le_right (by decide))
    (Nat.lt_of_le_of_lt Nat.and_le_right (by decide))

/-- A buffer and a predecessor that stand for a list and a predecessor, the entries past `n` being those of `m0`. -/
structure Stands (n : Nat) (m0 : Memory 32) (wz : Memory 32 × Word) (lz : List Word × Word) : Prop where
  wf : wz.1.wf = true
  words : wz.1.take n = lz.1
  pred : wz.2 = lz.2
  rest : ∀ i, n ≤ i → wz.1.read i = m0.read i

theorem Stands.position {c : Config} {k m0 : Memory 32} {n p : Nat} {used : Word} {wz : Memory 32 × Word}
    {lz : List Word × Word} (h : Stands n m0 wz lz) (hp : p < n) :
    Stands n m0 (positionOn c k n used wz p) (encryptPosition c (k.take 4) n used lz p) := by
  obtain ⟨l, z⟩ := lz
  obtain ⟨hwf, hl, hz, hrest⟩ := h
  dsimp only at hl hz
  subst hl
  have hv : wz.1.read p + mx c wz.2 (wz.1.read ((p + 1) % n)) used (k.read (keyIndex (BitVec.ofNat 32 p) used)) =
      (wz.1.take n).getD p 0 + mx c z ((wz.1.take n).getD ((p + 1) % n) 0) used
        ((k.take 4).getD (keyIndex (BitVec.ofNat 32 p) used) 0) := by
    rw [Memory.getD_take _ _ _ hp, Memory.getD_take _ _ _ (Nat.mod_lt _ (by omega)),
      Memory.getD_take _ _ _ (keyIndex_lt _ _), hz]
  refine ⟨Memory.wf_write _ hwf _ _, ?_, hv, fun i hi => ?_⟩
  · simp only [positionOn, encryptPosition, Memory.take_write _ hwf, hv]
  · simp only [positionOn]
    rw [Memory.read_write _ hwf, if_neg (by omega), hrest i hi]

theorem Stands.sweep {c : Config} {k m0 : Memory 32} {n : Nat} {used : Word} {wz : Memory 32 × Word}
    {lz : List Word × Word} (h : Stands n m0 wz lz) (p : Nat) (hp : p ≤ n) :
    Stands n m0 (sweepOn c k n used wz p) ((List.range p).foldl (encryptPosition c (k.take 4) n used) lz) := by
  induction p with
  | zero => exact h
  | succ p ih =>
    rw [sweepOn_succ, List.range_succ, List.foldl_append]
    exact (ih (by omega)).position (by omega)

/-- After a whole sweep the predecessor is the last word. -/
theorem sweepOn_last (c : Config) (k : Memory 32) (n : Nat) (used : Word) (wz : Memory 32 × Word)
    (hwf : wz.1.wf = true) (hn : 0 < n) :
    (sweepOn c k n used wz n).2 = (sweepOn c k n used wz n).1.read (n - 1) := by
  obtain ⟨m, rfl⟩ : ∃ m, n = m + 1 := ⟨n - 1, by omega⟩
  have hm : (sweepOn c k (m + 1) used wz m).1.wf = true :=
    (Stands.sweep (m0 := wz.1) (lz := (wz.1.take (m + 1), wz.2)) ⟨hwf, rfl, rfl, fun _ _ => rfl⟩ m (by omega)).wf
  rw [sweepOn_succ, positionOn]
  simp [Memory.read_write _ hm]

/-- Rounds on the buffer are rounds of R120, and the predecessor between rounds is the last word (R118). -/
theorem Stands.rounds {c : Config} {k m0 : Memory 32} {n : Nat} {wz : Memory 32 × Word} {lz : List Word × Word}
    {sum : Word} (h : Stands n m0 wz lz) (hn : 0 < n) (hz : wz.2 = wz.1.read (n - 1)) (r : Nat) :
    Stands n m0 ((roundOn c k n)^[r] (wz, sum)).1 ((encryptRound c (k.take 4) n)^[r] (lz, sum)).1 ∧
      ((roundOn c k n)^[r] (wz, sum)).2 = ((encryptRound c (k.take 4) n)^[r] (lz, sum)).2 ∧
      ((roundOn c k n)^[r] (wz, sum)).1.2 = ((roundOn c k n)^[r] (wz, sum)).1.1.read (n - 1) := by
  induction r with
  | zero => exact ⟨h, rfl, hz⟩
  | succ r ih =>
    obtain ⟨hs, hsum, -⟩ := ih
    rw [Function.iterate_succ_apply', Function.iterate_succ_apply']
    refine ⟨?_, ?_, ?_⟩
    · simp only [roundOn, encryptRound, hsum]
      exact hs.sweep n (le_refl n)
    · simp only [roundOn, encryptRound, hsum, roundSum]
    · exact sweepOn_last _ _ _ _ _ hs.wf hn

/-- The buffer after all the rounds of a mix of `n` words. -/
def mixedWords (c : Config) (k m : Memory 32) (n : Nat) : Memory 32 :=
  ((roundOn c k n)^[roundCount n] ((m, m.read (n - 1)), 0)).1.1

/-- What the rounds of a mix leave in the buffer is `encrypt` of what it held. -/
theorem rounds_encrypt (c : Config) (k m : Memory 32) (hm : m.wf = true) (n : Nat) (hn : 0 < n) :
    Stands n m ((roundOn c k n)^[roundCount n] ((m, m.read (n - 1)), 0)).1
      (encrypt c (m.take n) (k.take 4), (mixedWords c k m n).read (n - 1)) := by
  have h0 : Stands n m (m, m.read (n - 1)) (m.take n, (m.take n).getD (n - 1) 0) :=
    ⟨hm, rfl, (Memory.getD_take m n (n - 1) (by omega)).symm, fun _ _ => rfl⟩
  obtain ⟨h1, -, h3⟩ := h0.rounds (c := c) (k := k) (sum := 0) hn rfl (roundCount n)
  refine ⟨h1.wf, ?_, h3, h1.rest⟩
  rw [h1.words, encrypt, Memory.length_take]

/-- What is known of the mixed buffer: its form, its words, and the entries it leaves alone. -/
theorem mixedWords_spec (c : Config) (k m : Memory 32) (hm : m.wf = true) (n : Nat) (hn : 0 < n) :
    (mixedWords c k m n).wf = true ∧ (mixedWords c k m n).take n = encrypt c (m.take n) (k.take 4) ∧
      ∀ i, n ≤ i → (mixedWords c k m n).read i = m.read i :=
  have h := rounds_encrypt c k m hm n hn
  ⟨h.wf, h.words, h.rest⟩

theorem roundCount_pos (n : Nat) : 0 < roundCount n := by
  have := Nat.zero_le (52 / n)
  unfold roundCount
  generalize 52 / n = x at *
  omega

theorem roundCount_lt (n : Nat) : roundCount n < 2 ^ 32 := by
  have : 52 / n ≤ 52 := Nat.div_le_self 52 n
  unfold roundCount
  generalize 52 / n = x at *
  omega

/-- The engine's part of a mix, from its first step to the phase advance that ends it (R119). -/
theorem mixRun_eq (s : State) (hb : s.status.busy = true) (hw : s.w.wf = true) (h : mixable s = true) :
    mixRun s = advance { s with
      w := mixedWords s.cfg s.k s.w s.n.toNat, q := BitVec.ofNat 32 (roundCount s.n.toNat),
      rnd := BitVec.ofNat 32 (roundCount s.n.toNat), pos := 0,
      sum := BitVec.ofNat 32 (roundCount s.n.toNat * 0x9E3779B9),
      zreg := (mixedWords s.cfg s.k s.w s.n.toNat).read (s.n.toNat - 1), ph := .mixr } := by
  have h2 := (mixable_iff s).mp h
  have hq : (BitVec.ofNat 32 (roundCount s.n.toNat)).toNat = roundCount s.n.toNat := by
    rw [BitVec.toNat_ofNat, Nat.mod_eq_of_lt (roundCount_lt _)]
  have hall := all_rounds_steps phaseMixr (fun _ _ _ => rfl) { s with
      q := BitVec.ofNat 32 (roundCount s.n.toNat), sum := 0, zreg := s.w.read (s.n.toNat - 1), rnd := 0, pos := 0,
      ph := .mixr } hb rfl h rfl (roundCount s.n.toNat)
    (by show 0 + _ = (BitVec.ofNat 32 (roundCount s.n.toNat)).toNat; rw [hq, Nat.zero_add]) (roundCount_pos _)
  dsimp only at hall
  rw [mixRun, phaseMixi_eq s h, andThen_next]
  simp only [hq]
  rw [hall, rounds_sum]
  have hz : _ = (mixedWords s.cfg s.k s.w s.n.toNat).read (s.n.toNat - 1) :=
    (rounds_encrypt s.cfg s.k s.w hw s.n.toNat (by omega)).pred
  congr 2

/-! ## The key of R120 -/

/-- `encrypt` reads the first four key words and no other (R114, R124). -/
theorem encrypt_key (c : Config) (w k1 k2 : List Word) (h : ∀ i, i < 4 → k1.getD i 0 = k2.getD i 0) :
    encrypt c w k1 = encrypt c w k2 := by
  have hp : ∀ used wz p, encryptPosition c k1 w.length used wz p = encryptPosition c k2 w.length used wz p := by
    intro used wz p
    simp only [encryptPosition, h _ (keyIndex_lt _ _)]
  have hr : encryptRound c k1 w.length = encryptRound c k2 w.length := by
    funext x
    simp only [encryptRound, show encryptPosition c k1 w.length _ = encryptPosition c k2 w.length _ from
      funext fun wz => funext fun p => hp _ wz p]
  rw [encrypt, encrypt, hr]

@[simp] theorem length_encrypt (c : Config) (w key : List Word) : (encrypt c w key).length = w.length := by
  have hp : ∀ (ps : List Nat) used wz, (ps.foldl (encryptPosition c key w.length used) wz).1.length = wz.1.length := by
    intro ps used
    induction ps with
    | nil => intro wz; rfl
    | cons p ps ih => intro wz; rw [List.foldl_cons, ih]; simp [encryptPosition]
  have hr : ∀ r x, ((encryptRound c key w.length)^[r] x).1.1.length = x.1.1.length := by
    intro r
    induction r with
    | zero => intro x; rfl
    | succ r ih => intro x; rw [Function.iterate_succ_apply, ih, encryptRound, hp]
  rw [encrypt, hr]

end Sys2Proof.Machine
end

