-- ==== Sys2Proof/Laws/PerInstr.lean ====
section
/-! SUPPORT. What holds of every instruction as syntax, one lemma per constructor: the fields of its command word are
well formed (R71, R74), and its own bit is the only free one: `S` is the row's, `T` is the operand (R75). -/

namespace Sys2Proof.Laws.Fields

/-- An instruction is well formed and so are the fields of its word. -/
def Statement (i : Instr) : Prop := i.wf = true ∧ (encodeFields i).wf = true

theorem packm (t : Bool) : Statement (.packm t) := by cases t <;> exact ⟨rfl, rfl⟩
theorem packk (t : Bool) : Statement (.packk t) := by cases t <;> exact ⟨rfl, rfl⟩
theorem unpack (t : Bool) : Statement (.unpack t) := by cases t <;> exact ⟨rfl, rfl⟩
theorem mix : Statement .mix := ⟨rfl, rfl⟩
theorem encode : Statement .encode := ⟨rfl, rfl⟩
theorem b64o : Statement .b64o := ⟨rfl, rfl⟩
theorem b64p : Statement .b64p := ⟨rfl, rfl⟩
theorem sreset : Statement .sreset := ⟨rfl, rfl⟩

end Sys2Proof.Laws.Fields
end

