-- ==== Sys2Proof/Laws/Run.lean ====
section
/-! SUPPORT. The laws of a run: one step after another, and that the engine neither reads the schedule nor the replies. -/

namespace Sys2Proof.Machine

theorem run_zero (s : State) : core.run 0 s = .next s := rfl

theorem run_step_of (M : Host.Core) (k : Nat) (s : M.State) :
    M.run (k + 1) s = match M.step s with
      | .next t => M.run k t
      | .fault r => .fault r
      | .refused r => .refused r := rfl

theorem run_succ (k : Nat) (s : State) : core.run (k + 1) s = andThen (step s) (core.run k) := by
  refine (run_step_of core k s).trans ?_
  cases h : step s <;> (have h' : core.step s = _ := h) <;> rw [h'] <;> rfl

/-- Another schedule and other replies. -/
def State.rescheduled (es : List Event) (rs : List Word) (s : State) : State := { s with events := es, replies := rs }

/-- The outcome with its next state changed. -/
def mapNext (f : State → State) : Outcome → Outcome
  | .next s    => .next (f s)
  | .fault r   => .fault r
  | .refused r => .refused r

section Blind

variable (es : List Event) (rs : List Word) (s : State)

theorem advance_blind : advance (s.rescheduled es rs) = mapNext (State.rescheduled es rs) (advance s) := by
  obtain ⟨_, _, _, _, _, _, _, _, _, _, _, _, _, _, _, _, ph, ch, _, _, _, _, _, _, _, _⟩ := s
  cases ch <;> cases ph <;> rfl

theorem phasePackm_blind : phasePackm (s.rescheduled es rs) = mapNext (State.rescheduled es rs) (phasePackm s) := by
  unfold phasePackm
  by_cases h : s.ptLen.toNat ≤ s.cfg.ptMax
  · rw [if_pos h, if_pos (show (s.rescheduled es rs).ptLen.toNat ≤ (s.rescheduled es rs).cfg.ptMax from h),
      ← advance_blind]
    rfl
  · rw [if_neg h, if_neg (show ¬ (s.rescheduled es rs).ptLen.toNat ≤ (s.rescheduled es rs).cfg.ptMax from h)]
    rfl

theorem phasePackk_blind : phasePackk (s.rescheduled es rs) = mapNext (State.rescheduled es rs) (phasePackk s) := by
  unfold phasePackk
  by_cases h : s.kbLen.toNat ≤ s.cfg.kbMax
  · rw [if_pos h, if_pos (show (s.rescheduled es rs).kbLen.toNat ≤ (s.rescheduled es rs).cfg.kbMax from h),
      ← advance_blind]
    rfl
  · rw [if_neg h, if_neg (show ¬ (s.rescheduled es rs).kbLen.toNat ≤ (s.rescheduled es rs).cfg.kbMax from h)]
    rfl

theorem phaseMixi_blind : phaseMixi (s.rescheduled es rs) = mapNext (State.rescheduled es rs) (phaseMixi s) := by
  unfold phaseMixi
  by_cases h : mixable s = true
  · rw [if_pos h, if_pos (show mixable (s.rescheduled es rs) = true from h)]; rfl
  · rw [if_neg h, if_neg (show ¬ mixable (s.rescheduled es rs) = true from h)]; rfl

theorem mixAdvance_blind : mixAdvance (s.rescheduled es rs) = mapNext (State.rescheduled es rs) (mixAdvance s) := by
  unfold mixAdvance
  by_cases h : s.pos.toNat < s.n.toNat - 1
  · rw [if_pos h, if_pos (show (s.rescheduled es rs).pos.toNat < (s.rescheduled es rs).n.toNat - 1 from h)]; rfl
  · rw [if_neg h, if_neg (show ¬ (s.rescheduled es rs).pos.toNat < (s.rescheduled es rs).n.toNat - 1 from h)]
    dsimp only
    by_cases hq : s.rnd + 1 = s.q
    · rw [if_pos hq, if_pos (show (s.rescheduled es rs).rnd + 1 = (s.rescheduled es rs).q from hq), ← advance_blind]
      rfl
    · rw [if_neg hq, if_neg (show ¬ (s.rescheduled es rs).rnd + 1 = (s.rescheduled es rs).q from hq)]; rfl

theorem phaseMixr_blind : phaseMixr (s.rescheduled es rs) = mapNext (State.rescheduled es rs) (phaseMixr s) := by
  by_cases h : mixable s = true ∧ s.pos.toNat < s.n.toNat
  · rw [phaseMixr_eq s h.1 h.2, phaseMixr_eq (s.rescheduled es rs) h.1 h.2, ← mixAdvance_blind]; rfl
  · have h' : ¬ (mixable s && decide (s.pos.toNat < s.n.toNat)) = true := by simpa using h
    unfold phaseMixr
    rw [if_neg h', if_neg (show ¬ (mixable (s.rescheduled es rs) &&
      decide ((s.rescheduled es rs).pos.toNat < (s.rescheduled es rs).n.toNat)) = true from h')]
    rfl

theorem phaseUnpack_blind : phaseUnpack (s.rescheduled es rs) = mapNext (State.rescheduled es rs) (phaseUnpack s) := by
  by_cases h : 1 ≤ s.n.toNat ∧ s.n.toNat ≤ nMax s.cfg
  · rw [phaseUnpack_eq s h.1 h.2, phaseUnpack_eq (s.rescheduled es rs) h.1 h.2, ← advance_blind]; rfl
  · unfold phaseUnpack
    rw [if_neg h, if_neg (show ¬ (1 ≤ (s.rescheduled es rs).n.toNat ∧
      (s.rescheduled es rs).n.toNat ≤ nMax (s.rescheduled es rs).cfg) from h)]
    rfl

theorem phaseB64_blind : phaseB64 (s.rescheduled es rs) = mapNext (State.rescheduled es rs) (phaseB64 s) := by
  by_cases h : (b64Source s).2 ≤ if sEff s then s.cfg.ptMax else obMax s.cfg
  · rw [phaseB64_eq s h, phaseB64_eq (s.rescheduled es rs) h, ← advance_blind]; rfl
  · have h1 : phaseB64 s = .fault .engineRange := by
      unfold phaseB64 b64Source at *
      split <;> simp_all
    have h2 : phaseB64 (s.rescheduled es rs) = .fault .engineRange := by
      have h' : ¬ (b64Source (s.rescheduled es rs)).2 ≤ if sEff (s.rescheduled es rs) then
        (s.rescheduled es rs).cfg.ptMax else obMax (s.rescheduled es rs).cfg := h
      unfold phaseB64 b64Source at *
      split <;> simp_all
    rw [h1, h2]; rfl

/-- The engine's turn neither reads nor writes the schedule and the replies. -/
theorem engineTurn_blind : engineTurn (s.rescheduled es rs) = mapNext (State.rescheduled es rs) (engineTurn s) := by
  have hs : (s.rescheduled es rs).status = s.status := rfl
  have hp : (s.rescheduled es rs).ph = s.ph := rfl
  unfold engineTurn engineStep
  rw [hs, hp]
  cases s.status.busy with
  | false => rfl
  | true =>
    cases s.ph with
    | idle => rfl
    | packm => exact phasePackm_blind es rs s
    | packk => exact phasePackk_blind es rs s
    | mixi => exact phaseMixi_blind es rs s
    | mixr => exact phaseMixr_blind es rs s
    | unpack => exact phaseUnpack_blind es rs s
    | b64 => exact phaseB64_blind es rs s

end Blind

end Sys2Proof.Machine
end

