-- ==== Sys2Proof/Tests/Slice0.lean ====
section
/-! SUPPORT. The model's own tests: the checks of WellFormed refuse, words written out from the spec's encodings decode,
the vectors of 95_test_vectors.md come out, and every statement of the obligations that has hypotheses has a state
that meets them. Expected values are those of spec/ or counted by hand from its rules; the source is named. -/

open Sys2Proof Sys2Proof.Machine

namespace Sys2Proof.Tests

-- One theorem after the other: each evaluates in the kernel, and many at once run out of threads.
set_option Elab.async false

/-! ## Helpers -/

/-- A buffer that holds `l` from entry 0 on. -/
def holds {width : Nat} (l : List (BitVec width)) : Memory width := Memory.writeAll [] 0 l

/-- What a next state shows. -/
def shows {α : Type} (o : Outcome) (f : State → α) : Option α :=
  match o with
  | .next t    => some (f t)
  | .fault _   => none
  | .refused _ => none

theorem next_of_shows {o : Outcome} {t : State} (h : shows o id = some t) : o = .next t := by
  cases o <;> simp_all [shows]

/-- The next state, for witnesses. -/
def after (o : Outcome) : State :=
  match o with
  | .next t    => t
  | .fault _   => State.reset
  | .refused _ => State.reset

/-- A block with a plaintext and a key loaded. -/
def loaded (pt kb : List Byte) : State :=
  { State.reset with pt := holds pt, ptLen := BitVec.ofNat 32 pt.length,
                     kb := holds kb, kbLen := BitVec.ofNat 32 kb.length }

/-- A block with words and key words loaded. -/
def withWords (w k : List Word) : State :=
  { State.reset with w := holds w, n := BitVec.ofNat 32 w.length, k := holds k, kn := BitVec.ofNat 32 k.length }

/-- The default key of 95_test_vectors.md, and its first 13 bytes. -/
def key16 : List Byte :=
  [0x30, 0x31, 0x32, 0x33, 0x34, 0x35, 0x36, 0x37, 0x38, 0x39, 0x61, 0x62, 0x63, 0x64, 0x65, 0x66]
def key13 : List Byte := [0x30, 0x31, 0x32, 0x33, 0x34, 0x35, 0x36, 0x37, 0x38, 0x39, 0x61, 0x62, 0x63]
def keyWords : List Word := [0x33323130, 0x37363534, 0x62613938, 0x66656463]

/-- Registers alone, for the rows of V13. -/
def lens (ptLen kbLen : Word) : State := { State.reset with ptLen := ptLen, kbLen := kbLen }
def counts (n kn : Word) : State := { State.reset with n := n, kn := kn }

/-- The plaintext "a" under the default key (V6). -/
def letterA : State := loaded [0x61] key16

/-- The block `k` engine steps into ENCODE of "a": 0 stands in phase 1, 1 in phase 2, 2 in phase 3, 3 at the first
position of the first round, 65 and 66 at the two positions of the last round, 67 in phase 5. -/
def inEncode (k : Nat) : State := after (repeatStep engineTurn k (writeCommand 0x00000004 letterA))

/-- The block `k` engine steps into MIX of V6. -/
def inMix (k : Nat) : State :=
  after (repeatStep engineTurn k (writeCommand 0x00000003 (withWords [0x61, 1] keyWords)))

/-- A block in the fault state (V13, `cmd.raw 0x00000013`), with an output and a plaintext length. -/
def faulted : State := writeCommand 0x00000013 { letterA with status := Status.doneOnly, obLen := 3 }

/-- A block with some entries bound to bus addresses; three bytes of KB stand among the bytes of `W[1]`. -/
def mapped : State :=
  { State.reset with cfg := { sampleConfig with map :=
      [{ space := .csr, first := 0, count := 17, base := 0 }, { space := .pt, first := 0, count := 64, base := 256 },
       { space := .w, first := 1, count := 16, base := 512 }, { space := .kb, first := 0, count := 3, base := 513 }] } }

/-! ## The checks of WellFormed refuse (R12, R70, R74, R153, R58) -/

theorem test_wf_zeroOk : CmdFields.zeroOk { zero := 1, s := false, t := false, op := 3 } = false := by decide
theorem test_wf_opOk : CmdFields.opOk { zero := 0, s := false, t := false, op := 6 } = false := by decide
theorem test_wf_sOk : CmdFields.sOk { zero := 0, s := true, t := false, op := 2 } = false := by decide
theorem test_wf_tOk : CmdFields.tOk { zero := 0, s := false, t := true, op := 5 } = false := by decide
theorem test_wf_ptMaxOk :
    Config.ptMaxOk { sampleConfig with ptMax := 0 } = false ∧
    Config.ptMaxOk { sampleConfig with ptMax := 2 ^ 30 + 1 } = false := by decide
theorem test_wf_kbMaxOk :
    Config.kbMaxOk { sampleConfig with kbMax := 12 } = false ∧
    Config.kbMaxOk { sampleConfig with kbMax := 2 ^ 30 + 1 } = false := by decide
theorem test_wf_tableOk :
    Config.tableOk { sampleConfig with customTable := candidateTable.take 63 } = false ∧
    Config.tableOk { sampleConfig with customTable := candidateTable.set 63 0x4C } = false ∧
    Config.tableOk { sampleConfig with customTable := candidateTable.set 63 0x3D } = false := by decide +kernel
theorem test_wf_mapOk :
    Config.mapOk { sampleConfig with map := [{ space := .w, first := 0, count := 1, base := 2 }] } = false ∧
    Config.mapOk { sampleConfig with map := [{ space := .csr, first := 0, count := 2, base := 0 },
      { space := .pt, first := 0, count := 1, base := 4 }] } = false ∧
    Config.mapOk { sampleConfig with map := [{ space := .pt, first := 0, count := 2, base := 0 },
      { space := .pt, first := 1, count := 1, base := 8 }] } = false := by decide

/-! ## Decoding: the words of 30_encoding.md written out bit by bit (R70, R71; the table of V12) -/

theorem test_decode_packm : decode 0b00000000000000000000000000000001 = .ok (.packm false) ∧
    decode 0b00000000000000000000000000010001 = .ok (.packm true) := by decide
theorem test_decode_packk : decode 0b00000000000000000000000000100001 = .ok (.packk false) ∧
    decode 0b00000000000000000000000000110001 = .ok (.packk true) := by decide
theorem test_decode_unpack : decode 0b00000000000000000000000000000010 = .ok (.unpack false) ∧
    decode 0b00000000000000000000000000010010 = .ok (.unpack true) := by decide
theorem test_decode_mix : decode 0b00000000000000000000000000000011 = .ok .mix := by decide
theorem test_decode_encode : decode 0b00000000000000000000000000000100 = .ok .encode := by decide
theorem test_decode_b64o : decode 0b00000000000000000000000000000101 = .ok .b64o := by decide
theorem test_decode_b64p : decode 0b00000000000000000000000000100101 = .ok .b64p := by decide
theorem test_decode_sreset : decode 0b00000000000000000000000000001111 = .ok .sreset := by decide

/-- Every illegal word of V12, by the reason R74 gives. -/
theorem test_decode_illegal :
    [0x00, 0x10, 0x20, 0x06, 0x07, (0x0E : Word)].map decode = List.replicate 6 (.error .opcode) ∧
    [0x22, 0x32, 0x23, 0x24, (0x2F : Word)].map decode = List.replicate 5 (.error .sBit) ∧
    [0x13, 0x14, 0x15, 0x35, (0x1F : Word)].map decode = List.replicate 5 (.error .tBit) ∧
    [0x40, 0x41, 0x104, 0x80000003, (0xFFFFFFFF : Word)].map decode = List.replicate 5 (.error .zeroField) := by
  decide +kernel

theorem test_decodeTableWord : decodeTableWord 32 0x11 = some (.packm true) ∧ decodeTableWord 32 0x13 = none := by
  decide

/-! ## The vectors of 95_test_vectors.md -/

/-- V1: "abcde" with tracking, and the empty input with tracking. -/
theorem test_packm_V1 :
    shows (exec (.packm true) (loaded [0x61, 0x62, 0x63, 0x64, 0x65] [])) (fun t => (t.w, t.n)) =
      some ([(0, 0x64636261), (1, 0x65), (2, 5)], 3) ∧
    shows (exec (.packm true) State.reset) (fun t => (t.w, t.n)) = some ([], 1) := by decide +kernel

/-- V1: bit 7 is not extended, and the word past the data is not written without tracking. -/
theorem test_packm_no_sign_extension :
    shows (exec (.packm false) { loaded [0x80, 0xFF, 0x00, 0x01] [] with w := [(1, 7)] }) (fun t => (t.w, t.n)) =
      some ([(0, 0x0100FF80), (1, 7)], 1) := by decide +kernel

/-- V1: the 13-byte key, without and with tracking. -/
theorem test_packk_V1 :
    shows (exec (.packk false) (loaded [] key13)) (fun t => (t.k, t.kn)) =
      some (holds [0x33323130, 0x37363534, 0x62613938, 0x63], 4) ∧
    shows (exec (.packk true) (loaded [] key13)) (fun t => (t.k, t.kn)) =
      some (holds [0x33323130, 0x37363534, 0x62613938, 0x63, 0x0D], 5) := by decide +kernel

/-- V2: the marker at, below and above its range, `N = 1`, and without validation. -/
theorem test_unpack_V2 :
    let seen := fun t ws => shows (exec (.unpack t) (withWords ws [])) (fun t => (t.obLen, t.status.rej))
    seen true [0x64636261, 4] = some (4, false) ∧ seen true [0x64636261, 1] = some (1, false) ∧
    seen true [0x64636261, 0] = some (0, true) ∧ seen true [0x64636261, 5] = some (0, true) ∧
    seen true [0] = some (0, false) ∧ seen true [0xFFFFFFFF] = some (0, true) ∧
    seen false [0x64636261, 0xFFFFFFFF] = some (8, false) := by decide +kernel

/-- P4, lines 13 and 14: a rejected buffer is written out all the same. -/
theorem test_unpack_rejected_bytes :
    shows (exec (.unpack true) (withWords [0x64636261, 0x65, 9] [])) (fun t => (t.ob.take 12, statusWord t.status)) =
      some ([0x61, 0x62, 0x63, 0x64, 0x65, 0, 0, 0, 9, 0, 0, 0], 0x0A) := by decide +kernel

/-- V5: mixing values, with both additions wrapping and with bits shifted out. -/
theorem test_mx_V5 :
    mx sampleConfig 0xFFFFFFFF 0xFFFFFFFF 0xFFFFFFFF 0x33323130 = 0x0B323142 ∧
    mx sampleConfig 0x80000000 0x00000001 0x9E3779B9 0x66656463 = 0x089CDE1F ∧
    mx sampleConfig 0xDEADBEEF 0xCAFEBABE 0x78DDE6E4 0x62613938 = 0xD1182644 ∧
    keyIndex 7 0x78DDE6E4 = 2 := by decide

/-- V6: MIX of two words. -/
theorem test_mix_V6 :
    shows (exec .mix (withWords [0x61, 1] keyWords)) (fun t => (t.w, t.q, t.rnd, t.pos, t.sum, t.zreg)) =
      some (holds [0xC355058A, 0x6EB97F9A], 32, 32, 0, 0xC6EF3720, 0x6EB97F9A) := by decide +kernel

/-- V7: MIX of three words, which reads successors as they stand in the round. -/
theorem test_mix_V7 :
    shows (exec .mix (withWords [0x64636261, 0x65, 5] [0x33323130, 0x37363534, 0x62613938, 0x63]))
      (fun t => (t.w, t.sum)) = some (holds [0x881B3007, 0xC84425DA, 0xA65F9EF9], 0x36FBEF9F) := by decide +kernel

/-- V6, V9: ENCODE of "a". -/
theorem test_encode_V6 :
    shows (exec .encode letterA) (fun t => (t.ob.take 8, t.obLen, t.cur, statusWord t.status)) =
      some ([0x8A, 0x05, 0x55, 0xC3, 0x9A, 0x7F, 0xB9, 0x6E], 8, 4, 2) := by decide +kernel

/-- V14: the other values of the two open formulas. -/
theorem test_encode_V14 :
    let ends := fun ph right => shows (exec .encode { letterA with
      cfg := { sampleConfig with sumPhase := ph, mxKeyXorRight := right } }) (fun t => t.w)
    ends .post false = some (holds [0xA40C2147, 0xD4710B48]) ∧ ends .pre true = some (holds [0xB35E310B, 0xCED161F8]) ∧
    ends .post true = some (holds [0x2F40FA8A, 0x1183AE14]) := by decide +kernel

/-- V6: B64O of the output of ENCODE of "a", and of no byte at all. -/
theorem test_b64o_V6 :
    shows (exec .b64o { State.reset with ob := holds [0x8A, 0x05, 0x55, 0xC3, 0x9A, 0x7F, 0xB9, 0x6E], obLen := 8 })
      (fun t => (t.sy.take 12, t.syLen)) =
      some ([0x58, 0x53, 0x75, 0x75, 0x76, 0x65, 0x33, 0x41, 0x4B, 0x61, 0x44, 0x3D], 12) ∧
    shows (exec .b64o State.reset) (fun t => (t.sy, t.syLen)) = some ([], 0) := by decide +kernel

/-- V11: B64P of one, two, three and seven bytes. -/
theorem test_b64p_V11 :
    let syms := fun b => shows (exec .b64p (loaded b [])) (fun t => t.sy)
    syms [0xFF] = some (holds [0x41, 0x76, 0x3D, 0x3D]) ∧ syms [0x4D, 0x61] = some (holds [0x46, 0x61, 0x50, 0x3D]) ∧
    syms [0xFB, 0xFF, 0xBE] = some (holds [0x51, 0x41, 0x51, 0x51]) ∧
    syms [0, 1, 2, 3, 4, 5, 6] =
      some (holds [0x4C, 0x4C, 0x50, 0x6F, 0x4C, 0x76, 0x2B, 0x69, 0x56, 0x53, 0x3D, 0x3D]) := by decide +kernel

/-- P3, line 16 to 20: SRESET leaves the fault state and clears the operands. -/
theorem test_sreset_P3 :
    shows (exec .sreset faulted) (fun t => [readCsr t 1, readCsr t 2, readCsr t 3, readCsr t 4, readEntry t .pt 0]) =
      some [0, 0, 0, 0, 0] := by decide +kernel

/-- V13: what a write of each word leaves in CAUSE, EINFO and STATUS, row by row. -/
def row (s : State) (v : Word) : Word × Word × Word :=
  let t := writeCommand v s
  (readCsr t 2, readCsr t 3, readCsr t 1)

theorem test_faults_V13_lengths :
    row (lens 65 0) 0x01 = (2, 0x41, 4) ∧ row (lens 64 0) 0x01 = (0, 0, 1) ∧ row (lens 0 33) 0x21 = (2, 0x21, 4) ∧
    row (lens 0 5) 0x21 = (0, 0, 1) ∧ row (lens 1 0) 0x04 = (3, 0, 4) ∧ row (lens 1 12) 0x04 = (3, 3, 4) ∧
    row (lens 1 13) 0x04 = (0, 0, 1) ∧ row (lens 65 5) 0x04 = (2, 0x41, 4) ∧ row (lens 1 33) 0x04 = (2, 0x21, 4) ∧
    row (lens 64 32) 0x04 = (0, 0, 1) ∧ row (lens 0 99) 0x04 = (0, 0, 0x12) ∧ row (lens 65 0) 0x25 = (2, 0x41, 4) := by
  decide

theorem test_faults_V13_counts :
    row State.reset 0x02 = (5, 0, 4) ∧ row (counts 18 0) 0x12 = (2, 0x12, 4) ∧ row (counts 1 0) 0x12 = (0, 0, 1) ∧
    row (counts 0 0) 0x03 = (4, 0, 4) ∧ row (counts 1 3) 0x03 = (4, 1, 4) ∧ row (counts 18 0) 0x03 = (2, 0x12, 4) ∧
    row (counts 2 3) 0x03 = (3, 3, 4) ∧ row (counts 2 10) 0x03 = (2, 0x0A, 4) ∧ row (counts 2 4) 0x03 = (0, 0, 1) ∧
    row (counts 17 9) 0x03 = (0, 0, 1) := by decide

theorem test_faults_V13_words :
    row State.reset 0x00 = (1, 0, 4) ∧ row State.reset 0x13 = (1, 0x13, 4) ∧
    row State.reset 0xFFFFFFFF = (1, 0xFFFFFFFF, 4) ∧ row State.reset 0x05 = (0, 0, 1) ∧
    row State.reset 0x04 = (0, 0, 0x12) ∧ row State.reset 0x0F = (0, 0, 0) := by decide

/-- P5, lines 10 to 14: an illegal word keeps DONE and CUR. -/
theorem test_illegal_keeps_flags_P5 :
    let s := writeCommand 0x00000000 (after (exec .b64o State.reset))
    (readCsr s 1, readCsr s 2, readCsr s 3, readCsr s 10) = (6, 1, 0, 5) := by decide +kernel

/-- P6: reads between engine turns; while BUSY = 1 the write of line 5 is dropped. -/
theorem test_read_while_busy_P6 :
    shows (core.run 3 ((inMix 0).withEvents [scriptRr 1, .engine, scriptRr 13])) (fun t => t.replies) = some [1, 0] ∧
    shows (core.run 1 ((inMix 3).withEvents [scriptWw .w 0 0])) (fun t => t.w.read 0) = some 0x0098B345 := by
  decide +kernel

/-- V6: the first two position steps of MIX. -/
theorem test_position_steps_V6 :
    (inMix 2).w = holds [0x0098B345, 1] ∧ (inMix 3).w = holds [0x0098B345, 0x000355B6] ∧
    (inMix 65).status.busy = false ∧ (inMix 64).status.busy = true ∧ (inEncode 68).status.busy = false ∧
    (inEncode 67).status.busy = true := by decide +kernel

/-! ## Witnesses: the hypotheses of the statements can be met -/

theorem test_reset_ready : State.reset.ready := ⟨rfl, rfl⟩
theorem test_letterA_ready : letterA.ready := ⟨rfl, rfl⟩
/-- `CommandsAfterReset`, `ResetMeetsTheInvariant`: an admissible parameter record. -/
theorem test_sample_wf : sampleConfig.wf = true ∧ sampleConfig.asDecided = true := by decide +kernel

/-- `DecodeInvertsEncode`, `LegalWordsAreEleven`. -/
theorem test_witness_encoding : Instr.wf (.packm true) = true ∧ decode (encode .b64p) = .ok .b64p := by decide

/-- `IllegalWordsFault`: a ready block, and an illegal word of each class at the edges of the classes. -/
theorem test_witness_illegal : State.reset.ready ∧ decode 0x00000006 = .error .opcode ∧
    decode 0x0000000E = .error .opcode ∧ decode 0x00000041 = .error .zeroField ∧ decode 0x0000002F = .error .sBit ∧
    decode 0x0000001F = .error .tBit := by
  refine ⟨⟨rfl, rfl⟩, ?_⟩
  decide

/-- `StepRunsTheDecodedCommand`: a legal and an illegal word at the head of the schedule. -/
theorem test_witness_step :
    ((letterA.withEvents [.command 0x04]).events = .command 0x04 :: [] ∧ decode 0x04 = .ok .encode) ∧
    ((letterA.withEvents [.command 0x13]).events = .command 0x13 :: [] ∧ decode 0x13 = .error .tBit) := by decide

/-- `HardwareResetFromAnyState`: in the middle of a command. -/
theorem test_witness_hwReset : ((inEncode 3).withEvents [.hwReset, .wait]).events = .hwReset :: [.wait] ∧
    (inEncode 3).status.busy = true := by decide +kernel

/-- `SresetClearsEverything`, `DroppedCommandsDoNothing`: an idle, a busy and a faulted block. -/
theorem test_witness_gates : letterA.status.busy = false ∧ (inMix 3).status.busy = true ∧
    faulted.status.err = true ∧ faulted.status.busy = false := by decide +kernel

/-- `AcceptanceStartsTheSequencer`: each condition at both ends of its range. -/
theorem test_witness_acceptance :
    let s := { lens 64 32 with n := 17, kn := 9 }
    let u := { lens 1 13 with n := 2, kn := 4 }
    s.ready ∧ u.ready ∧
    (s.ptLen.toNat ≤ s.cfg.ptMax ∧ s.kbLen.toNat ≤ s.cfg.kbMax ∧ s.n.toNat ≤ nMax s.cfg ∧ s.kn.toNat ≤ knMax s.cfg ∧
     2 ≤ s.n.toNat ∧ 4 ≤ s.kn.toNat ∧ 0 < s.ptLen.toNat ∧ 13 ≤ s.kbLen.toNat) ∧
    (u.ptLen.toNat ≤ u.cfg.ptMax ∧ u.kbLen.toNat ≤ u.cfg.kbMax ∧ u.n.toNat ≤ nMax u.cfg ∧ u.kn.toNat ≤ knMax u.cfg ∧
     2 ≤ u.n.toNat ∧ 4 ≤ u.kn.toNat ∧ 0 < u.ptLen.toNat ∧ 13 ≤ u.kbLen.toNat) ∧
    (counts 1 0).n.toNat = 1 := by
  refine ⟨⟨rfl, rfl⟩, ⟨rfl, rfl⟩, ?_⟩
  decide

/-- `FirstFailingCheckFaults`: a block that fails each check, at the edge. The capacities are 64, 32, 17 and 9 (V13). -/
theorem test_witness_checks :
    (lens 65 0).ready ∧ sampleConfig.ptMax < (lens 65 0).ptLen.toNat ∧ sampleConfig.kbMax < (lens 0 33).kbLen.toNat ∧
    17 = (sampleConfig.ptMax + 3) / 4 + 1 ∧ 9 = (sampleConfig.kbMax + 3) / 4 + 1 ∧ 17 < (counts 18 0).n.toNat ∧
    (counts 0 0).n = 0 ∧ (counts 1 0).n.toNat < 2 ∧ (2 ≤ (counts 2 10).n.toNat ∧ 9 < (counts 2 10).kn.toNat) ∧
    (2 ≤ (counts 17 3).n.toNat ∧ (counts 17 3).n.toNat ≤ 17 ∧ (counts 17 3).kn.toNat < 4) ∧
    (0 < (lens 1 33).ptLen.toNat ∧ (lens 1 33).ptLen.toNat ≤ 64 ∧ 32 < (lens 1 33).kbLen.toNat) ∧
    (0 < (lens 64 12).ptLen.toNat ∧ (lens 64 12).ptLen.toNat ≤ 64 ∧ (lens 64 12).kbLen.toNat < 13) := by
  refine ⟨⟨rfl, rfl⟩, ?_⟩
  decide

/-- `FaultsArePrecise`, `CurHoldsTheAcceptedWord`: a write that faults, one that is accepted, one that completes at once,
an engine turn. -/
theorem test_witness_writes :
    (writeCommand 0x13 State.reset).status.err = true ∧ (writeCommand 0x05 State.reset).status.busy = true ∧
    (State.reset.ptLen = 0 ∧ (writeCommand 0x04 State.reset).status.busy = false) ∧
    shows (engineTurn (inMix 3)) id = some (inMix 4) := by decide +kernel

/-- `ErrorsComeFromCommandWrites`: by index, by bus address and as a command event. -/
theorem test_witness_errors :
    mapped.status.err = false ∧ busEntry mapped.cfg 0 = some (.csr, 0) ∧
    shows (step (mapped.withEvents [.write .csr 0 4 0])) (fun t => t.status.err) = some true ∧
    shows (step (mapped.withEvents [.busWrite 0 4 0])) (fun t => t.status.err) = some true ∧
    shows (step (mapped.withEvents [.command 0])) (fun t => t.status.err) = some true := by decide +kernel

/-- `FaultStateIsSticky`: host events of each kind are answered in the fault state. -/
theorem test_witness_sticky :
    faulted.status.busy = false ∧ faulted.status.err = true ∧
    (∀ e ∈ [Event.read .pt 0 1, .write .pt 0 1 7, .write .csr 0 4 3, .command 0x04, .command 0x1F],
      e.isHost = true ∧ (shows (runEvent e [] faulted) (fun _ => true) = some true) ∧
      e ≠ .command 0x0F ∧ e ≠ .write .csr 0 4 0x0F) ∧
    (let m := writeCommand 0 mapped
     m.status.busy = false ∧ m.status.err = true ∧ (Event.busWrite 256 1 7).isHost = true ∧
     shows (runEvent (.busWrite 256 1 7) [] m) (fun _ => true) = some true ∧ busEntry m.cfg 0 = some (.csr, 0)) := by decide +kernel

/-- `BusyShutsTheHostOut`. -/
theorem test_witness_shut :
    (inMix 3).status.busy = true ∧
    (∀ e ∈ [Event.read .w 0 4, .write .w 0 4 7, .write .csr 0 4 0x0F, .command 0x0F],
      e.isHost = true ∧ shows (runEvent e [.wait] (inMix 3)) (fun t => t.events) = some [.wait]) := by decide +kernel

/-- `PhaseAdvanceFollowsTheChain`, `EffectiveFlagBits`: the phases of the chain, and a command alone. -/
theorem test_witness_chain :
    ((inEncode 0).chain = true ∧ (inEncode 0).ph = .packm) ∧ ((inEncode 1).chain = true ∧ (inEncode 1).ph = .packk) ∧
    ((inEncode 3).chain = true ∧ (inEncode 3).ph = .mixr) ∧ ((inEncode 67).chain = true ∧ (inEncode 67).ph = .unpack) ∧
    (inMix 3).chain = false := by decide +kernel

/-- The invariant, checked field by field on one state. -/
theorem test_inv_reset : Inv State.reset := by
  constructor
  · constructor <;> decide
  all_goals first | decide +kernel | exact ⟨by decide, by decide⟩

theorem test_inv_letterA : Inv letterA := by
  constructor
  · constructor <;> decide
  all_goals first | decide +kernel | exact ⟨by decide +kernel, by decide +kernel⟩

theorem test_inv_first_phase : Inv (inEncode 0) := by
  constructor
  · constructor <;> decide +kernel
  all_goals first | decide +kernel | exact ⟨by decide +kernel, by decide +kernel⟩

theorem test_inv_last_position : Inv (inEncode 66) := by
  constructor
  · constructor <;> decide +kernel
  all_goals first | decide +kernel | exact ⟨by decide +kernel, by decide +kernel⟩

/-- `ExecRefinesEngineSteps`: an accepted command and one that is not. -/
theorem test_witness_refines : Inv letterA ∧ letterA.ready ∧ (writeCommand (encode .encode) letterA).status.busy = true ∧
    (writeCommand (encode .mix) letterA).status.busy = false :=
  ⟨test_inv_letterA, ⟨rfl, rfl⟩, by decide +kernel, by decide +kernel⟩

/-- `RunningCommandCompletes`. -/
theorem test_witness_running : Inv (inEncode 66) ∧ (inEncode 66).status.busy = true :=
  ⟨test_inv_last_position, by decide +kernel⟩

/-- `WaitTerminates`: with a command running and without. -/
theorem test_witness_wait :
    (Inv ((inEncode 66).withEvents [.wait]) ∧ ((inEncode 66).withEvents [.wait]).events = .wait :: []) ∧
    (Inv (letterA.withEvents [.wait]) ∧ (letterA.withEvents [.wait]).events = .wait :: []) :=
  ⟨⟨{ test_inv_last_position with }, rfl⟩, ⟨{ test_inv_letterA with }, rfl⟩⟩

/-- `ReadsNeverDisturbTheEngine`: reads among engine turns that are all answered. -/
theorem test_witness_reads :
    let es := [Event.read .w 0 4, .engine, .read .csr 13 4, .engine]
    (∀ e ∈ es, e.isRead = true ∨ e = .engine) ∧
    shows (core.run es.length ((inMix 0).withEvents es)) (fun t => t.pos) = some 1 := by decide +kernel

/-- `PackmPacksPlaintext`, `PackkPacksKey`, `UnpackInvertsPack`, `EncodeLength`: lengths 0, 1 and the capacity. -/
theorem test_witness_packer :
    (State.reset.cfg.wf = true ∧ State.reset.w.wf = true ∧ State.reset.k.wf = true ∧ State.reset.ob.wf = true ∧
     State.reset.ready ∧ State.reset.ptLen.toNat ≤ State.reset.cfg.ptMax) ∧
    (letterA.cfg.wf = true ∧ letterA.ready ∧ letterA.ptLen.toNat ≤ letterA.cfg.ptMax ∧ 0 < letterA.ptLen.toNat ∧
     13 ≤ letterA.kbLen.toNat ∧ letterA.kbLen.toNat ≤ letterA.cfg.kbMax) ∧
    ((lens 64 32).ready ∧ (lens 64 32).ptLen.toNat ≤ (lens 64 32).cfg.ptMax ∧
     (lens 64 32).kbLen.toNat ≤ (lens 64 32).cfg.kbMax) := by
  refine ⟨⟨by decide +kernel, rfl, rfl, rfl, ⟨rfl, rfl⟩, by decide⟩, ⟨by decide +kernel, ⟨rfl, rfl⟩, ?_⟩, ⟨rfl, rfl⟩, ?_⟩ <;>
    decide

/-- `UnpackReassemblesBytes`: one word and the capacity; a marker at both ends of its range and past them. -/
theorem test_witness_unpack :
    let s := fun m => withWords [0x64636261, m] []
    (s 4).cfg.wf = true ∧ (s 4).ob.wf = true ∧ (s 4).ready ∧ (1 ≤ (counts 1 0).n.toNat ∧ (counts 17 0).n.toNat ≤ nMax (counts 17 0).cfg) ∧
    ((s 1).w.read ((s 1).n.toNat - 1)).toNat + 3 = 4 * ((s 1).n.toNat - 1) ∧
    ((s 4).w.read ((s 4).n.toNat - 1)).toNat = 4 * ((s 4).n.toNat - 1) ∧
    ((s 0).w.read ((s 0).n.toNat - 1)).toNat + 3 < 4 * ((s 0).n.toNat - 1) ∧
    4 * ((s 5).n.toNat - 1) < ((s 5).w.read ((s 5).n.toNat - 1)).toNat := by
  refine ⟨by decide +kernel, rfl, ⟨rfl, rfl⟩, ?_⟩
  decide +kernel

/-- `RoundCountTable`: the ends of its ranges, from V3. -/
theorem test_witness_round_count :
    [2, 13, 14, 17, 18, 26, 27, 52, 53, 1000].map roundCount = [32, 10, 9, 9, 8, 8, 7, 7, 6, 6] := by decide

/-- `KeyIndexTable`: an accumulator for each `e`, from V4, at the last column. -/
theorem test_witness_key_index :
    [0x3C6EF372, 0x78DDE6E4, 0x9E3779B9, (0x1715609D : Word)].map (fun sum => (sum.toNat / 4 % 4, keyIndex 3 sum)) =
      [(0, 3), (1, 2), (2, 1), (3, 0)] := by decide

/-- `MixInitialisation`, `StateAfterRounds`: phase 3, for the first and the last whole round (the second clause of the first:
the last position, `test_witness_position`). -/
theorem test_witness_mixi :
    let s := inEncode 2
    s.status.busy = true ∧ s.ph = .mixi ∧ s.cfg.wf = true ∧ s.w.wf = true ∧ 2 ≤ s.n.toNat ∧ s.n.toNat ≤ nMax s.cfg ∧
    4 ≤ s.kn.toNat ∧ s.kn.toNat ≤ knMax s.cfg ∧ 31 < 6 + 52 / s.n.toNat := by decide +kernel

/-- `PositionStep`: the four ways it goes on, inside ENCODE and in MIX. -/
theorem test_witness_position :
    let at4 := fun s : State => s.status.busy = true ∧ s.ph = .mixr ∧ s.cfg.mxKeyXorRight = false ∧ 2 ≤ s.n.toNat ∧
      s.n.toNat ≤ nMax s.cfg ∧ 4 ≤ s.kn.toNat ∧ s.kn.toNat ≤ knMax s.cfg ∧ s.pos.toNat < s.n.toNat
    (at4 (inMix 1) ∧ (inMix 1).pos.toNat < (inMix 1).n.toNat - 1) ∧
    (at4 (inMix 2) ∧ (inMix 2).pos.toNat = (inMix 2).n.toNat - 1 ∧ (inMix 2).rnd + 1 ≠ (inMix 2).q) ∧
    (at4 (inMix 64) ∧ (inMix 64).pos.toNat = (inMix 64).n.toNat - 1 ∧ (inMix 64).rnd + 1 = (inMix 64).q ∧
      (inMix 64).chain = false) ∧
    (at4 (inEncode 66) ∧ (inEncode 66).pos.toNat = (inEncode 66).n.toNat - 1 ∧
      (inEncode 66).rnd + 1 = (inEncode 66).q ∧ (inEncode 66).chain = true) := by decide +kernel

/-- `MixComputesEncrypt`: the smallest and the largest counts. -/
theorem test_witness_mix :
    let ok := fun s : State => s.cfg.wf = true ∧ s.w.wf = true ∧ s.status.busy = false ∧ s.status.err = false ∧
      2 ≤ s.n.toNat ∧ s.n.toNat ≤ nMax s.cfg ∧ 4 ≤ s.kn.toNat ∧ s.kn.toNat ≤ knMax s.cfg
    ok (withWords [0x61, 1] keyWords) ∧ ok (counts 17 9) := by decide +kernel

/-- `EncodeShortCircuits`. -/
theorem test_witness_short_circuit : State.reset.ready ∧ State.reset.ptLen = 0 := ⟨⟨rfl, rfl⟩, rfl⟩

/-- `EncodeEndState`, `EncodeEqualsTheScript`: the smallest and the largest lengths. -/
theorem test_witness_encode :
    let ok := fun s : State => s.cfg.wf = true ∧ s.w.wf = true ∧ s.k.wf = true ∧ s.ob.wf = true ∧
      s.status.busy = false ∧ s.status.err = false ∧ 0 < s.ptLen.toNat ∧ s.ptLen.toNat ≤ s.cfg.ptMax ∧
      13 ≤ s.kbLen.toNat ∧ s.kbLen.toNat ≤ s.cfg.kbMax
    ok (loaded [0x61] key13) ∧ ok (lens 64 32) := by decide +kernel

/-- `EncodeDependsOnItsOperandsOnly`: two blocks that differ past the lengths, in key byte 16, in W, and in OB. -/
theorem test_witness_depends :
    let s := loaded [0x61] (key16 ++ [1])
    let s' := { loaded [0x61] (key16 ++ [2, 3]) with pt := holds [0x61, 9], w := holds [7], ob := holds [1, 2] }
    (s.status.busy = false ∧ s.status.err = false ∧ s'.status.busy = false ∧ s'.status.err = false) ∧
    (s.w.wf = true ∧ s.k.wf = true ∧ s.ob.wf = true) ∧
    s.cfg = s'.cfg ∧ s.cfg.wf = true ∧ s'.w.wf = true ∧ s'.k.wf = true ∧ s'.ob.wf = true ∧ s.ptLen = s'.ptLen ∧
    s.ptLen.toNat ≤ s.cfg.ptMax ∧ 13 ≤ s.kbLen.toNat ∧ s.kbLen.toNat ≤ s.cfg.kbMax ∧ 13 ≤ s'.kbLen.toNat ∧
    s'.kbLen.toNat ≤ s.cfg.kbMax ∧ min s.kbLen.toNat 16 = min s'.kbLen.toNat 16 ∧
    (∀ i, i < s.ptLen.toNat → s.pt.read i = s'.pt.read i) ∧
    (∀ i, i < min s.kbLen.toNat 16 → s.kb.read i = s'.kb.read i) ∧ s ≠ s' := by decide +kernel

/-- `B64oEncodesOutput`, `B64pEncodesPlaintext`: lengths of each class modulo 3, and the capacities 68 and 64. -/
theorem test_witness_b64 :
    (State.reset.cfg.wf = true ∧ State.reset.sy.wf = true ∧ State.reset.ready) ∧
    [0, 1, 2, 3, 68, (69 : Word)].map (fun len => decide (len.toNat ≤ 4 * ((sampleConfig.ptMax + 3) / 4 + 1))) =
      [true, true, true, true, true, false] ∧
    [0, 1, 2, 3, 64, (65 : Word)].map (fun len => decide (len.toNat ≤ sampleConfig.ptMax)) =
      [true, true, true, true, true, false] :=
  ⟨⟨by decide +kernel, rfl, ⟨rfl, rfl⟩⟩, by decide, by decide⟩

/-- `SymbolStreamLaws`: an admissible table, and two buffers with one symbol stream (they differ past the length). -/
theorem test_witness_symbols :
    sampleConfig.tableOk = true ∧ b64 sampleConfig (holds [1, 2]) 1 = b64 sampleConfig (holds [1]) 1 := by
  decide +kernel

/-- `HostReadsTheCurrentContent`, `HostWriteGate`, `AccessesOutsideAreRefused`: the last entry of every space and the
first number past it; the gate open and shut. -/
theorem test_witness_spaces :
    [Space.csr, .pt, .kb, .w, .k, .ob, .sy].map (capacity sampleConfig) = [17, 64, 32, 17, 9, 68, 92] ∧
    (∀ sp ∈ [Space.csr, .pt, .kb, .w, .k, .ob, .sy],
      accessRefusal sampleConfig sp (capacity sampleConfig sp - 1) sp.entryBytes = none ∧
      accessRefusal sampleConfig sp (capacity sampleConfig sp) sp.entryBytes = some .noSuchEntry ∧
      accessRefusal sampleConfig sp 0 2 = some .wrongWidth) ∧
    (inMix 3).status.busy = true ∧ faulted.status.err = true ∧ State.reset.status.busy = false := by decide +kernel

/-- `StatusRegistersBitByBit`: every cause arises (V13), and the phases of the chain. -/
theorem test_witness_causes :
    [writeCommand 0 State.reset, writeCommand 1 (lens 65 0), writeCommand 4 (lens 1 0), writeCommand 3 State.reset,
     writeCommand 2 State.reset, State.reset].map (fun s => s.cause) =
      [.illegalCmd, .lenOvf, .keyShort, .nShort, .unpackEmpty, .none] := by decide

/-- `StoredEntryReadsBack`: the last entry of a buffer of 4, and the write of a 0, which lists nothing. -/
theorem test_witness_store :
    (holds [1, 2, (3 : Byte)]).ok 4 ∧ (holds [1, 2, (3 : Byte)]).write 3 9 = holds [1, 2, 3, 9] ∧
    (holds [1, 2, (3 : Byte)]).write 1 0 = [(0, 1), (2, 3)] := by
  refine ⟨⟨by decide, by decide⟩, ?_⟩
  decide

/-- `BusAddressesNameEntries`: an admissible map with four windows, two of them interleaved, their first and last
addresses, and some that are no entry's. -/
theorem test_witness_bus :
    mapped.cfg.mapOk = true ∧
    [0, 64, 256, 319, 512, 572, 1, 320, 516, 513, 515, 517].map (busEntry mapped.cfg) =
      [some (.csr, 0), some (.csr, 16), some (.pt, 0), some (.pt, 63), some (.w, 1), some (.w, 16), none, none,
       some (.w, 2), some (.kb, 0), some (.kb, 2), none] := by decide +kernel

/-- `CommandsKeepTheOperands`, `ParametersAreConstant`. -/
theorem test_witness_keeps :
    shows (exec .encode letterA) (fun t => t.status.done) = some true ∧
    shows (step (letterA.withEvents [.hwReset])) (fun t => t.ptLen) = some 0 := by decide +kernel

/-- `StepStopsOnlyAtBadAccesses`, `StepKeepsTheInvariant`: a state of the invariant whose step is refused, one whose step
is answered. -/
theorem test_witness_step_invariant :
    Inv (letterA.withEvents [.read .pt 64 1]) ∧
    step (letterA.withEvents [.read .pt 64 1]) = .refused .noSuchEntry ∧
    Inv (inEncode 66) ∧ shows (step (inEncode 66)) (fun t => t.ph) = some .unpack :=
  ⟨{ test_inv_letterA with }, rfl, test_inv_last_position, by decide +kernel⟩

/-- `ResetMeetsTheInvariant`, `ReachableStatesAreLegal`: a state in the middle of MIX that a run reaches (V6, loaded by the
host's own writes). -/
theorem test_witness_reachable :
    let es := scriptLoadw [0x61, 1] ++ scriptLoadk keyWords ++ [scriptCmd .mix, .engine]
    ∃ s, Reachable sampleConfig s ∧ s.ph = .mixr ∧ s.status.busy = true ∧
      core.run 10 (State.reset.withEvents es) = .next s := by
  intro es
  let run := fun k => after (core.run k (State.reset.withEvents es))
  have h0 : Reachable sampleConfig (run 0) := Reachable.reset es
  have hs : ∀ k, k < 10 → shows (step (run k)) id = some (run (k + 1)) := by decide +kernel
  have h : ∀ k, k ≤ 10 → Reachable sampleConfig (run k) := by
    intro k
    induction k with
    | zero => exact fun _ => h0
    | succ k ih => exact fun hk => Reachable.step (ih (by omega)) (next_of_shows (hs k (by omega)))
  exact ⟨run 10, h 10 (by omega), by decide +kernel, by decide +kernel, next_of_shows (by decide +kernel)⟩

/-! ## The host's questions -/

/-- The fetch word of the host's check runs as the first instruction after reset. -/
theorem test_withFetchWord :
    shows (step (State.reset.withFetchWord 32 0x04)) (fun t => readCsr t 1) = some 0x12 ∧
    shows (step (State.reset.withFetchWord 32 0x13)) (fun t => readCsr t 2) = some 1 := by decide +kernel

end Sys2Proof.Tests
end

section
/-! Proofs about the block's state: what a step can do, the parts of the invariant of R37 and what keeps each of them,
and the obligations of 10_state.md. -/

namespace Sys2Proof.Machine

/-! ## What a step can do -/

/-- No two instructions have one command word (R71). -/
theorem encode_injective {i j : Instr} (h : encode i = encode j) : i = j := by
  have hd := decode_own_word i
  rw [h, decode_own_word] at hd
  cases hd
  rfl

/-- The word of SRESET resets every idle block, in error or not (R178). -/
theorem writeCommand_sreset {s : State} (hb : s.status.busy = false) : writeCommand 0x0000000F s = softReset s := by
  cases he : s.status.err with
  | true => rw [writeCommand_err _ s hb he, if_pos rfl]
  | false => exact writeCommand_encode .sreset s ⟨hb, he⟩

/-- The gate of R170 stands before every meaning but SRESET's. -/
theorem exec_of_ne_sreset {i : Instr} (hi : i ≠ .sreset) (s : State) :
    exec i s = unlessDropped s fun s => ifAccepted (issue i s) (enginePart i) := by
  cases i with
  | sreset => exact absurd rfl hi
  | _ => rfl

/-- One equation for all the meanings in every state (R170): an idle block takes the write of the command word, and an
accepted command its engine part. -/
theorem exec_eq (i : Instr) (s : State) :
    exec i s = if s.status.busy then .next s else ifAccepted (writeCommand (encode i) s) (enginePart i) := by
  by_cases hi : i = .sreset
  · subst hi
    split
    · next hb => exact if_pos hb
    · next hb =>
      rw [show encode .sreset = 0x0000000F from rfl, writeCommand_sreset (by simpa using hb),
        ifAccepted_idle (softReset s) rfl]
      exact if_neg hb
  rw [exec_of_ne_sreset hi]
  cases hb : s.status.busy with
  | true => exact unlessDropped_busy s hb _
  | false =>
    rw [if_neg (by simp)]
    cases he : s.status.err with
    | true =>
      have hword : encode i ≠ 0x0000000F := fun h => hi (encode_injective (j := .sreset) h)
      rw [unlessDropped_err s he, writeCommand_err _ s hb he, if_neg hword, ifAccepted_idle s hb]
    | false => rw [unlessDropped_ready s ⟨hb, he⟩, writeCommand_encode i s ⟨hb, he⟩]

/-- Where the write of a command word can lead (R170). -/
theorem writeCommand_cases (v : Word) (s : State) :
    writeCommand v s = s ∨ writeCommand v s = softReset s ∨
    (s.ready ∧ (writeCommand v s = raiseFault .illegalCmd v s ∨ ∃ i, writeCommand v s = issue i s)) := by
  cases hb : s.status.busy with
  | true => exact .inl (writeCommand_busy v s hb)
  | false =>
    cases he : s.status.err with
    | true =>
      rw [writeCommand_err v s hb he]
      split
      · exact .inr (.inl rfl)
      · exact .inl rfl
    | false =>
      refine .inr (.inr ⟨⟨hb, he⟩, ?_⟩)
      cases hd : decode v with
      | error r => exact .inl (writeCommand_illegal v s ⟨hb, he⟩ hd)
      | ok i => exact .inr ⟨i, writeCommand_legal v s ⟨hb, he⟩ hd⟩

/-- The actions that the events of a schedule come down to: one turn of the engine, a value sent back, the write of an
entry that exists, an instruction, a reset. -/
inductive Acted (s t : State) : Prop where
  | turn (h : engineTurn s = .next t)
  | replied (v : Word) (h : t = s.reply v)
  | wrote (sp : Space) (i : Nat) (v : Word) (hi : i < capacity s.cfg sp) (h : t = writeEntry s sp i v)
  | executed (i : Instr) (h : exec i s = .next t)
  | reset (h : t = softReset s)

theorem acted_hostRead {s t : State} {sp : Space} {i bytes : Nat} (h : hostRead sp i bytes s = .next t) :
    Acted s t := .replied _ (hostRead_next h)

theorem acted_hostWrite {s t : State} {sp : Space} {i bytes : Nat} {v : Word}
    (h : hostWrite sp i bytes v s = .next t) : Acted s t :=
  have ⟨ha, ht⟩ := hostWrite_next h
  .wrote sp i v (accessRefusal_eq_none ha).1 ht

theorem acted_busRead {s t : State} {a bytes : Nat} (h : busRead a bytes s = .next t) : Acted s t := by
  unfold busRead at h
  split at h
  · cases h
  · exact acted_hostRead h

theorem acted_busWrite {s t : State} {a bytes : Nat} {v : Word} (h : busWrite a bytes v s = .next t) :
    Acted s t := by
  unfold busWrite at h
  split at h
  · cases h
  · exact acted_hostWrite h

theorem acted_commandStep {s t : State} {v : Word} (h : commandStep v s = .next t) : Acted s t := by
  unfold commandStep at h
  split at h
  · exact .executed _ h
  · cases h
    exact .wrote .csr 0 v (by simp [capacity]) (writeEntry_command s v).symm

/-- A step that answers a next state is one action, under some rest of the schedule. -/
theorem step_acted {s t : State} (h : step s = .next t) : ∃ es, Acted (s.withEvents es) t := by
  unfold step at h
  split at h
  · exact ⟨s.events, .turn h⟩
  next e rest _ =>
    cases e with
    | engine => exact ⟨rest, .turn h⟩
    | read sp i b => exact ⟨rest, acted_hostRead h⟩
    | write sp i b v => exact ⟨rest, acted_hostWrite h⟩
    | busRead a b => exact ⟨rest, acted_busRead h⟩
    | busWrite a b v => exact ⟨rest, acted_busWrite h⟩
    | command v => exact ⟨rest, acted_commandStep h⟩
    | wait =>
      by_cases hb : s.status.busy = true
      · exact ⟨s.events, .turn ((if_pos hb).trans ((if_pos hb).symm.trans h))⟩
      · cases (if_neg hb).symm.trans h
        exact ⟨rest, .replied _ rfl⟩
    | hwReset =>
      cases h
      exact ⟨rest, .reset rfl⟩

/-! ## The parameters (R35) -/

theorem issue_cfg (i : Instr) (s : State) : (issue i s).cfg = s.cfg := by
  cases issue_issued i s with
  | accepted ph ch _ h => rw [h, accept_cfg]
  | faulted c info _ h => rw [h, raiseFault_cfg]
  | shortCircuit _ _ h => rw [h]; rfl
  | reset _ h => rw [h]; rfl

theorem writeCommand_cfg (v : Word) (s : State) : (writeCommand v s).cfg = s.cfg := by
  rcases writeCommand_cases v s with h | h | ⟨-, h | ⟨i, h⟩⟩ <;> rw [h]
  · rfl
  · rfl
  · exact issue_cfg i s

theorem writeEntry_cfg (s : State) (sp : Space) (i : Nat) (v : Word) : (writeEntry s sp i v).cfg = s.cfg := by
  unfold writeEntry
  split
  · exact writeCommand_cfg v s
  · split
    · rfl
    · obtain ⟨-, -, -, -, -, -, hcfg, -, -⟩ := storeEntry_keeps s sp i v
      exact hcfg

theorem exec_cfg {i : Instr} {s t : State} (h : exec i s = .next t) : t.cfg = s.cfg := by
  rw [exec_eq] at h
  split at h
  · cases h; rfl
  · unfold ifAccepted at h
    split at h
    · rw [(enginePart_keeps i h).cfg, writeCommand_cfg]
    · cases h; exact writeCommand_cfg _ s

theorem Acted.cfg {s t : State} (h : Acted s t) : t.cfg = s.cfg := by
  cases h with
  | turn h => exact (engineTurn_keeps h).cfg
  | replied v h => rw [h, reply_cfg]
  | wrote sp i v _ h => rw [h, writeEntry_cfg]
  | executed i h => exact exec_cfg h
  | reset h => rw [h]; rfl

/-- Settles O51: whatever action a step is, it keeps the record. -/
theorem parametersAreConstant : Obligations.ParametersAreConstant := by
  intro s t h
  obtain ⟨es, ha⟩ := step_acted h
  exact ha.cfg

/-! ## The invariant's part that no phase decides: what is stored -/

/-- The part of the invariant about the parameters, the buffers and the lengths that the engine writes (R12, R59). -/
structure Stored (s : State) : Prop where
  cfgOk : s.cfg.wf = true
  ptOk : s.pt.ok s.cfg.ptMax
  kbOk : s.kb.ok s.cfg.kbMax
  wOk : s.w.ok (nMax s.cfg)
  kOk : s.k.ok (knMax s.cfg)
  obOk : s.ob.ok (obMax s.cfg)
  syOk : s.sy.ok (syMax s.cfg)
  obLenOk : s.obLen.toNat ≤ obMax s.cfg
  syLenOk : s.syLen.toNat ≤ syMax s.cfg

theorem Inv.stored {s : State} (h : Inv s) : Stored s := { h with }

theorem advance_stored {s t : State} (h : advance s = .next t) (hs : Stored s) : Stored t := by
  rcases advance_next h with rfl | ⟨-, ⟨-, rfl⟩ | ⟨-, rfl⟩ | ⟨-, rfl⟩⟩ <;> exact { hs with }

/-- Packing with or without the size word stays inside the derived capacity (R12). -/
theorem length_pack_le (b : Memory 8) {len cap : Nat} (t : Bool) (h : len ≤ cap) :
    (pack b len t).length ≤ wordsFor cap + 1 := by
  have := wordsFor_mono h
  rw [length_pack]
  split <;> omega

theorem phasePackm_stored {s t : State} (hs : Stored s) (h : phasePackm s = .next t) : Stored t := by
  have hr := phase_ranges.1 h
  rw [phasePackm_eq s hr] at h
  exact advance_stored h { hs with
    wOk := Memory.ok_writeAll _ _ 0 _ ((Nat.zero_add _).trans_le (length_pack_le _ _ hr)) hs.wOk }

theorem phasePackk_stored {s t : State} (hs : Stored s) (h : phasePackk s = .next t) : Stored t := by
  have hr := phase_ranges.2.1 h
  rw [phasePackk_eq s hr] at h
  exact advance_stored h { hs with
    kOk := Memory.ok_writeAll _ _ 0 _ ((Nat.zero_add _).trans_le (length_pack_le _ _ hr)) hs.kOk }

theorem phaseMixi_stored {s t : State} (hs : Stored s) (h : phaseMixi s = .next t) : Stored t := by
  rw [phaseMixi_eq s (phase_ranges.2.2.1 h)] at h
  cases h
  exact { hs with }

theorem mixAdvance_stored {s t : State} (h : mixAdvance s = .next t) (hs : Stored s) : Stored t := by
  rcases mixAdvance_next h with ⟨-, rfl⟩ | ⟨-, -, rfl⟩ | ⟨-, -, h'⟩
  · exact { hs with }
  · exact { hs with }
  · exact advance_stored h' { hs with }

theorem phaseMixr_stored {s t : State} (hs : Stored s) (h : phaseMixr s = .next t) : Stored t := by
  obtain ⟨hm, hp⟩ := phase_ranges.2.2.2.1 h
  rw [phaseMixr_eq s hm hp] at h
  obtain ⟨-, hn, -, -⟩ := (mixable_iff s).mp hm
  exact mixAdvance_stored h { hs with wOk := Memory.ok_write _ _ _ _ (hp.trans_le hn) hs.wOk }

/-- The length that UNPACK leaves is 4N at most: a larger marker is rejected (R95, R96). -/
theorem unpackResult_le (s : State) (h1 : 1 ≤ s.n.toNat) : (unpackResult s).1.toNat ≤ 4 * s.n.toNat := by
  unfold unpackResult
  split
  · rw [BitVec.toNat_mul]
    exact Nat.mod_le _ _
  · split
    · exact Nat.zero_le _
    · next hrej =>
      rw [rejects_iff _ _ h1] at hrej
      dsimp only
      omega

/-- A buffer that UNPACK rejects leaves no output (R96). -/
theorem unpackResult_rejected {s : State} (h : (unpackResult s).2 = true) : (unpackResult s).1 = 0 := by
  unfold unpackResult at h ⊢
  split at h
  · cases h
  · split at h
    · next ht hrej => rw [if_neg ht, if_pos hrej]
    · cases h

theorem phaseUnpack_stored {s t : State} (hs : Stored s) (h : phaseUnpack s = .next t) : Stored t := by
  obtain ⟨h1, h2⟩ := phase_ranges.2.2.2.2.1 h
  rw [phaseUnpack_eq s h1 h2] at h
  have hn : 4 * s.n.toNat ≤ obMax s.cfg := Nat.mul_le_mul_left 4 h2
  have hlen : 0 + (bytesOf s.w s.n.toNat).length ≤ obMax s.cfg := by rwa [length_bytesOf, Nat.zero_add]
  exact advance_stored h { hs with
    obOk := Memory.ok_writeAll _ _ 0 _ hlen hs.obOk, obLenOk := (unpackResult_le s h1).trans hn }

theorem phaseB64_stored {s t : State} (hs : Stored s) (h : phaseB64 s = .next t) : Stored t := by
  have hr := phase_ranges.2.2.2.2.2 h
  rw [phaseB64_eq s hr] at h
  have hlen : (b64Source s).2 ≤ obMax s.cfg := by
    obtain ⟨-, -, -, -, -, -, -, -, -, hpt⟩ := capacities s.cfg hs.cfgOk
    split at hr <;> omega
  have hsy : (b64 s.cfg (b64Source s).1 (b64Source s).2).length ≤ syMax s.cfg := by
    rw [length_b64]
    unfold syMax groupsFor
    omega
  exact advance_stored h { hs with
    syOk := Memory.ok_writeAll _ _ 0 _ ((Nat.zero_add _).trans_le hsy) hs.syOk
    syLenOk := (Nat.mod_le _ _).trans hsy }

theorem mixRun_stored {s t : State} (hs : Stored s) (h : mixRun s = .next t) : Stored t := by
  obtain ⟨u, hu, ht⟩ := andThen_eq_next h
  exact repeatStep_keeps (P := Stored) (fun _ _ => phaseMixr_stored) _ _ _ (phaseMixi_stored hs hu) ht

/-- A store inside its space keeps every buffer in form. -/
theorem storeEntry_stored {s : State} (hs : Stored s) {sp : Space} {i : Nat} (v : Word)
    (hi : i < capacity s.cfg sp) : Stored (storeEntry s sp i v) := by
  cases sp with
  | csr => simp only [storeEntry, storeCsr]; split <;> exact { hs with }
  | pt => exact { hs with ptOk := Memory.ok_write _ _ _ _ hi hs.ptOk }
  | kb => exact { hs with kbOk := Memory.ok_write _ _ _ _ hi hs.kbOk }
  | w => exact { hs with wOk := Memory.ok_write _ _ _ _ hi hs.wOk }
  | k => exact { hs with kOk := Memory.ok_write _ _ _ _ hi hs.kOk }
  | ob | sy => exact hs

/-! ## The invariant's part that the phase decides -/

/-- The flags and the fault registers while a command runs (R37 a, c, e). -/
structure Clean (s : State) : Prop where
  busy : s.status.busy = true
  done : s.status.done = false
  err : s.status.err = false
  rej : s.status.rej = false
  empty : s.status.empty = false
  cause : s.cause = .none
  einfo : s.einfo = 0

/-- What the phase of a running command may rely on (R37 d, R59, R142). -/
def PhaseReady (s : State) : Prop :=
  match s.ph with
  | .idle   => False
  | .packm  => s.ptLen.toNat ≤ s.cfg.ptMax ∧
      (s.chain = true → 0 < s.ptLen.toNat ∧ 13 ≤ s.kbLen.toNat ∧ s.kbLen.toNat ≤ s.cfg.kbMax)
  | .packk  => s.kbLen.toNat ≤ s.cfg.kbMax ∧
      (s.chain = true → 13 ≤ s.kbLen.toNat ∧ 2 ≤ s.n.toNat ∧ s.n.toNat ≤ nMax s.cfg)
  | .mixi   => mixable s = true
  | .mixr   => mixable s = true ∧ s.q.toNat = 6 + 52 / s.n.toNat ∧ s.rnd.toNat < s.q.toNat ∧
      s.pos.toNat < s.n.toNat ∧ s.zreg = s.w.read ((s.pos.toNat + s.n.toNat - 1) % s.n.toNat)
  | .unpack => 1 ≤ s.n.toNat ∧ s.n.toNat ≤ nMax s.cfg
  | .b64    => s.chain = false ∧ (sEff s = true → s.ptLen.toNat ≤ s.cfg.ptMax)

/-- What holds while no command runs (R37 b, c, e). -/
structure Resting (s : State) : Prop where
  idle : s.status.busy = false
  phase : s.ph = .idle
  chain : s.chain = false
  noErrorNoCause : s.status.err = false → s.cause = .none ∧ s.einfo = 0
  rejected : s.status.rej = true → s.status.done = true ∧ s.obLen = 0
  emptied : s.status.empty = true → s.status.done = true ∧ s.obLen = 0

/-- A running command has clean flags: a flag of the last one would ask for DONE = 1. -/
theorem Inv.clean {s : State} (h : Inv s) (hb : s.status.busy = true) : Clean s := by
  obtain ⟨herr, hdone⟩ := h.busyIsClean hb
  obtain ⟨hcause, heinfo⟩ := h.noErrorNoCause herr
  have hrej : ¬ s.status.rej = true := fun hr => by simpa [hdone] using (h.rejected hr).1
  have hempty : ¬ s.status.empty = true := fun he => by simpa [hdone] using (h.emptied he).1
  exact ⟨hb, hdone, herr, by simpa using hrej, by simpa using hempty, hcause, heinfo⟩

theorem Inv.busy_of_phase {s : State} (h : Inv s) {p : Phase} (hp : s.ph = p) (hne : p ≠ .idle) :
    s.status.busy = true := by
  by_contra hb
  exact hne (hp.symm.trans (h.idleRests (by simpa using hb)).1)

theorem Inv.resting {s : State} (h : Inv s) (hb : s.status.busy = false) : Resting s :=
  have ⟨hph, hch⟩ := h.idleRests hb
  ⟨hb, hph, hch, h.noErrorNoCause, h.rejected, h.emptied⟩

theorem inv_of_running {s : State} (hs : Stored s) (hc : Clean s) (hr : PhaseReady s) : Inv s := { hs with
  toLegal := {
    busyIsClean := fun _ => ⟨hc.err, hc.done⟩
    idleRests := fun h => by simp [hc.busy] at h
    noErrorNoCause := fun _ => ⟨hc.cause, hc.einfo⟩
    mixing := fun hp => by
      simp only [PhaseReady, hp] at hr
      obtain ⟨hm, hrest⟩ := hr
      obtain ⟨h1, h2, h3, h4⟩ := (mixable_iff s).mp hm
      exact ⟨h1, h2, h3, h4, hrest⟩
    rejected := fun h => by simp [hc.rej] at h
    emptied := fun h => by simp [hc.empty] at h }
  busyHasPhase := fun _ hp => by simp [PhaseReady, hp] at hr
  packmReady := fun hp => by simpa only [PhaseReady, hp] using hr
  packkReady := fun hp => by simpa only [PhaseReady, hp] using hr
  mixiReady := fun hp => by simpa only [PhaseReady, hp] using hr
  unpackReady := fun hp => by simpa only [PhaseReady, hp] using hr
  b64Ready := fun hp => by simpa only [PhaseReady, hp] using hr }

theorem inv_of_resting {s : State} (hs : Stored s) (hr : Resting s) : Inv s := { hs with
  toLegal := {
    busyIsClean := fun h => by simp [hr.idle] at h
    idleRests := fun _ => ⟨hr.phase, hr.chain⟩
    noErrorNoCause := hr.noErrorNoCause
    mixing := fun hp => by simp [hr.phase] at hp
    rejected := hr.rejected
    emptied := hr.emptied }
  busyHasPhase := fun h => by simp [hr.idle] at h
  packmReady := fun hp => by simp [hr.phase] at hp
  packkReady := fun hp => by simp [hr.phase] at hp
  mixiReady := fun hp => by simp [hr.phase] at hp
  unpackReady := fun hp => by simp [hr.phase] at hp
  b64Ready := fun hp => by simp [hr.phase] at hp }

/-! ## The phase advance (R175) -/

/-- The phase to which a chained phase hands over. -/
def chainNext : Phase → Option Phase
  | .packm => some .packk
  | .packk => some .mixi
  | .mixr  => some .unpack
  | .idle | .mixi | .unpack | .b64 => none

theorem advance_chained {s : State} {p : Phase} (hc : s.chain = true) (hp : chainNext s.ph = some p) :
    advance s = .next { s with ph := p } := by
  cases h : s.ph <;> rw [h] at hp <;> cases hp <;> simp [advance, hc, h]

theorem advance_hands_over {s t : State} {p : Phase} (h : advance s = .next t) (hc : s.chain = true)
    (hp : chainNext s.ph = some p) : t.ph = p ∧ t.chain = true := by
  rw [advance_chained hc hp] at h
  cases h
  exact ⟨rfl, hc⟩

/-- An advance completes the command or hands over along the chain. -/
theorem advance_cases {s t : State} (h : advance s = .next t) :
    t = complete s ∨ (s.chain = true ∧ ∃ p, chainNext s.ph = some p ∧ t = { s with ph := p }) := by
  rcases advance_next h with h | ⟨hc, ⟨hp, h⟩ | ⟨hp, h⟩ | ⟨hp, h⟩⟩
  · exact .inl h
  all_goals exact .inr ⟨hc, _, by rw [hp]; rfl, h⟩

theorem resting_complete {s : State} (hcause : s.cause = .none) (heinfo : s.einfo = 0)
    (hempty : s.status.empty = false) (hrej : s.status.rej = true → s.obLen = 0) : Resting (complete s) where
  idle := rfl
  phase := rfl
  chain := rfl
  noErrorNoCause := fun _ => ⟨hcause, heinfo⟩
  rejected := fun h => ⟨rfl, hrej h⟩
  emptied := fun h => absurd (hempty.symm.trans h) (by simp)

/-- The end of a phase other than UNPACK's keeps the invariant if the next phase of the chain finds what it needs. -/
theorem inv_advance {s t : State} (h : advance s = .next t) (hs : Stored t) (hc : Clean s)
    (hn : s.chain = true → ∀ p, chainNext s.ph = some p → PhaseReady { s with ph := p }) : Inv t := by
  rcases advance_cases h with rfl | ⟨hch, p, hp, rfl⟩
  · exact inv_of_resting hs (resting_complete hc.cause hc.einfo hc.empty fun hr => by simp [hc.rej] at hr)
  · exact inv_of_running hs { hc with } (hn hch p hp)

/-! ## The engine's steps keep the invariant -/

/-- The count that PACKM and PACKK leave, read back as a number (D30). -/
theorem toNat_count {k : Nat} (h : k ≤ 2 ^ 28 + 1) : (BitVec.ofNat 32 k).toNat = k := by
  rw [BitVec.toNat_ofNat, Nat.mod_eq_of_lt (by omega)]

theorem phasePackm_inv {s t : State} (hi : Inv s) (hp : s.ph = .packm) (h : phasePackm s = .next t) : Inv t := by
  have hst := phasePackm_stored hi.stored h
  have hc := hi.clean (hi.busy_of_phase hp (by simp))
  obtain ⟨hpt, hready⟩ := hi.packmReady hp
  rw [phasePackm_eq s hpt] at h
  refine inv_advance h hst { hc with } fun hch p hnext => ?_
  obtain rfl : Phase.packk = p := by simpa [hp, chainNext] using hnext
  obtain ⟨h0, h13, hkb⟩ := hready hch
  obtain ⟨-, -, -, -, hn, -⟩ := capacities s.cfg hi.cfgOk
  have hlen : (pack s.pt s.ptLen.toNat (tEff s)).length = wordsFor s.ptLen.toNat + 1 := by
    simp [tEff, hp, show s.chain = true from hch]
  have hcap : wordsFor s.ptLen.toNat + 1 ≤ nMax s.cfg := Nat.succ_le_succ (wordsFor_mono hpt)
  have hpos : 2 ≤ wordsFor s.ptLen.toNat + 1 := by unfold wordsFor; omega
  refine ⟨hkb, fun _ => ⟨h13, ?_⟩⟩
  dsimp only
  rw [hlen, toNat_count (hcap.trans hn)]
  exact ⟨hpos, hcap⟩

theorem phasePackk_inv {s t : State} (hi : Inv s) (hp : s.ph = .packk) (h : phasePackk s = .next t) : Inv t := by
  have hst := phasePackk_stored hi.stored h
  have hc := hi.clean (hi.busy_of_phase hp (by simp))
  obtain ⟨hkb, hready⟩ := hi.packkReady hp
  rw [phasePackk_eq s hkb] at h
  refine inv_advance h hst { hc with } fun hch p hnext => ?_
  obtain rfl : Phase.mixi = p := by simpa [hp, chainNext] using hnext
  obtain ⟨h13, hn2, hn⟩ := hready hch
  obtain ⟨-, -, -, -, -, -, hkn, -⟩ := capacities s.cfg hi.cfgOk
  have hlen : (pack s.kb s.kbLen.toNat (tEff s)).length = wordsFor s.kbLen.toNat := by
    simp [tEff, hp, show s.chain = true from hch]
  have hcap : wordsFor s.kbLen.toNat ≤ knMax s.cfg := Nat.le_succ_of_le (wordsFor_mono hkb)
  have hpos : 4 ≤ wordsFor s.kbLen.toNat := by unfold wordsFor; omega
  refine (mixable_iff _).mpr ⟨hn2, hn, ?_⟩
  dsimp only
  rw [hlen, toNat_count (hcap.trans hkn)]
  exact ⟨hpos, hcap⟩

theorem phaseMixi_inv {s t : State} (hi : Inv s) (hp : s.ph = .mixi) (h : phaseMixi s = .next t) : Inv t := by
  have hst := phaseMixi_stored hi.stored h
  have hc := hi.clean (hi.busy_of_phase hp (by simp))
  have hm := hi.mixiReady hp
  obtain ⟨hn2, -⟩ := (mixable_iff s).mp hm
  rw [phaseMixi_eq s hm] at h
  cases h
  refine inv_of_running hst { hc with } ⟨hm, ?_, ?_, ?_, ?_⟩
  · exact Nat.mod_eq_of_lt (roundCount_lt _)
  · exact (roundCount_pos _).trans_eq (Nat.mod_eq_of_lt (roundCount_lt _)).symm
  · exact lt_of_lt_of_le Nat.zero_lt_two hn2
  · show s.w.read _ = s.w.read ((0 + s.n.toNat - 1) % s.n.toNat)
    rw [Nat.zero_add, Nat.mod_eq_of_lt (by omega)]

/-- After a position step ZREG is the word just written, which stands before the next position (R118). -/
theorem read_predecessor {m : Memory 32} (hm : m.wf = true) {n p p' : Nat} (v : Word)
    (h : (p' + n - 1) % n = p) : v = (m.write p v).read ((p' + n - 1) % n) := by
  rw [h, Memory.read_write m hm, if_pos rfl]

theorem phaseMixr_inv {s t : State} (hi : Inv s) (hp : s.ph = .mixr) (h : phaseMixr s = .next t) : Inv t := by
  have hst := phaseMixr_stored hi.stored h
  have hc := hi.clean (hi.busy_of_phase hp (by simp))
  obtain ⟨hn2, hn, hk4, hkn, hq, hrnd, hpos, -⟩ := hi.mixing hp
  have hm : mixable s = true := (mixable_iff s).mpr ⟨hn2, hn, hk4, hkn⟩
  have hnlt := s.n.isLt
  have hqlt := s.q.isLt
  have hread := fun p' => read_predecessor (p' := p') hi.wOk.1 (n := s.n.toNat) (p := s.pos.toNat) (mixWord s)
  rw [phaseMixr_eq s hm hpos] at h
  rcases mixAdvance_next h with ⟨hlast, rfl⟩ | ⟨hlast, hmore, rfl⟩ | ⟨-, -, hadv⟩
  · -- the next position of the sweep
    dsimp only at hlast
    have hpos' : (s.pos + 1).toNat = s.pos.toNat + 1 := BitVec.toNat_add_of_lt (by simp; omega)
    refine inv_of_running hst { hc with } ?_
    simp only [PhaseReady, hp]
    refine ⟨hm, hq, hrnd, by omega, hread _ ?_⟩
    rw [hpos', show s.pos.toNat + 1 + s.n.toNat - 1 = s.pos.toNat + s.n.toNat by omega, Nat.add_mod_right,
      Nat.mod_eq_of_lt hpos]
  · -- position 0 of the next round
    dsimp only at hlast hmore
    have hrnd' : (s.rnd + 1).toNat = s.rnd.toNat + 1 := BitVec.toNat_add_of_lt (by simp; omega)
    have hne : (s.rnd + 1).toNat ≠ s.q.toNat := fun he => hmore (BitVec.eq_of_toNat_eq he)
    refine inv_of_running hst { hc with } ?_
    simp only [PhaseReady, hp]
    refine ⟨hm, hq, by omega, by simp; omega, hread _ ?_⟩
    rw [show (0 : Word).toNat = 0 from rfl, Nat.zero_add, Nat.mod_eq_of_lt (by omega)]
    omega
  · -- the last round is done
    refine inv_advance hadv hst { hc with } fun _ p hnext => ?_
    obtain rfl : Phase.unpack = p := by simpa [hp, chainNext] using hnext
    exact ⟨by show 1 ≤ s.n.toNat; omega, hn⟩

theorem phaseUnpack_inv {s t : State} (hi : Inv s) (hp : s.ph = .unpack) (h : phaseUnpack s = .next t) : Inv t := by
  have hst := phaseUnpack_stored hi.stored h
  have hc := hi.clean (hi.busy_of_phase hp (by simp))
  obtain ⟨h1, h2⟩ := hi.unpackReady hp
  rw [phaseUnpack_eq s h1 h2] at h
  rcases advance_cases h with rfl | ⟨-, p, hnext, -⟩
  · exact inv_of_resting hst (resting_complete hc.cause hc.einfo hc.empty unpackResult_rejected)
  · simp [hp, chainNext] at hnext

theorem phaseB64_inv {s t : State} (hi : Inv s) (hp : s.ph = .b64) (h : phaseB64 s = .next t) : Inv t := by
  have hst := phaseB64_stored hi.stored h
  have hc := hi.clean (hi.busy_of_phase hp (by simp))
  rw [phaseB64_eq s (phase_ranges.2.2.2.2.2 h)] at h
  refine inv_advance h hst { hc with } fun _ p hnext => ?_
  simp [hp, chainNext] at hnext

theorem engineStep_inv {s t : State} (hi : Inv s) (h : engineStep s = .next t) : Inv t := by
  unfold engineStep at h
  split at h
  · cases h
  · next hp => exact phasePackm_inv hi hp h
  · next hp => exact phasePackk_inv hi hp h
  · next hp => exact phaseMixi_inv hi hp h
  · next hp => exact phaseMixr_inv hi hp h
  · next hp => exact phaseUnpack_inv hi hp h
  · next hp => exact phaseB64_inv hi hp h

theorem engineTurn_inv {s t : State} (hi : Inv s) (h : engineTurn s = .next t) : Inv t := by
  unfold engineTurn at h
  split at h
  · exact engineStep_inv hi h
  · cases h; exact hi

/-! ## The engine's part of a whole command keeps the invariant -/

theorem mixRun_inv {s t : State} (hi : Inv s) (hp : s.ph = .mixi) (h : mixRun s = .next t) : Inv t := by
  have hst := mixRun_stored hi.stored h
  have hb := hi.busy_of_phase hp (by simp)
  have hm := hi.mixiReady hp
  obtain ⟨hn2, hn, -, -⟩ := (mixable_iff s).mp hm
  rw [mixRun_eq s hb hi.wOk.1 hm] at h
  refine inv_advance h hst { hi.clean hb with } fun _ p hnext => ?_
  obtain rfl : Phase.unpack = p := by simpa [chainNext] using hnext
  exact ⟨by show 1 ≤ s.n.toNat; omega, hn⟩

/-- The phases of ENCODE follow one another (R142). -/
theorem encodeRun_inv {s t : State} (hi : Inv s) (hp : s.ph = .packm) (hch : s.chain = true)
    (h : encodeRun s = .next t) : Inv t := by
  obtain ⟨a, ha, h⟩ := andThen_eq_next h
  obtain ⟨b, hb, h⟩ := andThen_eq_next h
  obtain ⟨c, hc, h⟩ := andThen_eq_next h
  have hia := phasePackm_inv hi hp ha
  rw [phasePackm_eq s (hi.packmReady hp).1] at ha
  obtain ⟨hpa, hcha⟩ := advance_hands_over ha hch (by rw [hp]; rfl)
  have hib := phasePackk_inv hia hpa hb
  rw [phasePackk_eq a (hia.packkReady hpa).1] at hb
  obtain ⟨hpb, hchb⟩ := advance_hands_over hb hcha (by rw [hpa]; rfl)
  have hic := mixRun_inv hib hpb hc
  rw [mixRun_eq b (hib.busy_of_phase hpb (by simp)) hib.wOk.1 (hib.mixiReady hpb)] at hc
  obtain ⟨hpc, -⟩ := advance_hands_over hc hchb rfl
  exact phaseUnpack_inv hic hpc h

/-- The phase in which an accepted command starts (R172); SRESET starts none. -/
def firstPhase : Instr → Phase
  | .packm _ | .encode => .packm
  | .packk _  => .packk
  | .unpack _ => .unpack
  | .mix      => .mixi
  | .b64o | .b64p => .b64
  | .sreset   => .idle

theorem enginePart_inv {i : Instr} {s t : State} (hi : Inv s) (hp : s.ph = firstPhase i)
    (hch : i = .encode → s.chain = true) (h : enginePart i s = .next t) : Inv t := by
  cases i with
  | packm _ => exact phasePackm_inv hi hp h
  | packk _ => exact phasePackk_inv hi hp h
  | unpack _ => exact phaseUnpack_inv hi hp h
  | mix => exact mixRun_inv hi hp h
  | encode => exact encodeRun_inv hi hp (hch rfl) h
  | b64o | b64p => exact phaseB64_inv hi hp h
  | sreset => cases h; exact hi

/-! ## Resets keep the invariant -/

theorem Inv.withEvents {s : State} (h : Inv s) (es : List Event) : Inv (s.withEvents es) := { h with }

theorem Inv.reply {s : State} (h : Inv s) (v : Word) : Inv (s.reply v) := { h with }

theorem inv_resetWith {c : Config} (h : c.wf = true) : Inv (State.resetWith c) :=
  inv_of_resting
    { cfgOk := h, ptOk := Memory.ok_nil _, kbOk := Memory.ok_nil _, wOk := Memory.ok_nil _, kOk := Memory.ok_nil _,
      obOk := Memory.ok_nil _, syOk := Memory.ok_nil _, obLenOk := Nat.zero_le _, syLenOk := Nat.zero_le _ }
    { idle := rfl, phase := rfl, chain := rfl, noErrorNoCause := fun _ => ⟨rfl, rfl⟩,
      rejected := fun h => by simp at h, emptied := fun h => by simp at h }

theorem softReset_inv {s : State} (h : s.cfg.wf = true) : Inv (softReset s) := { inv_resetWith h with }

/-! ## Issuing a command keeps the invariant -/

/-- A fault touches ERR, CAUSE and EINFO only, and none of R37's clauses limits the last two while ERR = 1 (R206). -/
theorem raiseFault_inv {s : State} (hi : Inv s) (hs : s.ready) (c : Cause) (info : Word) :
    Inv (raiseFault c info s) :=
  have hr := hi.resting hs.1
  inv_of_resting { hi.stored with } { hr with noErrorNoCause := fun h => by simp at h }

theorem encodeShortCircuit_inv {s : State} (hi : Inv s) (hs : s.ready) : Inv (encodeShortCircuit s) :=
  have hr := hi.resting hs.1
  inv_of_resting { hi.stored with obLenOk := Nat.zero_le _ }
    { hr with rejected := fun _ => ⟨rfl, rfl⟩, emptied := fun _ => ⟨rfl, rfl⟩ }

theorem acceptIf_inv {cs : List Check} {v : Word} {ph : Phase} {ch : Bool} {s : State} (hi : Inv s) (hs : s.ready)
    (h : (∀ c ∈ cs, c.fails = false) → PhaseReady (accept v ph ch s)) : Inv (acceptIf cs v ph ch s) := by
  rcases acceptIf_cases cs v ph ch s with ⟨hall, he⟩ | ⟨c, -, -, he⟩
  · obtain ⟨hcause, heinfo⟩ := hi.noErrorNoCause hs.2
    rw [he]
    exact inv_of_running { hi.stored with } ⟨rfl, rfl, hs.2, rfl, rfl, hcause, heinfo⟩ (h hall)
  · rw [he]
    exact raiseFault_inv hi hs c.cause c.info

theorem issue_inv (i : Instr) {s : State} (hi : Inv s) (hs : s.ready) : Inv (issue i s) := by
  cases i with
  | packm t | packk t =>
    refine acceptIf_inv hi hs fun h => ?_
    simpa [PhaseReady, lengthCheck] using h
  | unpack t =>
    refine acceptIf_inv hi hs fun h => ?_
    obtain ⟨hn, h0⟩ : s.n.toNat ≤ nMax s.cfg ∧ s.n ≠ 0 := by simpa [lengthCheck] using h
    exact ⟨Nat.pos_of_ne_zero (mt (BitVec.eq_of_toNat_eq (y := 0)) h0), hn⟩
  | mix =>
    refine acceptIf_inv hi hs fun h => (mixable_iff _).mpr ?_
    obtain ⟨hn, hn2, hkn, hk4⟩ :
        s.n.toNat ≤ nMax s.cfg ∧ 1 < s.n.toNat ∧ s.kn.toNat ≤ knMax s.cfg ∧ 4 ≤ s.kn.toNat := by
      simpa [lengthCheck] using h
    exact ⟨hn2, hn, hk4, hkn⟩
  | encode =>
    by_cases h0 : s.ptLen = 0
    · rw [issue, issueEncode, if_pos h0]
      exact encodeShortCircuit_inv hi hs
    · rw [issue, issueEncode, if_neg h0]
      refine acceptIf_inv hi hs fun h => ?_
      obtain ⟨hpt, hkb, hk4⟩ :
          s.ptLen.toNat ≤ s.cfg.ptMax ∧ s.kbLen.toNat ≤ s.cfg.kbMax ∧ 4 ≤ wordsFor s.kbLen.toNat := by
        simpa [encodeChecks, lengthCheck] using h
      have h13 : 13 ≤ s.kbLen.toNat := by unfold wordsFor at hk4; omega
      exact ⟨hpt, fun _ => ⟨Nat.pos_of_ne_zero (mt (BitVec.eq_of_toNat_eq (y := 0)) h0), h13, hkb⟩⟩
  | b64o =>
    refine acceptIf_inv (cs := []) (ph := .b64) hi hs fun _ => ?_
    have hsrc : (encode .b64o).getLsbD 5 = false := by decide
    exact ⟨rfl, fun h => absurd (hsrc.symm.trans h) (by simp)⟩
  | b64p =>
    refine acceptIf_inv hi hs fun h => ?_
    exact ⟨rfl, fun _ => by simpa [lengthCheck] using h⟩
  | sreset => exact softReset_inv hi.cfgOk

theorem acceptIf_accepted {cs : List Check} {v : Word} {ph : Phase} {ch : Bool} {s : State}
    (hb : s.status.busy = false) (h : (acceptIf cs v ph ch s).status.busy = true) :
    acceptIf cs v ph ch s = accept v ph ch s := by
  rcases acceptIf_cases cs v ph ch s with ⟨-, he⟩ | ⟨c, -, -, he⟩
  · exact he
  · rw [he] at h
    simp [hb] at h

/-- An issue after which the engine has a step has accepted the command (R172). -/
theorem issue_accepted {i : Instr} {s : State} (hb : s.status.busy = false) (h : (issue i s).status.busy = true) :
    issue i s = accept (encode i) (firstPhase i) (decide (i = .encode)) s := by
  cases i with
  | packm _ | packk _ | unpack _ | mix | b64o | b64p => exact acceptIf_accepted hb h
  | encode =>
    rw [issue, issueEncode] at h ⊢
    split at h
    · exact absurd (hb.symm.trans h) (by simp)
    · next h0 => rw [if_neg h0]; exact acceptIf_accepted hb h
  | sreset => cases h

/-- In every idle state a command write after which the engine has a step has accepted the command (R170, R172). -/
theorem writeCommand_accepted {i : Instr} {s : State} (hb : s.status.busy = false)
    (h : (writeCommand (encode i) s).status.busy = true) :
    writeCommand (encode i) s = accept (encode i) (firstPhase i) (decide (i = .encode)) s := by
  cases he : s.status.err with
  | true =>
    rw [writeCommand_err _ s hb he] at h
    split at h
    · cases h
    · exact absurd (hb.symm.trans h) (by simp)
  | false =>
    rw [writeCommand_encode i s ⟨hb, he⟩] at h ⊢
    exact issue_accepted hb h

theorem writeCommand_inv (v : Word) {s : State} (hi : Inv s) : Inv (writeCommand v s) := by
  rcases writeCommand_cases v s with h | h | ⟨hs, h | ⟨i, h⟩⟩ <;> rw [h]
  · exact hi
  · exact softReset_inv hi.cfgOk
  · exact raiseFault_inv hi hs _ _
  · exact issue_inv i hi hs

/-! ## Every action keeps the invariant -/

theorem storeEntry_inv {s : State} (hi : Inv s) (hs : s.ready) {sp : Space} {i : Nat} (v : Word)
    (hcap : i < capacity s.cfg sp) : Inv (storeEntry s sp i v) := by
  obtain ⟨hstatus, hcause, heinfo, -, hph, hch, -, hob, -⟩ := storeEntry_keeps s sp i v
  have hr := hi.resting hs.1
  refine inv_of_resting (storeEntry_stored hi.stored v hcap) ?_
  constructor
  · rw [hstatus]; exact hr.idle
  · rw [hph]; exact hr.phase
  · rw [hch]; exact hr.chain
  · rw [hstatus, hcause, heinfo]; exact hr.noErrorNoCause
  · rw [hstatus, hob]; exact hr.rejected
  · rw [hstatus, hob]; exact hr.emptied

theorem writeEntry_inv {s : State} (hi : Inv s) {sp : Space} {i : Nat} (v : Word) (hcap : i < capacity s.cfg sp) :
    Inv (writeEntry s sp i v) := by
  unfold writeEntry
  split
  · exact writeCommand_inv v hi
  · split
    · exact hi
    · next hgate => exact storeEntry_inv hi (by simpa [State.ready] using hgate) v hcap

theorem exec_inv {i : Instr} {s t : State} (hi : Inv s) (h : exec i s = .next t) : Inv t := by
  rw [exec_eq] at h
  split at h
  · cases h; exact hi
  next hb =>
    have hw := writeCommand_inv (encode i) hi
    unfold ifAccepted at h
    split at h
    · next hbusy =>
      have hacc := writeCommand_accepted (by simpa using hb) hbusy
      exact enginePart_inv hw (by rw [hacc, accept_ph]) (fun hi => by rw [hacc]; simpa using hi) h
    · cases h; exact hw

theorem Acted.inv {s t : State} (hi : Inv s) (h : Acted s t) : Inv t := by
  cases h with
  | turn h => exact engineTurn_inv hi h
  | replied v h => rw [h]; exact hi.reply v
  | wrote sp i v hcap h => rw [h]; exact writeEntry_inv hi v hcap
  | executed i h => exact exec_inv hi h
  | reset h => rw [h]; exact softReset_inv hi.cfgOk

/-- Settles O53: whatever action a step is, it keeps what is stored in form, and the phase finds what it needs. -/
theorem stepKeepsTheInvariant : Obligations.StepKeepsTheInvariant := by
  intro s t hi h
  obtain ⟨es, ha⟩ := step_acted h
  exact ha.inv (hi.withEvents es)

theorem sampleConfig_wf : sampleConfig.wf = true := by decide +kernel

/-- Settles O54: every register and every buffer is empty after reset. -/
theorem resetMeetsTheInvariant : Obligations.ResetMeetsTheInvariant :=
  ⟨fun _ es h => (inv_resetWith h).withEvents es, inv_resetWith sampleConfig_wf⟩

/-- A run from reset keeps the parameters and the invariant, by induction on its steps. -/
theorem Reachable.inv {c : Config} (hc : c.wf = true) {s : State} (h : Reachable c s) : s.cfg = c ∧ Inv s := by
  induction h with
  | reset es => exact ⟨rfl, (inv_resetWith hc).withEvents es⟩
  | step _ hst ih =>
    obtain ⟨hcfg, hinv⟩ := ih
    exact ⟨(parametersAreConstant _ _ hst).trans hcfg, stepKeepsTheInvariant _ _ hinv hst⟩

/-- Settles O55: the invariant, which every run keeps, contains the five clauses. -/
theorem reachableStatesAreLegal : Obligations.ReachableStatesAreLegal := by
  intro c s hc h
  obtain ⟨rfl, hinv⟩ := h.inv hc
  exact ⟨hinv.busyIsClean, hinv.idleRests, hinv.noErrorNoCause, hinv.mixing, hinv.rejected, hinv.emptied⟩

/-! ## Reading the registers -/

theorem statusWord_eq (f : Status) :
    statusWord f = (if f.busy then 1 else 0) + (if f.done then 2 else 0) + (if f.err then 4 else 0) +
      (if f.rej then 8 else 0) + (if f.empty then 16 else 0) := by
  obtain ⟨busy, done, err, rej, empty⟩ := f
  revert busy done err rej empty
  decide

theorem phaseWord_eq (ph : Phase) (ch : Bool) :
    phaseWord ph ch = (if ch then 8 else 0) + (phaseCode ph).setWidth 32 := by
  cases ch <;> cases ph <;> decide

theorem readEntry_resetWith (c : Config) (sp : Space) (i : Nat) : readEntry (State.resetWith c) sp i = 0 := by
  cases sp with
  | csr =>
    simp only [readEntry, readCsr]
    split <;> simp [statusWord_eq, phaseWord_eq, causeCode, phaseCode]
  | _ => rfl

/-- Settles O7: no entry of the reset state is listed, and SRESET's word leads to that state. -/
theorem resetLeavesZero : Obligations.ResetLeavesZero := by
  refine ⟨readEntry_resetWith, fun s hb => ⟨softReset s, ?_, readEntry_resetWith s.cfg⟩⟩
  rw [hostWrite_allowed (sp := .csr) (bytes := 4) (by simp [capacity]) rfl, writeEntry_command, writeCommand_sreset hb]

/-- Settles O45: each flag and each code at its place in its register's word. -/
theorem statusRegistersBitByBit : Obligations.StatusRegistersBitByBit := by
  intro s
  refine ⟨statusWord_eq s.status, ?_, ?_, ?_, ?_, ?_, ?_, ?_⟩
  case refine_7 =>
    refine (phaseWord_eq s.ph s.chain).trans ?_
    cases s.ph <;> rfl
  all_goals
    intro h
    simp only [readCsr, h, causeCode]

end Sys2Proof.Machine
end

section
/-! Proofs about the host port and the bus: when an access is answered, dropped or refused, which entry a bus address
names, that no step under the invariant stops but at a refused access, and the obligations of 20_memory.md. -/

namespace Sys2Proof.Machine

/-! ## Accesses that are answered and accesses that are refused (R53, R55) -/

/-- The outcome answers a next state if there is no reason to refuse, and is that refusal if there is one. -/
def Judged (o : Outcome) : Option Refusal → Prop
  | none   => ∃ t, o = .next t
  | some r => o = .refused r

theorem Judged.refused {o : Outcome} {x : Option Refusal} {r : Refusal} (h : Judged o x) (hx : x = some r) :
    o = .refused r := by
  subst hx
  exact h

theorem Judged.ne_fault {o : Outcome} {x : Option Refusal} (h : Judged o x) (f : Fault) : o ≠ .fault f := by
  rintro rfl
  cases x with
  | none => obtain ⟨t, ht⟩ := h; cases ht
  | some r => cases h

theorem Judged.eq_some {x : Option Refusal} {r : Refusal} (h : Judged (.refused r) x) : x = some r := by
  cases x with
  | none => obtain ⟨t, ht⟩ := h; cases ht
  | some r' => cases h; rfl

theorem hostRead_judged (s : State) (sp : Space) (i bytes : Nat) :
    Judged (hostRead sp i bytes s) (accessRefusal s.cfg sp i bytes) := by
  unfold hostRead
  cases accessRefusal s.cfg sp i bytes with
  | none => exact ⟨_, rfl⟩
  | some r => rfl

theorem hostWrite_judged (s : State) (sp : Space) (i bytes : Nat) (v : Word) :
    Judged (hostWrite sp i bytes v s) (accessRefusal s.cfg sp i bytes) := by
  unfold hostWrite
  cases accessRefusal s.cfg sp i bytes with
  | none => exact ⟨_, rfl⟩
  | some r => rfl

theorem accessRefusal_outside {c : Config} {sp : Space} {i bytes : Nat} (h : capacity c sp ≤ i) :
    accessRefusal c sp i bytes = some .noSuchEntry := if_pos h

theorem accessRefusal_width {c : Config} {sp : Space} {i bytes : Nat} (h : i < capacity c sp)
    (hb : bytes ≠ sp.entryBytes) : accessRefusal c sp i bytes = some .wrongWidth := by
  rw [accessRefusal, if_neg (Nat.not_le.mpr h), if_pos hb]

/-- Settles O48: the index is looked at first, then the width. -/
theorem accessesOutsideAreRefused : Obligations.AccessesOutsideAreRefused := by
  intro s sp i bytes v nCap cap size
  have hcap : cap = capacity s.cfg sp := by cases sp <;> rfl
  have hsize : size = sp.entryBytes := by cases sp <;> rfl
  rw [hcap, hsize]
  constructor
  · intro hi
    have hr := accessRefusal_outside (bytes := bytes) hi
    exact ⟨(hostRead_judged s sp i bytes).refused hr, (hostWrite_judged s sp i bytes v).refused hr⟩
  · intro hi hb
    have hr := accessRefusal_width hi hb
    exact ⟨(hostRead_judged s sp i bytes).refused hr, (hostWrite_judged s sp i bytes v).refused hr⟩

/-! ## Host reads (R54, R57) -/

/-- The register file, number by number (R34). -/
theorem readCsr_eq_getD (s : State) {i : Nat} (h : i < 17) :
    readCsr s i = [0, statusWord s.status, causeCode s.cause, s.einfo, s.ptLen, s.kbLen, s.n, s.kn, s.obLen,
      s.syLen, s.cur, phaseWord s.ph s.chain, s.q, s.rnd, s.pos, s.sum, s.zreg].getD i 0 := by
  interval_cases i <;> rfl

/-- Settles O44: a read inside its space answers the entry as it stands. -/
theorem hostReadsTheCurrentContent : Obligations.HostReadsTheCurrentContent := by
  intro s i answers
  refine ⟨fun h => ?_, fun h => ?_, fun h => ?_, fun h => ?_, fun h => ?_, fun h => ?_, fun h => ?_⟩
  case refine_1 =>
    rw [← readCsr_eq_getD s h]
    exact hostRead_allowed (sp := .csr) h rfl
  all_goals exact hostRead_allowed h rfl

/-! ## Host writes (R56) -/

theorem hostWrite_open {s : State} (hs : s.ready) {sp : Space} {i bytes : Nat} {v : Word}
    (hi : i < capacity s.cfg sp) (hb : bytes = sp.entryBytes) (hc : ¬ (sp = .csr ∧ i = 0)) :
    hostWrite sp i bytes v s = .next (storeEntry s sp i v) := by
  rw [hostWrite_allowed hi hb, writeEntry_open hs hc]

theorem hostWrite_shut {s : State} (h : s.status.busy = true ∨ s.status.err = true) {sp : Space} {i bytes : Nat}
    {v : Word} (hi : i < capacity s.cfg sp) (hb : bytes = sp.entryBytes) (hc : ¬ (sp = .csr ∧ i = 0)) :
    hostWrite sp i bytes v s = .next s := by
  rw [hostWrite_allowed hi hb, writeEntry_dropped h hc]

/-- The gate is open or shut. -/
theorem ready_or_shut (s : State) : s.ready ∨ s.status.busy = true ∨ s.status.err = true := by
  unfold State.ready
  cases s.status.busy <;> cases s.status.err <;> simp

/-- A write to what the host only reads changes nothing, whether the gate is open or shut. -/
theorem hostWrite_readOnly {s : State} {sp : Space} {i bytes : Nat} {v : Word} (hi : i < capacity s.cfg sp)
    (hb : bytes = sp.entryBytes)
    (hro : sp = .ob ∨ sp = .sy ∨ (sp = .csr ∧ i ≠ 0 ∧ i ≠ 4 ∧ i ≠ 5 ∧ i ≠ 6 ∧ i ≠ 7)) :
    hostWrite sp i bytes v s = .next s := by
  have hc : ¬ (sp = .csr ∧ i = 0) := by
    rintro ⟨rfl, rfl⟩
    simp at hro
  rcases ready_or_shut s with hs | hs
  · rw [hostWrite_open hs hi hb hc, storeEntry_readOnly s v (hro.imp_right (.imp_right fun ⟨h, _, h'⟩ => ⟨h, h'⟩))]
  · exact hostWrite_shut hs hi hb hc

/-- Settles O46: the gate open, the gate shut, and the targets that no write reaches. -/
theorem hostWriteGate : Obligations.HostWriteGate := by
  intro s v b drops
  have hbyte : (b.setWidth 32).setWidth 8 = b := by simp
  refine ⟨fun hs => ?isOpen, fun hs => ?isShut, fun i hi => ?ob, fun i hi => ?sy, fun i hi => ?csr⟩
  case isOpen =>
    have hreg : ∀ i, 0 < i → i < 17 → hostWrite .csr i 4 v s = .next (storeCsr s i v) := fun i hpos hlt =>
      hostWrite_open (sp := .csr) hs hlt rfl fun h => hpos.ne' h.2
    refine ⟨fun i hi => ?_, fun i hi => ?_, fun i hi => hostWrite_open hs hi rfl (by simp),
      fun i hi => hostWrite_open hs hi rfl (by simp), hreg 4 (by simp) (by simp), hreg 5 (by simp) (by simp),
      hreg 6 (by simp) (by simp), hreg 7 (by simp) (by simp)⟩
    · rw [hostWrite_open (bytes := 1) hs hi rfl (by simp), storeEntry, hbyte]
    · rw [hostWrite_open (bytes := 1) hs hi rfl (by simp), storeEntry, hbyte]
  case isShut =>
    refine ⟨fun i hi => ?_, fun i hi => ?_, fun i hi => ?_, fun i hi => ?_, fun i hi hi' => ?_⟩
    case refine_5 => exact hostWrite_shut (sp := .csr) hs (by simp [capacity]; omega) rfl (by simp; omega)
    all_goals exact hostWrite_shut hs hi rfl (by simp)
  case ob => exact hostWrite_readOnly hi rfl (.inl rfl)
  case sy => exact hostWrite_readOnly hi rfl (.inr (.inl rfl))
  case csr => exact hostWrite_readOnly (sp := .csr) (by simp [capacity]; omega) rfl (.inr (.inr ⟨rfl, by omega⟩))

/-! ## Buffers (R54, R56) -/

/-- Settles O47: the law of a write. -/
theorem storedEntryReadsBack : Obligations.StoredEntryReadsBack := by
  intro width m i v cap hm hi
  have hwf := hm.1
  refine ⟨Memory.ok_write m cap i v hi hm, ?_, fun j hj => ?_⟩
  · rw [Memory.read_write m hwf, if_pos rfl]
  · rw [Memory.read_write m hwf, if_neg hj]

/-! ## Bus addresses (R53, R58) -/

theorem Config.mapOk_pairwise {c : Config} (h : c.mapOk = true) : c.map.Pairwise fun m n => m.apart n = true := by
  simp only [Config.mapOk, Bool.and_eq_true, decide_eq_true_eq] at h
  exact h.2

theorem apart_symm {m n : MapWindow} (h : m.apart n = true) : n.apart m = true := by
  simp only [MapWindow.apart, Bool.and_eq_true, Bool.or_eq_true, bne_iff_ne, decide_eq_true_eq] at h ⊢
  obtain ⟨haddr, hentry⟩ := h
  refine ⟨fun j hj k hk => (haddr k hk j hj).symm, ?_⟩
  rcases hentry with (hs | hle) | hle
  · exact .inl (.inl hs.symm)
  · exact .inr hle
  · exact .inl (.inr hle)

theorem busEntry_addressOf {c : Config} (hc : c.mapOk = true) {m : MapWindow} (hm : m ∈ c.map) {k : Nat}
    (hk : k < m.count) : busEntry c (m.addressOf k) = some (m.space, m.first + k) :=
  findWindow_eq (Config.mapOk_pairwise hc) hm (windowEntry_addressOf m k hk)

/-- An address that names an entry is that entry's address in one of the windows. -/
theorem busEntry_eq_some {c : Config} {a : Nat} {x : Space × Nat} (h : busEntry c a = some x) :
    ∃ m ∈ c.map, ∃ k, k < m.count ∧ a = m.addressOf k ∧ x = (m.space, m.first + k) := by
  obtain ⟨m, hm, hw⟩ := List.exists_of_findSome?_eq_some h
  exact ⟨m, hm, windowEntry_eq_some hw⟩

theorem busEntry_eq_none {c : Config} {a : Nat} (h : ∀ m ∈ c.map, ∀ k, k < m.count → a ≠ m.addressOf k) :
    busEntry c a = none := by
  by_contra hne
  obtain ⟨x, hx⟩ := Option.ne_none_iff_exists'.mp hne
  obtain ⟨m, hm, k, hk, ha, -⟩ := busEntry_eq_some hx
  exact h m hm k hk ha

/-- No entry is bound twice (R58): two windows that name one entry are the same window, and at the same place. -/
theorem busEntry_injective {c : Config} (hc : c.mapOk = true) {a b : Nat} {x : Space × Nat}
    (ha : busEntry c a = some x) (hb : busEntry c b = some x) : a = b := by
  obtain ⟨m, hm, j, hj, rfl, rfl⟩ := busEntry_eq_some ha
  obtain ⟨n, hn, k, hk, rfl, hx⟩ := busEntry_eq_some hb
  obtain ⟨hspace, hentry⟩ := Prod.mk.inj hx
  by_cases hmn : m = n
  · subst hmn
    rw [Nat.add_left_cancel hentry]
  · have : Std.Symm fun m n : MapWindow => m.apart n = true := ⟨fun _ _ => apart_symm⟩
    exact absurd hentry (apart_entry ((Config.mapOk_pairwise hc).forall hm hn hmn) hj hk hspace)

theorem busRead_entry {s : State} {a bytes i : Nat} {sp : Space} (h : busEntry s.cfg a = some (sp, i)) :
    busRead a bytes s = hostRead sp i bytes s := by
  rw [busRead, h]

theorem busWrite_entry {s : State} {a bytes i : Nat} {v : Word} {sp : Space}
    (h : busEntry s.cfg a = some (sp, i)) : busWrite a bytes v s = hostWrite sp i bytes v s := by
  rw [busWrite, h]

theorem busRead_noEntry {s : State} {a bytes : Nat} (h : busEntry s.cfg a = none) :
    busRead a bytes s = .refused .noSuchAddress := by
  rw [busRead, h]

theorem busWrite_noEntry {s : State} {a bytes : Nat} {v : Word} (h : busEntry s.cfg a = none) :
    busWrite a bytes v s = .refused .noSuchAddress := by
  rw [busWrite, h]

/-- Settles O49: the map is a bijection between the entries it binds and their addresses. -/
theorem busAddressesNameEntries : Obligations.BusAddressesNameEntries := by
  intro s v bytes hc
  refine ⟨fun m hm k hk => ?_, fun a b x => busEntry_injective hc, fun a ha => ?_⟩
  · have he := busEntry_addressOf hc hm hk
    exact ⟨busRead_entry he, busWrite_entry he⟩
  · have hn := busEntry_eq_none ha
    exact ⟨busRead_noEntry hn, busWrite_noEntry hn⟩

/-! ## Under the invariant the engine's steps are answered -/

theorem advance_answers {s : State} (h : s.chain = true → s.ph = .unpack ∨ ∃ p, chainNext s.ph = some p) :
    ∃ t, advance s = .next t := by
  cases hc : s.chain with
  | false => exact ⟨_, advance_single s hc⟩
  | true =>
    rcases h hc with hp | ⟨p, hp⟩
    · exact ⟨complete s, by simp [advance, hc, hp]⟩
    · exact ⟨_, advance_chained hc hp⟩

theorem mixAdvance_answers {s : State} (hp : s.ph = .mixr) : ∃ t, mixAdvance s = .next t := by
  unfold mixAdvance
  split
  · exact ⟨_, rfl⟩
  · dsimp only
    split
    · exact advance_answers fun _ => .inr ⟨.unpack, by rw [hp]; rfl⟩
    · exact ⟨_, rfl⟩

theorem phasePackm_answers {s : State} (hi : Inv s) (hp : s.ph = .packm) : ∃ t, phasePackm s = .next t := by
  rw [phasePackm_eq s (hi.packmReady hp).1]
  exact advance_answers fun _ => .inr ⟨.packk, by rw [hp]; rfl⟩

theorem phasePackk_answers {s : State} (hi : Inv s) (hp : s.ph = .packk) : ∃ t, phasePackk s = .next t := by
  rw [phasePackk_eq s (hi.packkReady hp).1]
  exact advance_answers fun _ => .inr ⟨.mixi, by rw [hp]; rfl⟩

theorem phaseMixr_answers {s : State} (hi : Inv s) (hp : s.ph = .mixr) : ∃ t, phaseMixr s = .next t := by
  obtain ⟨hn2, hn, hk4, hkn, -, -, hpos, -⟩ := hi.mixing hp
  rw [phaseMixr_eq s ((mixable_iff s).mpr ⟨hn2, hn, hk4, hkn⟩) hpos]
  exact mixAdvance_answers hp

theorem phaseUnpack_answers {s : State} (hi : Inv s) (hp : s.ph = .unpack) : ∃ t, phaseUnpack s = .next t := by
  obtain ⟨h1, h2⟩ := hi.unpackReady hp
  rw [phaseUnpack_eq s h1 h2]
  exact advance_answers fun _ => .inl hp

/-- What phase 6 reads lies inside its buffer: PT as checked at acceptance, OB always (R157, R156). -/
theorem b64Source_le {s : State} (hi : Inv s) (hp : s.ph = .b64) :
    (b64Source s).2 ≤ if sEff s then s.cfg.ptMax else obMax s.cfg := by
  unfold b64Source
  split
  · next hs => exact (hi.b64Ready hp).2 hs
  · exact hi.obLenOk

theorem phaseB64_answers {s : State} (hi : Inv s) (hp : s.ph = .b64) : ∃ t, phaseB64 s = .next t := by
  rw [phaseB64_eq s (b64Source_le hi hp)]
  exact ⟨_, advance_single _ (hi.b64Ready hp).1⟩

theorem engineStep_answers {s : State} (hi : Inv s) (hb : s.status.busy = true) : ∃ t, engineStep s = .next t := by
  unfold engineStep
  split
  · next hp => exact absurd hp (hi.busyHasPhase hb)
  · next hp => exact phasePackm_answers hi hp
  · next hp => exact phasePackk_answers hi hp
  · next hp => exact ⟨_, phaseMixi_eq s (hi.mixiReady hp)⟩
  · next hp => exact phaseMixr_answers hi hp
  · next hp => exact phaseUnpack_answers hi hp
  · next hp => exact phaseB64_answers hi hp

theorem engineTurn_answers {s : State} (hi : Inv s) : ∃ t, engineTurn s = .next t := by
  unfold engineTurn
  split
  · next hb => exact engineStep_answers hi hb
  · exact ⟨s, rfl⟩

/-! ## Under the invariant every instruction is answered -/

/-- Inside ENCODE the packing of the plaintext hands over to the packing of the key (R142). -/
theorem phasePackm_chained {s : State} (hi : Inv s) (hp : s.ph = .packm) (hc : s.chain = true) :
    ∃ t, phasePackm s = .next t ∧ Inv t ∧ t.ph = .packk ∧ t.chain = true := by
  have h := (phasePackm_eq s (hi.packmReady hp).1).trans (advance_chained (p := .packk) hc (by rw [hp]; rfl))
  exact ⟨_, h, phasePackm_inv hi hp h, rfl, hc⟩

theorem phasePackk_chained {s : State} (hi : Inv s) (hp : s.ph = .packk) (hc : s.chain = true) :
    ∃ t, phasePackk s = .next t ∧ Inv t ∧ t.ph = .mixi ∧ t.chain = true := by
  have h := (phasePackk_eq s (hi.packkReady hp).1).trans (advance_chained (p := .mixi) hc (by rw [hp]; rfl))
  exact ⟨_, h, phasePackk_inv hi hp h, rfl, hc⟩

theorem mixRun_chained {s : State} (hi : Inv s) (hp : s.ph = .mixi) (hc : s.chain = true) :
    ∃ t, mixRun s = .next t ∧ Inv t ∧ t.ph = .unpack := by
  have h := (mixRun_eq s (hi.busy_of_phase hp (by simp)) hi.wOk.1 (hi.mixiReady hp)).trans
    (advance_chained (p := .unpack) hc rfl)
  exact ⟨_, h, mixRun_inv hi hp h, rfl⟩

theorem mixRun_answers {s : State} (hi : Inv s) (hp : s.ph = .mixi) : ∃ t, mixRun s = .next t := by
  rw [mixRun_eq s (hi.busy_of_phase hp (by simp)) hi.wOk.1 (hi.mixiReady hp)]
  exact advance_answers fun _ => .inr ⟨.unpack, rfl⟩

theorem encodeRun_answers {s : State} (hi : Inv s) (hp : s.ph = .packm) (hc : s.chain = true) :
    ∃ t, encodeRun s = .next t := by
  obtain ⟨a, ha, hia, hpa, hca⟩ := phasePackm_chained hi hp hc
  obtain ⟨b, hb, hib, hpb, hcb⟩ := phasePackk_chained hia hpa hca
  obtain ⟨c, hc, hic, hpc⟩ := mixRun_chained hib hpb hcb
  rw [encodeRun, ha, andThen_next, hb, andThen_next, hc, andThen_next]
  exact phaseUnpack_answers hic hpc

theorem enginePart_answers {i : Instr} {s : State} (hi : Inv s) (hp : s.ph = firstPhase i)
    (hc : i = .encode → s.chain = true) : ∃ t, enginePart i s = .next t := by
  cases i with
  | packm _ => exact phasePackm_answers hi hp
  | packk _ => exact phasePackk_answers hi hp
  | unpack _ => exact phaseUnpack_answers hi hp
  | mix => exact mixRun_answers hi hp
  | encode => exact encodeRun_answers hi hp (hc rfl)
  | b64o | b64p => exact phaseB64_answers hi hp
  | sreset => exact ⟨s, rfl⟩

theorem exec_answers (i : Instr) {s : State} (hi : Inv s) : ∃ t, exec i s = .next t := by
  rw [exec_eq]
  split
  · exact ⟨s, rfl⟩
  next hidle =>
    unfold ifAccepted
    split
    · next hbusy =>
      have hacc := writeCommand_accepted (by simpa using hidle) hbusy
      exact enginePart_answers (writeCommand_inv _ hi) (by rw [hacc, accept_ph])
        (fun he => by rw [hacc]; simpa using he)
    · exact ⟨_, rfl⟩

theorem commandStep_answers (v : Word) {s : State} (hi : Inv s) : ∃ t, commandStep v s = .next t := by
  unfold commandStep
  split
  · exact exec_answers _ hi
  · exact ⟨_, rfl⟩

/-! ## Where a step stops -/

/-- Why a bus access is refused (R53): as an access of the entry that the address names, or because it names none. -/
def busRefusal (c : Config) (a bytes : Nat) : Option Refusal :=
  match busEntry c a with
  | none         => some .noSuchAddress
  | some (sp, i) => accessRefusal c sp i bytes

theorem busRead_judged (s : State) (a bytes : Nat) : Judged (busRead a bytes s) (busRefusal s.cfg a bytes) := by
  unfold busRead busRefusal
  cases busEntry s.cfg a with
  | none => rfl
  | some x => exact hostRead_judged s x.1 x.2 bytes

theorem busWrite_judged (s : State) (a bytes : Nat) (v : Word) :
    Judged (busWrite a bytes v s) (busRefusal s.cfg a bytes) := by
  unfold busWrite busRefusal
  cases busEntry s.cfg a with
  | none => rfl
  | some x => exact hostWrite_judged s x.1 x.2 bytes v

/-- Why the event is refused under these parameters; only an access ever is. -/
def eventRefusal (c : Config) : Event → Option Refusal
  | .read sp i b | .write sp i b _ => accessRefusal c sp i b
  | .busRead a b | .busWrite a b _ => busRefusal c a b
  | .engine | .command _ | .wait | .hwReset => none

/-- Under the invariant an event is answered unless it is an access that is itself refused. -/
theorem runEvent_judged {s : State} (hi : Inv s) (e : Event) (rest : List Event) :
    Judged (runEvent e rest s) (eventRefusal s.cfg e) := by
  have hi' := hi.withEvents rest
  cases e with
  | engine => exact engineTurn_answers hi'
  | read sp i b => exact hostRead_judged (s.withEvents rest) sp i b
  | write sp i b v => exact hostWrite_judged (s.withEvents rest) sp i b v
  | busRead a b => exact busRead_judged (s.withEvents rest) a b
  | busWrite a b v => exact busWrite_judged (s.withEvents rest) a b v
  | command v => exact commandStep_answers v hi'
  | wait =>
    by_cases hb : s.status.busy = true
    · obtain ⟨t, ht⟩ := engineStep_answers hi hb
      exact ⟨t, (if_pos hb).trans ht⟩
    · exact ⟨_, if_neg hb⟩
  | hwReset => exact ⟨_, rfl⟩

/-- Under the invariant a step is answered, or refused because the schedule's head is. -/
theorem step_judged {s : State} (hi : Inv s) : Judged (step s) (s.events.head?.bind (eventRefusal s.cfg)) := by
  unfold step
  cases s.events with
  | nil => exact engineTurn_answers hi
  | cons e rest => exact runEvent_judged hi e rest

/-- Settles O52: whatever the head of the schedule, the engine and the commands are answered, so only a refused access
stops. -/
theorem stepStopsOnlyAtBadAccesses : Obligations.StepStopsOnlyAtBadAccesses := by
  intro s hi
  have hj := step_judged hi
  refine ⟨hj.ne_fault, fun r h => ?_⟩
  rw [h] at hj
  obtain ⟨e, hhead, hr⟩ := Option.bind_eq_some_iff.mp hj.eq_some
  obtain ⟨rest, hev⟩ := List.head?_eq_some_iff.mp hhead
  refine ⟨e, rest, hev, ?_⟩
  cases e with
  | read sp i b => exact .inl ⟨sp, i, b, rfl, hr⟩
  | write sp i b v => exact .inr (.inl ⟨sp, i, b, v, rfl, hr⟩)
  | busRead a b => exact .inr (.inr (.inl ⟨a, b, rfl, (busRead_judged s a b).refused hr⟩))
  | busWrite a b v => exact .inr (.inr (.inr ⟨a, b, v, rfl, (busWrite_judged s a b v).refused hr⟩))
  | engine | command v | wait | hwReset => cases hr

end Sys2Proof.Machine
end

section
/-! Proofs about command words: the decoder answers an instruction for its own word and for no other, the rows of the
match and mask table select what it answers, and the obligations of 30_encoding.md. -/

namespace Sys2Proof.Machine

/-! ## The decoder against the encoder (R71, R73) -/

/-- A command that has neither `S` nor `T` is answered only for fields that are its own. -/
theorem eq_encodeFields_of_plainCommand {f : CmdFields} {i j : Instr} {op : BitVec 4} (hz : f.zero = 0)
    (hop : f.op = op) (hi : encodeFields i = { zero := 0, s := false, t := false, op := op })
    (h : plainCommand f i = .ok j) : f = encodeFields j := by
  obtain ⟨z, s, t, op'⟩ := f
  subst hz hop
  cases s <;> cases t <;> cases h
  exact hi.symm

/-- Only the fields of an instruction decode to it: each branch of R73's decoder that answers one has tested `ZERO`
and `OP`, and the bits `S` and `T` or read the operand from them. -/
theorem eq_encodeFields_of_decodeFields {f : CmdFields} {i : Instr} (h : decodeFields f = .ok i) :
    f = encodeFields i := by
  obtain ⟨z, s, t, op⟩ := f
  unfold decodeFields at h
  split at h
  · cases h
  next hz =>
  obtain rfl : z = 0 := not_not.mp hz
  split at h
  case isTrue hpack => subst hpack; cases s <;> cases h <;> rfl
  split at h
  case isTrue hunpack => subst hunpack; cases s <;> cases h; rfl
  split at h
  case isTrue hmix => exact eq_encodeFields_of_plainCommand rfl hmix rfl h
  split at h
  case isTrue hencode => exact eq_encodeFields_of_plainCommand rfl hencode rfl h
  split at h
  case isTrue hb64 => subst hb64; cases t <;> cases s <;> cases h <;> rfl
  split at h
  case isTrue hsreset => exact eq_encodeFields_of_plainCommand rfl hsreset rfl h
  cases h

/-- The one word that decodes to an instruction is its own. -/
theorem decode_eq_ok_iff {v : Word} {i : Instr} : decode v = .ok i ↔ v = encode i := by
  constructor
  · intro h
    rw [encode, ← eq_encodeFields_of_decodeFields h, joinFields_fieldsOf]
  · rintro rfl
    exact decode_own_word i

/-- Settles O1: the word is joined from its fields, which are those of the instruction. -/
theorem decodeInvertsEncode : Obligations.DecodeInvertsEncode :=
  fun _ _ _ => decode_eq_ok_iff

/-! ## The eleven legal words (R71) -/

/-- The instructions with each value of their operand, in the order in which R71 lists their words. -/
def allInstrs : List Instr :=
  [.packm false, .packm true, .packk false, .packk true, .unpack false, .unpack true, .mix, .encode, .b64o, .b64p,
    .sreset]

theorem mem_allInstrs (i : Instr) : i ∈ allInstrs := by
  cases i with
  | packm t | packk t | unpack t => cases t <;> decide
  | mix | encode | b64o | b64p | sreset => decide

theorem map_encode_allInstrs :
    allInstrs.map encode = [0x01, 0x11, 0x21, 0x31, 0x02, 0x12, 0x03, 0x04, 0x05, 0x25, 0x0F] := rfl

theorem exists_decode_iff (v : Word) : (∃ i, decode v = .ok i) ↔ v ∈ allInstrs.map encode := by
  simp only [decode_eq_ok_iff, List.mem_map, mem_allInstrs, true_and, eq_comm (a := v)]

/-- Settles O2: the legal words are the words of the eleven instructions, and each decodes to its own. -/
theorem legalWordsAreEleven : Obligations.LegalWordsAreEleven :=
  ⟨decode_own_word (.packm false), decode_own_word (.packm true), decode_own_word (.packk false),
    decode_own_word (.packk true), decode_own_word (.unpack false), decode_own_word (.unpack true),
    decode_own_word .mix, decode_own_word .encode, decode_own_word .b64o, decode_own_word .b64p,
    decode_own_word .sreset, exists_decode_iff⟩

/-- Settles O3: the legal words are instructions' own, and each illegal one reaches the test that rejects it. -/
theorem sampleWordsDecode : Obligations.SampleWordsDecode :=
  ⟨decode_own_word (.packm true), decode_own_word (.packk false), decode_own_word (.unpack true),
    decode_own_word .mix, decode_own_word .encode, decode_own_word .b64o, decode_own_word .b64p,
    decode_own_word .sreset, rfl, rfl, rfl, rfl⟩

/-! ## The match and mask table (R73) -/

/-- A word is its masked part and, where the mask leaves out bit 4 alone, that bit. -/
theorem eq_or_of_and_eq {v p : Word} (h : v &&& 0xFFFFFFEF = p) : v = p ||| if v.getLsbD 4 then 0x10 else 0 := by
  calc v = v &&& (0xFFFFFFEF ||| BitVec.twoPow 32 4) := (BitVec.and_allOnes).symm
    _ = p ||| v &&& BitVec.twoPow 32 4 := by rw [BitVec.and_or_distrib_left, h]
    _ = p ||| if v.getLsbD 4 then 0x10 else 0 := by rw [BitVec.and_twoPow]; rfl

/-- The two kinds of row in R73's table: bit 4 is free and the operand, or every bit is fixed. -/
theorem opcodeTable_rows : ∀ r ∈ opcodeTable,
    (r.mask = 0xFFFFFFEF ∧ ∀ t, encode (r.instr t) = r.pattern ||| if t then 0x10 else 0) ∨
    (r.mask = BitVec.allOnes 32 ∧ ∀ t, encode (r.instr t) = r.pattern) := by decide

/-- A row is selected by no word but those of its instruction, bit 4 being the operand. -/
theorem eq_encode_of_selects {r : OpcodeRow} {v : Word} (hr : r ∈ opcodeTable) (h : r.selects v = true) :
    v = encode (r.instr (v.getLsbD 4)) := by
  have hv : v &&& r.mask = r.pattern := eq_of_beq h
  obtain ⟨hmask, hword⟩ | ⟨hmask, hword⟩ := opcodeTable_rows r hr
  · rw [hmask] at hv
    rw [hword]
    exact eq_or_of_and_eq hv
  · rw [hmask, BitVec.and_allOnes] at hv
    rw [hword, hv]

theorem instrsSelected_encode (i : Instr) : instrsSelected (encode i) = [i] := by
  cases i with
  | packm t | packk t | unpack t => cases t <;> rfl
  | mix | encode | b64o | b64p | sreset => rfl

/-- A word that selects a row is the word of its instruction, so it is legal. -/
theorem instrsSelected_illegal {v : Word} {e : Illegal} (h : decode v = .error e) : instrsSelected v = [] := by
  refine List.map_eq_nil_iff.mpr (List.filter_eq_nil_iff.mpr fun r hr hsel => ?_)
  have hok := decode_eq_ok_iff.mpr (eq_encode_of_selects hr hsel)
  rw [h] at hok
  cases hok

/-- Settles O4: a legal word is an instruction's own and selects its one row, an illegal one selects none. -/
theorem tableSelectsWhatDecodes : Obligations.TableSelectsWhatDecodes := by
  intro v
  cases h : decode v with
  | ok i =>
    rw [decode_eq_ok_iff.mp h]
    exact instrsSelected_encode i
  | error e => exact instrsSelected_illegal h

/-! ## The command event (log 4) -/

theorem commandStep_ok {v : Word} {i : Instr} (h : decode v = .ok i) (s : State) : commandStep v s = exec i s := by
  rw [commandStep, h]

theorem commandStep_error {v : Word} {r : Illegal} (h : decode v = .error r) (s : State) :
    commandStep v s = .next (writeCommand v s) := by
  rw [commandStep, h]

theorem step_command {s : State} {v : Word} {rest : List Event} (h : s.events = .command v :: rest) :
    step s = commandStep v (s.withEvents rest) := by
  rw [step, h]
  rfl

/-- A command's word as a number of 32 bits is the word again. -/
theorem tableWord_toNat (v : Word) : tableWord 32 v.toNat = v := by
  rw [tableWord, Nat.mod_eq_of_lt v.isLt, BitVec.ofNat_toNat, BitVec.setWidth_eq]

/-- Settles O6: the event is the command's step, and the fetch word is put before a schedule that then remains. -/
theorem stepRunsTheDecodedCommand : Obligations.StepRunsTheDecodedCommand := by
  refine ⟨fun s v rest i hev hv => ?_, fun s v rest r hev hv => ?_, fun s i => ?_⟩
  · rw [step_command hev, commandStep_ok hv]
  · rw [step_command hev, commandStep_error hv]
  · rw [step_command (withFetchWord_events s 32 _), tableWord_toNat]
    exact commandStep_ok (decode_own_word i) s

end Sys2Proof.Machine
end

section
/-! Proofs about the Word Packer: the end state of PACKM, PACKK and UNPACK in a ready block, what a buffer holds after
packing, the three results of UNPACK, and the obligations of 40_word_packer.md. -/

namespace Sys2Proof.Machine

/-! ## The command words (R71) -/

theorem encode_packm (t : Bool) : encode (.packm t) = if t then 0x00000011 else 0x00000001 := by
  cases t <;> rfl

theorem encode_packk (t : Bool) : encode (.packk t) = if t then 0x00000031 else 0x00000021 := by
  cases t <;> rfl

theorem encode_unpack (t : Bool) : encode (.unpack t) = if t then 0x00000012 else 0x00000002 := by
  cases t <;> rfl

/-! ## The end states (R172, R176) -/

/-- An instruction that a ready block accepts is its engine's part, from the state of the acceptance. -/
theorem exec_of_accepted {i : Instr} {s : State} (hs : s.ready) {ph : Phase} {ch : Bool}
    (h : issue i s = accept (encode i) ph ch s) : exec i s = enginePart i (accept (encode i) ph ch s) := by
  rw [exec_ready i s hs, h, ifAccepted_accept]

theorem exec_packm_eq (t : Bool) {s : State} (hs : s.ready) (h : s.ptLen.toNat ≤ s.cfg.ptMax) :
    exec (.packm t) s = .next { s with
      w := s.w.writeAll 0 (pack s.pt s.ptLen.toNat t), n := BitVec.ofNat 32 (pack s.pt s.ptLen.toNat t).length,
      cur := encode (.packm t), ph := .idle, chain := false, status := Status.doneOnly } := by
  have hacc : issue (.packm t) s = accept (encode (.packm t)) .packm false s :=
    acceptIf_passes _ _ _ _ _ (by simpa using lengthCheck_passes h)
  have ht : tEff (accept (encode (.packm t)) .packm false s) = t := (tEff_accept _ _ s).trans (tBit_encode t).1
  rw [exec_of_accepted hs hacc, enginePart, phasePackm_eq (accept _ _ _ s) h, ht, advance_single _ rfl,
    ← completed_flags s hs]
  rfl

theorem exec_packk_eq (t : Bool) {s : State} (hs : s.ready) (h : s.kbLen.toNat ≤ s.cfg.kbMax) :
    exec (.packk t) s = .next { s with
      k := s.k.writeAll 0 (pack s.kb s.kbLen.toNat t), kn := BitVec.ofNat 32 (pack s.kb s.kbLen.toNat t).length,
      cur := encode (.packk t), ph := .idle, chain := false, status := Status.doneOnly } := by
  have hacc : issue (.packk t) s = accept (encode (.packk t)) .packk false s :=
    acceptIf_passes _ _ _ _ _ (by simpa using lengthCheck_passes h)
  have ht : tEff (accept (encode (.packk t)) .packk false s) = t := (tEff_accept _ _ s).trans (tBit_encode t).2.1
  rw [exec_of_accepted hs hacc, enginePart, phasePackk_eq (accept _ _ _ s) h, ht, advance_single _ rfl,
    ← completed_flags s hs]
  rfl

/-- UNPACK's length and flag are those of `unpackResult` in the state of its acceptance, where `T_eff` is its own bit. -/
theorem exec_unpack_eq (t : Bool) {s : State} (hs : s.ready) (h1 : 1 ≤ s.n.toNat) (h2 : s.n.toNat ≤ nMax s.cfg) :
    exec (.unpack t) s = .next { s with
      ob := s.ob.writeAll 0 (bytesOf s.w s.n.toNat),
      obLen := (unpackResult (accept (encode (.unpack t)) .unpack false s)).1,
      cur := encode (.unpack t), ph := .idle, chain := false,
      status := { Status.doneOnly with
        rej := (unpackResult (accept (encode (.unpack t)) .unpack false s)).2 } } := by
  have hn : s.n ≠ 0 := fun hz => by simp [hz] at h1
  have hacc : issue (.unpack t) s = accept (encode (.unpack t)) .unpack false s :=
    acceptIf_passes _ _ _ _ _ (by simpa using ⟨lengthCheck_passes h2, hn⟩)
  rw [exec_of_accepted hs hacc, enginePart, phaseUnpack_eq (accept _ _ _ s) h1 h2, advance_single _ rfl,
    ← completed_flags s hs]
  rfl

/-! ## A buffer after packing (R91) -/

theorem packed_count (b : Memory 8) {len : Nat} (t : Bool) (h : len ≤ 2 ^ 30) :
    (BitVec.ofNat 32 (pack b len t).length).toNat = if t then (len + 3) / 4 + 1 else (len + 3) / 4 := by
  have hle := length_pack_le b t h
  rw [toNat_count hle, length_pack, wordsFor_eq]

section Packed

variable {m : Memory 32} (hm : m.wf = true) (b : Memory 8)
include hm

theorem packed_byte (len : Nat) (t : Bool) {j k : Nat} (hj : j < (len + 3) / 4) (hk : k < 4) :
    ((m.writeAll 0 (pack b len t)).read j >>> (8 * k)).setWidth 8 =
      if 4 * j + k < len then b.read (4 * j + k) else 0 := by
  rw [read_writeAll_pack m hm, wordsFor_eq, if_pos hj, packWord_byte b len j k hk, byteAt]

theorem packed_size (len : Word) {t : Bool} (ht : t = true) :
    (m.writeAll 0 (pack b len.toNat t)).read ((len.toNat + 3) / 4) = len := by
  rw [read_writeAll_pack m hm, wordsFor_eq, if_neg (lt_irrefl _), if_pos ⟨rfl, ht⟩, BitVec.ofNat_toNat,
    BitVec.setWidth_eq]

theorem packed_rest {len : Nat} (t : Bool) (h : len ≤ 2 ^ 30) {j : Nat}
    (hj : (BitVec.ofNat 32 (pack b len t).length).toNat ≤ j) :
    (m.writeAll 0 (pack b len t)).read j = m.read j := by
  rw [toNat_count (length_pack_le b t h)] at hj
  rw [Memory.read_writeAll m hm, if_neg (by omega)]

end Packed

/-- Settles O25: the end state of PACKM, and the laws of a packed buffer for its words. -/
theorem packmPacksPlaintext : Obligations.PackmPacksPlaintext := by
  intro t s hcfg hw hs hlen
  obtain ⟨hmax, -⟩ := capacities s.cfg hcfg
  have h30 := hlen.trans hmax
  refine ⟨_, exec_packm_eq t hs hlen, ?_, packed_count s.pt t h30, ?_, ?_, ?_⟩
  · rw [encode_packm]
  · exact fun j k => packed_byte hw s.pt _ t
  · exact packed_size hw s.pt s.ptLen
  · exact fun j => packed_rest hw s.pt t h30

/-- Settles O26: the end state of PACKK, and the laws of a packed buffer for its words. -/
theorem packkPacksKey : Obligations.PackkPacksKey := by
  intro t s hcfg hk hs hlen
  obtain ⟨-, hmax, -⟩ := capacities s.cfg hcfg
  have h30 := hlen.trans hmax
  refine ⟨_, exec_packk_eq t hs hlen, ?_, packed_count s.kb t h30, ?_, ?_, ?_⟩
  · rw [encode_packk]
  · exact fun j k => packed_byte hk s.kb _ t
  · exact packed_size hk s.kb s.kbLen
  · exact fun j => packed_rest hk s.kb t h30

/-! ## What UNPACK leaves (R94 to R97) -/

theorem unpacked_byte {m : Memory 8} (hm : m.wf = true) (w : Memory 32) {n j k : Nat} (hj : j < n) (hk : k < 4) :
    (m.writeAll 0 (bytesOf w n)).read (4 * j + k) = (w.read j >>> (8 * k)).setWidth 8 := by
  have hi : 4 * j + k < 4 * n := by omega
  rw [Memory.read_writeAll m hm, length_bytesOf, if_pos (by omega), Nat.sub_zero, getD_bytesOf w n _ hi,
    byteOf_word w j k hk]

theorem unpacked_rest {m : Memory 8} (hm : m.wf = true) (w : Memory 32) {n i : Nat} (hi : 4 * n ≤ i) :
    (m.writeAll 0 (bytesOf w n)).read i = m.read i := by
  rw [Memory.read_writeAll m hm, length_bytesOf, if_neg (by omega)]

theorem unpackResult_whole {s : State} (ht : tEff s = false) : unpackResult s = (4 * s.n, false) := if_pos ht

theorem unpackResult_inRange {s : State} (ht : tEff s = true) (h1 : 1 ≤ s.n.toNat)
    (hlo : 4 * (s.n.toNat - 1) ≤ (s.w.read (s.n.toNat - 1)).toNat + 3)
    (hhi : (s.w.read (s.n.toNat - 1)).toNat ≤ 4 * (s.n.toNat - 1)) :
    unpackResult s = (s.w.read (s.n.toNat - 1), false) := by
  have hrej : ¬ rejects (s.w.read (s.n.toNat - 1)) s.n.toNat = true := by
    rw [rejects_iff _ _ h1]
    omega
  rw [unpackResult, if_neg (by simp [ht]), if_neg hrej]

theorem unpackResult_outOfRange {s : State} (ht : tEff s = true) (h1 : 1 ≤ s.n.toNat)
    (h : (s.w.read (s.n.toNat - 1)).toNat + 3 < 4 * (s.n.toNat - 1) ∨
      4 * (s.n.toNat - 1) < (s.w.read (s.n.toNat - 1)).toNat) : unpackResult s = (0, true) := by
  rw [unpackResult, if_neg (by simp [ht]), if_pos ((rejects_iff _ _ h1).mpr h)]

/-- The length of an unchecked unpacking as a number: no count of words wraps (D30). -/
theorem toNat_four_mul {n : Word} (h : n.toNat ≤ 2 ^ 28 + 1) : (4 * n).toNat = 4 * n.toNat := by
  rw [BitVec.toNat_mul, show (4 : Word).toNat = 4 from rfl, Nat.mod_eq_of_lt (by omega)]

/-- Settles O27: the end state of UNPACK, the bytes of the reassembly, and its three results. -/
theorem unpackReassemblesBytes : Obligations.UnpackReassemblesBytes := by
  intro t s hcfg hob hs h1 h2
  obtain ⟨-, -, -, -, hn, -⟩ := capacities s.cfg hcfg
  have ht : tEff (accept (encode (.unpack t)) .unpack false s) = t := (tEff_accept _ _ s).trans (tBit_encode t).2.2
  refine ⟨_, exec_unpack_eq t hs h1 h2, ?_, ?_, ?_, ?_, ?_, ?_⟩
  · rw [encode_unpack]
  · exact fun j k => unpacked_byte hob s.w
  · exact fun i => unpacked_rest hob s.w
  · intro hf
    rw [unpackResult_whole (ht.trans hf)]
    exact ⟨toNat_four_mul (h2.trans hn), rfl⟩
  · intro hv hlo hhi
    rw [unpackResult_inRange (ht.trans hv) h1 hlo hhi]
    exact ⟨rfl, rfl⟩
  · intro hv h
    rw [unpackResult_outOfRange (ht.trans hv) h1 h]
    exact ⟨rfl, rfl⟩

/-! ## Packing and unpacking (R98) -/

/-- What UNPACK meets after PACKM.L: a ready block whose words are the plaintext's, with its length in the last one. -/
theorem exec_packm_sized {s : State} (hcfg : s.cfg.wf = true) (hw : s.w.wf = true) (hs : s.ready)
    (hlen : s.ptLen.toNat ≤ s.cfg.ptMax) :
    ∃ u, exec (.packm true) s = .next u ∧ u.ready ∧ u.cfg = s.cfg ∧ u.ob = s.ob ∧
      u.n.toNat = (s.ptLen.toNat + 3) / 4 + 1 ∧ u.w.read (u.n.toNat - 1) = s.ptLen ∧
      ∀ i, i < s.ptLen.toNat → (u.w.read (i / 4) >>> (8 * (i % 4))).setWidth 8 = s.pt.read i := by
  obtain ⟨u, hu, hframe, hn, hbytes, hsize, -⟩ := packmPacksPlaintext true s hcfg hw hs hlen
  have hstatus : u.status = Status.doneOnly := congrArg State.status hframe
  have hready : u.ready := ⟨congrArg Status.busy hstatus, congrArg Status.err hstatus⟩
  have hucfg : u.cfg = s.cfg := (congrArg State.cfg hframe :)
  have huob : u.ob = s.ob := (congrArg State.ob hframe :)
  refine ⟨u, hu, hready, hucfg, huob, hn, ?_, fun i hi => ?_⟩
  · rw [hn]
    exact hsize rfl
  · have hword : i / 4 < (s.ptLen.toNat + 3) / 4 := by omega
    rw [hbytes (i / 4) (i % 4) hword (Nat.mod_lt i (by decide)), Nat.div_add_mod, if_pos hi]

/-- Settles O28: the packed length always passes UNPACK's test, and the words give back the bytes they were made of. -/
theorem unpackInvertsPack : Obligations.UnpackInvertsPack := by
  intro s hcfg hw hob hs hlen
  obtain ⟨u, hu, hready, hucfg, huob, hn, hmarker, hbytes⟩ := exec_packm_sized hcfg hw hs hlen
  have hmono : (s.ptLen.toNat + 3) / 4 + 1 ≤ nMax s.cfg := Nat.succ_le_succ (wordsFor_mono hlen)
  have hunpack := fun t => unpackReassemblesBytes t u (hucfg ▸ hcfg) (huob ▸ hob) hready (by omega)
    (by rwa [hn, hucfg])
  rw [hu, andThen_next, andThen_next]
  constructor
  · obtain ⟨v, hv, -, hvbytes, -, -, hvlen, -⟩ := hunpack true
    rw [hmarker] at hvlen
    obtain ⟨hobLen, hrej⟩ := hvlen rfl (by omega) (by omega)
    refine ⟨v, hv, BitVec.eq_of_toNat_eq hobLen, hrej, fun i hi => ?_⟩
    have hvi := hvbytes (i / 4) (i % 4) (by omega) (Nat.mod_lt i (by decide))
    rw [Nat.div_add_mod] at hvi
    rw [hvi, hbytes i hi]
  · obtain ⟨v, hv, -, -, -, hvlen, -, -⟩ := hunpack false
    refine ⟨v, hv, ?_⟩
    rw [(hvlen rfl).1, hn]

end Sys2Proof.Machine
end

section
/-! Proofs about the Block Mixer: the datapath as arithmetic on numbers, the engine's steps in phases 3 and 4, the state
after whole rounds and after a whole MIX, reads among the engine's turns, and the obligations of 41_block_mixer.md. -/

namespace Sys2Proof.Machine

/-! ## The datapath (R111 to R115) -/

/-- The round count of `n` words, from the two bounds of the quotient in it (R112). -/
theorem roundCount_of_bounds {n d : Nat} (hlo : d * n ≤ 52) (hhi : 52 < (d + 1) * n) : roundCount n = 6 + d := by
  rw [roundCount, Nat.div_eq_of_lt_le hlo hhi]

/-- The round count as Q holds it, read back as a number. -/
theorem toNat_roundCount (n : Nat) : (BitVec.ofNat 32 (roundCount n)).toNat = roundCount n :=
  Nat.mod_eq_of_lt (roundCount_lt n)

/-- Settles O29: the quotient is monotone in `n`, and constant over each range of the table. -/
theorem roundCountTable : Obligations.RoundCountTable := by
  refine ⟨fun n hn => ?_, rfl, ?_, ?_, ?_, ?_⟩
  · have hdiv : 52 / n ≤ 52 / 2 := Nat.div_le_div_left hn (by decide)
    exact ⟨Nat.le_add_right 6 _, Nat.add_le_add_left hdiv 6⟩
  · exact fun n h1 h2 => roundCount_of_bounds (d := 3) (by omega) (by omega)
  · exact fun n h1 h2 => roundCount_of_bounds (d := 2) (by omega) (by omega)
  · exact fun n h1 h2 => roundCount_of_bounds (d := 1) (by omega) (by omega)
  · exact fun n h1 => roundCount_of_bounds (d := 0) (by omega) (by omega)

/-- Settles O30: a shift is a division or a wrapped multiplication, and of the wrapping adds only the last one wraps. -/
theorem mixingValueFormula : Obligations.MixingValueFormula := by
  intro c z y sum kx
  have hkey : (if c.mxKeyXorRight = true then kx ^^^ z else kx).toNat =
      if c.mxKeyXorRight = true then kx.toNat ^^^ z.toNat else kx.toNat := by
    rw [apply_ite BitVec.toNat, BitVec.toNat_xor]
  simp only [mx, BitVec.toNat_add, BitVec.toNat_xor, BitVec.toNat_ushiftRight, BitVec.toNat_shiftLeft, hkey,
    Nat.shiftRight_eq_div_pow, Nat.shiftLeft_eq, Nat.mod_add_mod]

/-- The low two bits of a word, as a number. -/
theorem toNat_and_three (v : Word) : (v &&& 3).toNat = v.toNat % 4 := by
  rw [BitVec.toNat_and]
  exact Nat.and_two_pow_sub_one_eq_mod v.toNat 2

/-- The key index as arithmetic on numbers (R114). -/
theorem keyIndex_eq (p sum : Word) : keyIndex p sum = (p.toNat % 4) ^^^ (sum.toNat / 4 % 4) := by
  rw [keyIndex, eOf, BitVec.toNat_xor, toNat_and_three, toNat_and_three, BitVec.toNat_ushiftRight,
    Nat.shiftRight_eq_div_pow]

/-- The four rows of R114's table are the exclusive or of row and column. -/
theorem xor_rows : ∀ column < 4,
    column ^^^ 0 = [0, 1, 2, 3].getD column 4 ∧ column ^^^ 1 = [1, 0, 3, 2].getD column 4 ∧
    column ^^^ 2 = [2, 3, 0, 1].getD column 4 ∧ column ^^^ 3 = [3, 2, 1, 0].getD column 4 := by decide

/-- Settles O31: the key index is the exclusive or of row and column, and so is every entry of the table. -/
theorem keyIndexTable : Obligations.KeyIndexTable := by
  intro p sum e column
  obtain ⟨h0, h1, h2, h3⟩ := xor_rows column (Nat.mod_lt _ (by decide))
  have hrow : ∀ r, e = r → keyIndex p sum = column ^^^ r := fun r hr => hr ▸ keyIndex_eq p sum
  exact ⟨fun he => (hrow 0 he).trans h0, fun he => (hrow 1 he).trans h1, fun he => (hrow 2 he).trans h2,
    fun he => (hrow 3 he).trans h3⟩

/-- Where SUM is incremented before the sweep, by the position as a number (R115). -/
theorem sumUsed_eq (c : Config) (p sum : Word) :
    sumUsed c p sum = if p.toNat = 0 ∧ c.sumPhase = .pre then sum + 0x9E3779B9 else sum := by
  have hzero : p.toNat = 0 ↔ p = 0 := BitVec.toNat_inj (y := 0)
  simp only [sumUsed, hzero, roundConstant]

/-- Where SUM is incremented after the sweep, by the position as a number (R115). -/
theorem sumLeft_eq (c : Config) {n p : Word} (used : Word) (hn : 1 ≤ n.toNat) :
    sumLeft c n p used = if p.toNat = n.toNat - 1 ∧ c.sumPhase = .post then used + 0x9E3779B9 else used := by
  have hlast : p.toNat = n.toNat - 1 ↔ p = n - 1 := by
    rw [← BitVec.toNat_inj, BitVec.toNat_sub_of_le (show 1 ≤ n from hn)]
    rfl
  simp only [sumLeft, hlast, roundConstant]

/-! ## The engine's turn in phases 3 and 4 (R118, R116, R117) -/

theorem engineTurn_mixi {s : State} (hb : s.status.busy = true) (hp : s.ph = .mixi) : engineTurn s = phaseMixi s := by
  rw [engineTurn, if_pos hb, engineStep, hp]

theorem engineTurn_mixr {s : State} (hb : s.status.busy = true) (hp : s.ph = .mixr) : engineTurn s = phaseMixr s := by
  rw [engineTurn, if_pos hb, engineStep, hp]

theorem mixAdvance_inside {s : State} (h : s.pos.toNat < s.n.toNat - 1) :
    mixAdvance s = .next { s with pos := s.pos + 1 } := if_pos h

theorem mixAdvance_round {s : State} (h : s.pos.toNat = s.n.toNat - 1) (hq : s.rnd + 1 ≠ s.q) :
    mixAdvance s = .next { s with pos := 0, rnd := s.rnd + 1 } := by
  rw [mixAdvance, if_neg (by omega)]
  exact if_neg hq

theorem mixAdvance_last {s : State} (h : s.pos.toNat = s.n.toNat - 1) (hq : s.rnd + 1 = s.q) :
    mixAdvance s = advance { s with pos := 0, rnd := s.rnd + 1 } := by
  rw [mixAdvance, if_neg (by omega)]
  exact if_pos hq

/-- The end of a phase outside ENCODE: CHAIN is 0 already, so only PH and the flags change (R176). -/
theorem advance_unchained {s : State} (hc : s.chain = false) :
    advance s = .next { s with ph := .idle, status := flagsCompleted s.status } := by
  rw [advance_single s hc, complete, ← hc]

/-- At the last position of a round the sequencer goes back to position 0, and neither W nor ZREG is written. -/
theorem mixAdvance_wraps {s t : State} (h : mixAdvance s = .next t) (hp : s.pos.toNat = s.n.toNat - 1) :
    t.pos = 0 ∧ t.zreg = s.zreg ∧ t.w = s.w := by
  rcases mixAdvance_next h with ⟨hlt, -⟩ | ⟨-, -, rfl⟩ | ⟨-, -, hadv⟩
  · omega
  · exact ⟨rfl, rfl, rfl⟩
  · rcases advance_cases hadv with rfl | ⟨-, p, -, rfl⟩ <;> exact ⟨rfl, rfl, rfl⟩

/-- Settles O32: the step of phase 3, and what the last position step of a round writes to W[n - 1] and to ZREG. -/
theorem mixInitialisation : Obligations.MixInitialisation := by
  intro s hb hw h2 hn h4 hkn
  have hm : mixable s = true := (mixable_iff s).mpr ⟨h2, hn, h4, hkn⟩
  refine ⟨fun hp => ?_, fun t hp hpos ht => ?_⟩
  · rw [engineTurn_mixi hb hp, phaseMixi_eq s hm]
    rfl
  · rw [engineTurn_mixr hb hp, phaseMixr_eq s hm (by omega)] at ht
    obtain ⟨htpos, htz, htw⟩ := mixAdvance_wraps ht hpos
    refine ⟨htpos, ?_⟩
    rw [htz, htw, Memory.read_write _ hw, if_pos hpos.symm]

/-- Settles O33: the word, the accumulator and the key index of a position step as the rules give them, then each way of
the sequencer on from it. -/
theorem positionStep : Obligations.PositionStep := by
  intro s hb hp hx h2 hn h4 hkn hpos n p used y z kx v s1
  have hturn : engineTurn s = mixAdvance s1 := by
    have hused : sumUsed s.cfg s.pos s.sum = used := sumUsed_eq _ _ _
    have hword : mixWord s = v := by
      rw [mixWord, hused, mx, hx, if_neg Bool.false_ne_true, keyIndex_eq, successor]
    rw [engineTurn_mixr hb hp, phaseMixr_eq s ((mixable_iff s).mpr ⟨h2, hn, h4, hkn⟩) hpos, hword, hused,
      sumLeft_eq _ _ (by omega)]
  rw [hturn]
  refine ⟨fun hlt => mixAdvance_inside hlt, fun hlast hq => mixAdvance_round hlast hq, fun hlast hq hc => ?_,
    fun hlast hq hc => ?_⟩
  · exact (mixAdvance_last (s := s1) hlast hq).trans (advance_unchained hc)
  · exact (mixAdvance_last (s := s1) hlast hq).trans (advance_chained hc (congrArg chainNext hp))

/-! ## Whole rounds and a whole mix (R117 to R120, R124) -/

/-- Settles O34: the step of phase 3, then `r` rounds on the buffer, whose predecessor between rounds is the last
word. -/
theorem stateAfterRounds : Obligations.StateAfterRounds := by
  intro s r _ hw hb hp h2 hn h4 hkn hr
  have hm : mixable s = true := (mixable_iff s).mpr ⟨h2, hn, h4, hkn⟩
  have hlast : (0 : Word).toNat + r < (BitVec.ofNat 32 (roundCount s.n.toNat)).toNat := by
    rw [toNat_roundCount]
    exact (Nat.zero_add r).trans_lt hr
  have hrounds := rounds_steps engineTurn (fun _ => engineTurn_mixr) { s with
      q := BitVec.ofNat 32 (roundCount s.n.toNat), sum := 0, zreg := s.w.read (s.n.toNat - 1), rnd := 0, pos := 0,
      ph := .mixr } hb rfl hm rfl r hlast
  have hstart : Stands s.n.toNat s.w (s.w, s.w.read (s.n.toNat - 1))
      (s.w.take s.n.toNat, s.w.read (s.n.toNat - 1)) := ⟨hw, rfl, rfl, fun _ _ => rfl⟩
  obtain ⟨hwords, -, hz⟩ := hstart.rounds (c := s.cfg) (k := s.k) (sum := 0) (by omega) rfl r
  rw [repeatStep_add, repeatStep_one, engineTurn_mixi hb hp, phaseMixi_eq s hm, andThen_next]
  refine ⟨_, hrounds, ?_, hwords.rest⟩
  dsimp only
  rw [rounds_sum, hz, zero_add]
  rfl

/-- The end state of MIX in a ready block that accepts it. -/
theorem exec_mix_eq {s : State} (hs : s.ready) (hw : s.w.wf = true) (hm : mixable s = true) :
    exec .mix s = .next { s with
      w := mixedWords s.cfg s.k s.w s.n.toNat, q := BitVec.ofNat 32 (roundCount s.n.toNat),
      rnd := BitVec.ofNat 32 (roundCount s.n.toNat), pos := 0,
      sum := BitVec.ofNat 32 (roundCount s.n.toNat * 0x9E3779B9),
      zreg := (mixedWords s.cfg s.k s.w s.n.toNat).read (s.n.toNat - 1),
      cur := encode .mix, ph := .idle, chain := false, status := Status.doneOnly } := by
  obtain ⟨h2, hn, h4, hkn⟩ := (mixable_iff s).mp hm
  have hacc : issue .mix s = accept (encode .mix) .mixi false s :=
    acceptIf_passes _ _ _ _ _ (by simpa using ⟨lengthCheck_passes hn, h2, lengthCheck_passes hkn, h4⟩)
  rw [exec_of_accepted hs hacc, enginePart, mixRun_eq (accept _ _ _ s) rfl hw hm, advance_single _ rfl,
    ← completed_flags s hs]
  rfl

/-- Settles O35: the end state of MIX, and the mixed buffer as `encrypt` of what it held. -/
theorem mixComputesEncrypt : Obligations.MixComputesEncrypt := by
  intro s _ hw hs h2 hn h4 hkn
  obtain ⟨-, hwords, hrest⟩ := mixedWords_spec s.cfg s.k s.w hw s.n.toNat (by omega)
  exact ⟨_, exec_mix_eq hs hw ((mixable_iff s).mpr ⟨h2, hn, h4, hkn⟩), rfl, hwords, hrest⟩

/-! ## Host reads among the engine's turns (R126, R54, R60) -/

/-- The engine's turn on the block alone. -/
theorem engineTurn_block (s : State) : engineTurn s.block = mapNext State.block (engineTurn s) :=
  engineTurn_blind [] [] s

/-- The engine's turns on the block alone. -/
theorem repeatStep_engineTurn_block (k : Nat) (s : State) :
    repeatStep engineTurn k s.block = mapNext State.block (repeatStep engineTurn k s) := by
  induction k generalizing s with
  | zero => rfl
  | succ k ih =>
    rw [repeatStep_succ, repeatStep_succ, engineTurn_block]
    cases engineTurn s with
    | next u => exact ih u
    | fault r => rfl
    | refused r => rfl

theorem mapNext_eq_next {f : State → State} {o : Outcome} {t : State} (h : mapNext f o = .next t) :
    ∃ u, o = .next u ∧ f u = t := by
  cases o with
  | next u => cases h; exact ⟨u, rfl, rfl⟩
  | fault r => cases h
  | refused r => cases h

theorem busRead_next {a bytes : Nat} {s t : State} (h : busRead a bytes s = .next t) : ∃ v, t = s.reply v := by
  unfold busRead at h
  split at h
  · cases h
  · exact ⟨_, hostRead_next h⟩

/-- A host read that is answered takes its event off the schedule and sends a value back. -/
theorem step_read {s t : State} {e : Event} {rest : List Event} (hes : s.events = e :: rest) (he : e.isRead = true)
    (h : step s = .next t) : ∃ v, t = (s.withEvents rest).reply v := by
  rw [step, hes] at h
  cases e with
  | read sp i b => exact ⟨_, hostRead_next h⟩
  | busRead a b => exact busRead_next h
  | _ => cases he

theorem step_engine {s : State} {rest : List Event} (hes : s.events = .engine :: rest) :
    step s = engineTurn (s.withEvents rest) := by
  rw [step, hes]
  rfl

/-- A run over a schedule of reads and engine turns takes the block where the engine turns alone take it. -/
theorem run_reads_block (es : List Event) {s t : State} (hes : s.events = es)
    (hall : ∀ e ∈ es, e.isRead = true ∨ e = .engine) (h : core.run es.length s = .next t) :
    repeatStep engineTurn (es.count .engine) s.block = .next t.block := by
  induction es generalizing s with
  | nil => cases h; rfl
  | cons e rest ih =>
    obtain ⟨he, hrest⟩ := List.forall_mem_cons.mp hall
    rw [List.length_cons, run_succ] at h
    obtain ⟨u, hu, ht⟩ := andThen_eq_next h
    rcases he with he | rfl
    · obtain ⟨v, rfl⟩ := step_read hes he hu
      have hne : e ≠ .engine := fun heq => by simp [heq, Event.isRead] at he
      rw [List.count_cons_of_ne hne]
      exact ih (s := (s.withEvents rest).reply v) rfl hrest ht
    · rw [step_engine hes] at hu
      have hblock : engineTurn s.block = .next u.block :=
        (engineTurn_block (s.withEvents rest)).trans (congrArg (mapNext State.block) hu)
      rw [List.count_cons_self, repeatStep_succ, hblock]
      exact ih (engineTurn_keeps hu).events hrest ht

/-- Settles O24, by induction on the schedule: a read leaves the block alone, and the engine's turn sees nothing but
the block. -/
theorem readsNeverDisturbTheEngine : Obligations.ReadsNeverDisturbTheEngine := by
  intro es s t hall h
  have hrun := run_reads_block es (s := s.withEvents es) rfl hall h
  exact mapNext_eq_next ((repeatStep_engineTurn_block _ s).symm.trans hrun)

end Sys2Proof.Machine
end

section
/-! Proofs about ENCODE: what each of its four phases does to the block's data, the end state of the chain and of the
script that does the same, the cipher as a function of the operands, and the obligations of 42_encode.md. -/

namespace Sys2Proof.Machine

/-! ## The four phases as functions of the data (R142) -/

/-- What PACKM.L does to the data (R92). -/
def packText (s : State) : State :=
  { s with w := s.w.writeAll 0 (pack s.pt s.ptLen.toNat true), n := BitVec.ofNat 32 (wordsFor s.ptLen.toNat + 1) }

/-- What PACKK does to the data (R93). -/
def packKey (s : State) : State :=
  { s with k := s.k.writeAll 0 (pack s.kb s.kbLen.toNat false), kn := BitVec.ofNat 32 (wordsFor s.kbLen.toNat) }

/-- What MIX does to the data and to the sequencer's registers (R119). -/
def mixText (s : State) : State :=
  { s with
    w := mixedWords s.cfg s.k s.w s.n.toNat, q := BitVec.ofNat 32 (roundCount s.n.toNat),
    rnd := BitVec.ofNat 32 (roundCount s.n.toNat), pos := 0,
    sum := BitVec.ofNat 32 (roundCount s.n.toNat * 0x9E3779B9),
    zreg := (mixedWords s.cfg s.k s.w s.n.toNat).read (s.n.toNat - 1) }

/-- What UNPACK without validation does to the data (R95). -/
def unpackText (s : State) : State :=
  { s with ob := s.ob.writeAll 0 (bytesOf s.w s.n.toNat), obLen := 4 * s.n }

/-- The four one after the other. -/
def encodeText (s : State) : State := unpackText (mixText (packKey (packText s)))

/-- A block in which the command word `v` has completed, with neither REJ nor EMPTY (R176). -/
def finished (v : Word) (s : State) : State :=
  { s with cur := v, ph := .idle, chain := false, status := Status.doneOnly }

theorem finished_ready (v : Word) (s : State) : (finished v s).ready := ⟨rfl, rfl⟩

/-! ## The phases inside the chain (R142, R175) -/

theorem phasePackm_encode (v : Word) {s : State} (h : s.ptLen.toNat ≤ s.cfg.ptMax) :
    phasePackm (accept v .packm true s) = .next (accept v .packk true (packText s)) := by
  rw [phasePackm_eq (accept _ _ _ s) h, advance_chained rfl rfl, length_pack]
  rfl

theorem phasePackk_encode (v : Word) {s : State} (h : s.kbLen.toNat ≤ s.cfg.kbMax) :
    phasePackk (accept v .packk true s) = .next (accept v .mixi true (packKey s)) := by
  rw [phasePackk_eq (accept _ _ _ s) h, advance_chained rfl rfl, length_pack]
  rfl

theorem mixRun_encode (v : Word) {s : State} (hw : s.w.wf = true) (hm : mixable s = true) :
    mixRun (accept v .mixi true s) = .next (accept v .unpack true (mixText s)) := by
  rw [mixRun_eq (accept _ _ _ s) rfl hw hm, advance_chained rfl rfl]
  rfl

/-- Inside the chain `T_eff` is 0 in phase 5, and the advance completes the command (R173, R175). -/
theorem phaseUnpack_encode (v : Word) {s : State} (hs : s.ready) (h1 : 1 ≤ s.n.toNat)
    (h2 : s.n.toNat ≤ nMax s.cfg) :
    phaseUnpack (accept v .unpack true s) = .next (finished v (unpackText s)) := by
  rw [phaseUnpack_eq (accept _ _ _ s) h1 h2, unpackResult_whole (s := accept v .unpack true s) rfl, finished,
    ← completed_flags s hs]
  rfl

/-! ## The commands of the script -/

theorem exec_packm_data {s : State} (hs : s.ready) (h : s.ptLen.toNat ≤ s.cfg.ptMax) :
    exec (.packm true) s = .next (finished (encode (.packm true)) (packText s)) := by
  rw [exec_packm_eq true hs h, length_pack]
  rfl

theorem exec_packk_data {s : State} (hs : s.ready) (h : s.kbLen.toNat ≤ s.cfg.kbMax) :
    exec (.packk false) s = .next (finished (encode (.packk false)) (packKey s)) := by
  rw [exec_packk_eq false hs h, length_pack]
  rfl

theorem exec_mix_data {s : State} (hs : s.ready) (hw : s.w.wf = true) (hm : mixable s = true) :
    exec .mix s = .next (finished (encode .mix) (mixText s)) := exec_mix_eq hs hw hm

theorem exec_unpack_data {s : State} (hs : s.ready) (h1 : 1 ≤ s.n.toNat) (h2 : s.n.toNat ≤ nMax s.cfg) :
    exec (.unpack false) s = .next (finished (encode (.unpack false)) (unpackText s)) := by
  rw [exec_unpack_eq false hs h1 h2, unpackResult_whole ((tEff_accept _ _ s).trans (tBit_encode false).2.2)]
  rfl

/-! ## A block that accepts ENCODE -/

/-- ENCODE's conditions for a non-empty plaintext, in a ready block whose word buffer is in form (R140). -/
structure Encodable (s : State) : Prop where
  cfgOk : s.cfg.wf = true
  wOk : s.w.wf = true
  ready : s.ready
  textPos : 0 < s.ptLen.toNat
  textFits : s.ptLen.toNat ≤ s.cfg.ptMax
  keyLong : 13 ≤ s.kbLen.toNat
  keyFits : s.kbLen.toNat ≤ s.cfg.kbMax

section Encodable

variable {s : State} (h : Encodable s)
include h

theorem Encodable.issue_accepts : issue .encode s = accept (encode .encode) .packm true s := by
  have h0 : s.ptLen ≠ 0 := fun h0 => by simpa [h0] using h.textPos
  have h4 : 4 ≤ wordsFor s.kbLen.toNat := wordsFor_mono h.keyLong
  rw [issue, issueEncode, if_neg h0]
  exact acceptIf_passes _ _ _ _ _
    (by simpa [encodeChecks] using ⟨lengthCheck_passes h.textFits, lengthCheck_passes h.keyFits, h4⟩)

theorem Encodable.textCount : (packText s).n.toNat = wordsFor s.ptLen.toNat + 1 := by
  obtain ⟨-, -, -, -, hn, -⟩ := capacities s.cfg h.cfgOk
  exact toNat_count ((Nat.succ_le_succ (wordsFor_mono h.textFits)).trans hn)

theorem Encodable.keyCount : (packKey s).kn.toNat = wordsFor s.kbLen.toNat := by
  obtain ⟨-, -, -, -, -, -, hkn, -⟩ := capacities s.cfg h.cfgOk
  exact toNat_count ((Nat.le_succ_of_le (wordsFor_mono h.keyFits)).trans hkn)

theorem Encodable.textCount_bounds :
    2 ≤ (packText s).n.toNat ∧ (packText s).n.toNat ≤ nMax s.cfg := by
  rw [h.textCount]
  exact ⟨Nat.succ_le_succ (wordsFor_mono h.textPos), Nat.succ_le_succ (wordsFor_mono h.textFits)⟩

theorem Encodable.packText_wf : (packText s).w.wf = true := Memory.wf_writeAll _ h.wOk _ _

theorem Encodable.mixable_packed : mixable (packKey (packText s)) = true := by
  obtain ⟨hn2, hn⟩ := h.textCount_bounds
  have hkn : (packKey (packText s)).kn.toNat = wordsFor s.kbLen.toNat := h.keyCount
  refine (mixable_iff _).mpr ⟨hn2, hn, ?_, ?_⟩
  · rw [hkn]
    exact wordsFor_mono h.keyLong
  · rw [hkn]
    exact Nat.le_succ_of_le (wordsFor_mono h.keyFits)

/-- ENCODE's engine part is the four functions of the data, one phase after the other. -/
theorem Encodable.exec_encode : exec .encode s = .next (finished (encode .encode) (encodeText s)) := by
  obtain ⟨hn2, hn⟩ := h.textCount_bounds
  rw [exec_of_accepted h.ready h.issue_accepts, enginePart, encodeRun, phasePackm_encode _ h.textFits, andThen_next,
    phasePackk_encode (s := packText s) _ h.keyFits, andThen_next,
    mixRun_encode (s := packKey (packText s)) _ h.packText_wf h.mixable_packed, andThen_next]
  exact phaseUnpack_encode _ h.ready (Nat.one_le_of_lt hn2) hn

/-- The script is the same four functions: none of them reads what a command's completion leaves. -/
theorem Encodable.exec_script :
    andThen (exec (.packm true) s) (fun a => andThen (exec (.packk false) a) fun b =>
      andThen (exec .mix b) fun c => exec (.unpack false) c) =
        .next (finished (encode (.unpack false)) (encodeText s)) := by
  obtain ⟨hn2, hn⟩ := h.textCount_bounds
  rw [exec_packm_data h.ready h.textFits, andThen_next,
    exec_packk_data (finished_ready _ (packText s)) h.keyFits, andThen_next,
    exec_mix_data (finished_ready _ (packKey (finished _ (packText s)))) h.packText_wf h.mixable_packed, andThen_next]
  exact exec_unpack_data (finished_ready _ _) (Nat.one_le_of_lt hn2) hn

end Encodable

/-! ## The cipher -/

/-- The cipher words of a block's plaintext and key (R143). -/
def cipherOf (s : State) : List Word :=
  encrypt s.cfg (pack s.pt s.ptLen.toNat true) (pack s.kb s.kbLen.toNat false)

/-- Of an admissible key at least four words are packed, as many as the mixer reads (R25, R140). -/
theorem lt_wordsFor_key {len i : Nat} (h : 13 ≤ len) (hi : i < 4) : i < wordsFor len :=
  hi.trans_le (wordsFor_mono h)

theorem take_packText {s : State} (hw : s.w.wf = true) :
    (packText s).w.take (wordsFor s.ptLen.toNat + 1) = pack s.pt s.ptLen.toNat true := by
  have h := take_writeAll s.w hw (pack s.pt s.ptLen.toNat true)
  rwa [length_pack, if_pos rfl] at h

theorem packText_rest {s : State} (hw : s.w.wf = true) {i : Nat} (hi : wordsFor s.ptLen.toNat + 1 ≤ i) :
    (packText s).w.read i = s.w.read i := by
  rw [packText, read_writeAll_pack _ hw, if_neg (by omega), if_neg (by omega)]

theorem take_packKey {s : State} (hk : s.k.wf = true) :
    (packKey s).k.take (wordsFor s.kbLen.toNat) = pack s.kb s.kbLen.toNat false := by
  have h := take_writeAll s.k hk (pack s.kb s.kbLen.toNat false)
  rwa [length_pack, if_neg Bool.false_ne_true] at h

theorem packKey_rest {s : State} (hk : s.k.wf = true) {i : Nat} (hi : wordsFor s.kbLen.toNat ≤ i) :
    (packKey s).k.read i = s.k.read i := by
  rw [packKey, read_writeAll_pack _ hk, if_neg (by omega), if_neg (by simp)]

/-- W at the end of ENCODE: the cipher words, and the rest as before. -/
theorem Encodable.words {s : State} (h : Encodable s) (hk : s.k.wf = true) :
    (encodeText s).w.take (wordsFor s.ptLen.toNat + 1) = cipherOf s ∧
    ∀ i, wordsFor s.ptLen.toNat + 1 ≤ i → (encodeText s).w.read i = s.w.read i := by
  obtain ⟨-, hwords, hrest⟩ := mixedWords_spec s.cfg (packKey s).k (packText s).w h.packText_wf
    (wordsFor s.ptLen.toNat + 1) (Nat.succ_pos _)
  have hw : (encodeText s).w = mixedWords s.cfg (packKey s).k (packText s).w (wordsFor s.ptLen.toNat + 1) :=
    congrArg (mixedWords s.cfg (packKey s).k (packText s).w) h.textCount
  rw [hw]
  refine ⟨?_, fun i hi => (hrest i hi).trans (packText_rest h.wOk hi)⟩
  rw [hwords, take_packText h.wOk]
  refine encrypt_key _ _ _ _ fun i hi => ?_
  rw [← take_packKey hk, Memory.getD_take _ _ _ hi, Memory.getD_take _ _ _ (lt_wordsFor_key h.keyLong hi)]

/-- The end state of ENCODE and of the script, with the count of the cipher words as a number (R143). -/
theorem finished_encodeText (v : Word) {s : State} {n : Nat} (hn : (packText s).n.toNat = n) :
    finished v (encodeText s) = { s with
      w := (encodeText s).w, n := BitVec.ofNat 32 (wordsFor s.ptLen.toNat + 1), k := (packKey s).k,
      kn := BitVec.ofNat 32 (wordsFor s.kbLen.toNat), ob := (encodeText s).ob,
      obLen := 4 * BitVec.ofNat 32 (wordsFor s.ptLen.toNat + 1), q := BitVec.ofNat 32 (roundCount n),
      rnd := BitVec.ofNat 32 (roundCount n), pos := 0, sum := BitVec.ofNat 32 (roundCount n * 0x9E3779B9),
      zreg := (encodeText s).w.read (n - 1), cur := v, ph := .idle, chain := false, status := Status.doneOnly } := by
  subst hn
  rfl

/-- The bytes at the end of ENCODE are those of the cipher words, and the rest of OB is as before. -/
theorem Encodable.bytes {s : State} (h : Encodable s) (hk : s.k.wf = true) (hob : s.ob.wf = true) :
    (∀ j k, j < wordsFor s.ptLen.toNat + 1 → k < 4 →
      (encodeText s).ob.read (4 * j + k) = ((cipherOf s).getD j 0 >>> (8 * k)).setWidth 8) ∧
    ∀ i, 4 * (wordsFor s.ptLen.toNat + 1) ≤ i → (encodeText s).ob.read i = s.ob.read i := by
  have hbuf : (encodeText s).ob = s.ob.writeAll 0 (bytesOf (encodeText s).w (wordsFor s.ptLen.toNat + 1)) :=
    congrArg (fun n => s.ob.writeAll 0 (bytesOf (encodeText s).w n)) h.textCount
  rw [hbuf]
  obtain ⟨hwords, -⟩ := h.words hk
  refine ⟨fun j k hj hk4 => ?_, fun i => unpacked_rest hob _⟩
  rw [unpacked_byte hob _ hj hk4, ← hwords, Memory.getD_take _ _ _ hj]

/-- Settles O37: the four functions of the data, field by field. -/
theorem encodeEndState : Obligations.EncodeEndState := by
  intro s hcfg hw hk hob hs h0 hpt h13 hkb n kn cipher
  have h : Encodable s := ⟨hcfg, hw, hs, h0, hpt, h13, hkb⟩
  obtain ⟨(hwords : _ = cipher), hwrest⟩ := h.words hk
  obtain ⟨hbytes, hobrest⟩ := h.bytes hk hob
  refine ⟨_, h.exec_encode, ?_, hwords, hwrest, take_packKey hk, fun i => packKey_rest hk, hbytes, hobrest⟩
  have hlast : (encodeText s).w.read (n - 1) = cipher.getD (n - 1) 0 := by
    rw [← hwords]
    exact (Memory.getD_take _ n _ (Nat.lt_succ_self _)).symm
  have hlen : 4 * BitVec.ofNat 32 n = BitVec.ofNat 32 (4 * n) := (BitVec.ofNat_mul ..).symm
  rw [← hlast, ← hlen]
  exact finished_encodeText _ h.textCount

/-- Settles O38: both are the four functions of the data, and only CUR tells them apart. -/
theorem encodeEqualsTheScript : Obligations.EncodeEqualsTheScript := by
  intro s hcfg hw _ _ hs h0 hpt h13 hkb
  have h : Encodable s := ⟨hcfg, hw, hs, h0, hpt, h13, hkb⟩
  exact ⟨_, h.exec_encode, h.exec_script⟩

/-! ## The empty plaintext (R141) -/

theorem issue_encode_empty {s : State} (h : s.ptLen = 0) : issue .encode s = encodeShortCircuit s := if_pos h

theorem encodeShortCircuit_eq {s : State} (hs : s.ready) :
    encodeShortCircuit s = { s with
      cur := 0x00000004, obLen := 0,
      status := { busy := false, done := true, err := false, rej := false, empty := true } } := by
  obtain ⟨hb, he⟩ := hs
  rw [encodeShortCircuit, flagsShortCircuit, hb, he]
  rfl

/-- Settles O36: the short-circuit leaves the block idle, so the engine has no step. -/
theorem encodeShortCircuits : Obligations.EncodeShortCircuits := by
  intro s hs h0 t
  have hissue : issue .encode s = t := (issue_encode_empty h0).trans (encodeShortCircuit_eq hs)
  constructor
  · rw [exec_ready _ s hs, hissue, ifAccepted_idle t rfl]
  · exact (writeCommand_encode .encode s hs).trans hissue

/-! ## The length of the output (R144) -/

theorem Encodable.obLen {s : State} (h : Encodable s) :
    (encodeText s).obLen.toNat = 4 * (wordsFor s.ptLen.toNat + 1) := by
  obtain ⟨-, -, -, -, hmax, -⟩ := capacities s.cfg h.cfgOk
  obtain ⟨-, hn⟩ := h.textCount_bounds
  exact (toNat_four_mul (hn.trans hmax)).trans (congrArg (4 * ·) h.textCount)

/-- Settles O39: 0 after the short-circuit, and four bytes for each cipher word after the chain. -/
theorem encodeLength : Obligations.EncodeLength := by
  intro s hcfg hw hs hpt hkey
  rcases Nat.eq_zero_or_pos s.ptLen.toNat with h0 | hpos
  · obtain ⟨hexec, -⟩ := encodeShortCircuits s hs (BitVec.eq_of_toNat_eq h0)
    exact ⟨_, hexec, (if_pos h0).symm, rfl, fun hpos => absurd h0 hpos.ne', rfl, rfl⟩
  · obtain ⟨h13, hkb⟩ := hkey hpos
    have h : Encodable s := ⟨hcfg, hw, hs, hpos, hpt, h13, hkb⟩
    have hlen : (finished (encode .encode) (encodeText s)).obLen.toNat = 4 * ((s.ptLen.toNat + 3) / 4 + 1) := h.obLen
    refine ⟨_, h.exec_encode, ?_, ?_, fun _ => ?_, rfl, rfl⟩
    · rw [hlen, if_neg hpos.ne']
    · rw [hlen, Nat.mul_mod_right]
    · omega

/-! ## The operands (R145) -/

/-- Packing reads the bytes up to the length and no other (R36). -/
theorem pack_congr {b b' : Memory 8} {len : Nat} (t : Bool) (h : ∀ i, i < len → b.read i = b'.read i) :
    pack b len t = pack b' len t := by
  have hbyte : byteAt b len = byteAt b' len := by
    funext i
    simp only [byteAt]
    split
    · next hi => exact h i hi
    · rfl
  have hword : packWord b len = packWord b' len := by
    funext j
    simp only [packWord, hbyte]
  rw [pack, pack, hword]

/-- Of a key of at least 13 bytes the cipher depends on the first sixteen alone: the mixer reads four key words. -/
theorem encrypt_congr_key (c : Config) (w : List Word) {b b' : Memory 8} {len len' : Nat} (h : 13 ≤ len)
    (h' : 13 ≤ len') (hmin : min len 16 = min len' 16) (hbytes : ∀ i, i < min len 16 → b.read i = b'.read i) :
    encrypt c w (pack b len false) = encrypt c w (pack b' len' false) := by
  have hbyte : ∀ i, i < 16 → byteAt b len i = byteAt b' len' i := by
    intro i hi
    simp only [byteAt]
    by_cases hin : i < len
    · rw [if_pos hin, if_pos (by omega), hbytes i (by omega)]
    · rw [if_neg hin, if_neg (by omega)]
  refine encrypt_key _ _ _ _ fun i hi => ?_
  rw [getD_pack_data _ _ _ _ (lt_wordsFor_key h hi), getD_pack_data _ _ _ _ (lt_wordsFor_key h' hi), packWord, packWord,
    hbyte _ (by omega), hbyte _ (by omega), hbyte _ (by omega), hbyte _ (by omega)]

/-- Settles O40: the bytes of the output are those of the cipher, which is one for both blocks. -/
theorem encodeDependsOnItsOperandsOnly : Obligations.EncodeDependsOnItsOperandsOnly := by
  intro s s' hcfg hwf hs hs' hw hw' hk hk' hob hob' hlen hpt h13 hkb h13' hkb' hmin htext hkey
  rcases Nat.eq_zero_or_pos s.ptLen.toNat with h0 | hpos
  · have hempty : s.ptLen = 0 := BitVec.eq_of_toNat_eq h0
    obtain ⟨hexec, -⟩ := encodeShortCircuits s hs hempty
    obtain ⟨hexec', -⟩ := encodeShortCircuits s' hs' (hlen ▸ hempty)
    exact ⟨_, _, hexec, hexec', rfl, fun i hi => absurd hi (Nat.not_lt_zero i)⟩
  · have h : Encodable s := ⟨hwf, hw, hs, hpos, hpt, h13, hkb⟩
    have h' : Encodable s' := ⟨hcfg ▸ hwf, hw', hs', hlen ▸ hpos, hcfg ▸ hlen ▸ hpt, h13', hcfg ▸ hkb'⟩
    have hcipher : cipherOf s = cipherOf s' := by
      rw [cipherOf, cipherOf, ← hcfg, ← hlen, pack_congr true htext, encrypt_congr_key _ _ h13 h13' hmin hkey]
    have hobLen : (encodeText s).obLen = (encodeText s').obLen :=
      BitVec.eq_of_toNat_eq (by rw [h.obLen, h'.obLen, hlen])
    refine ⟨_, _, h.exec_encode, h'.exec_encode, hobLen, fun i hi => ?_⟩
    have hj : i / 4 < wordsFor s.ptLen.toNat + 1 := Nat.div_lt_of_lt_mul (hi.trans_eq h.obLen)
    have hk4 : i % 4 < 4 := Nat.mod_lt i (by decide)
    obtain ⟨hbytes, -⟩ := h.bytes hk hob
    obtain ⟨hbytes', -⟩ := h'.bytes hk' hob'
    have hbyte := hbytes (i / 4) (i % 4) hj hk4
    rw [hcipher, ← hbytes' (i / 4) (i % 4) (hlen ▸ hj) hk4, Nat.div_add_mod] at hbyte
    exact hbyte

end Sys2Proof.Machine
end

section
/-! Proofs about the Alphabet Encoder: the end state of B64O and B64P in a ready block, what SY holds after it, which
symbols of a stream are pads, how the symbols give back the bytes, and the obligations of 43_alphabet_encoder.md. -/

namespace Sys2Proof.Machine

/-! ## The end state (R156, R157) -/

/-- The end state of the command word `v` when it encodes the first `len` bytes of `src` (R158, R172, R176). -/
def symbolsStored (v : Word) (src : Memory 8) (len : Nat) (s : State) : State :=
  { s with
    sy := s.sy.writeAll 0 (b64 s.cfg src len), syLen := BitVec.ofNat 32 (4 * groupsFor len), cur := v, ph := .idle,
    chain := false, status := Status.doneOnly }

/-- Phase 6 of an accepted command, whichever buffer its word selects. -/
theorem phaseB64_accepted (v : Word) {s : State} (hs : s.ready) {src : Memory 8} {len : Nat}
    (hsrc : b64Source (accept v .b64 false s) = (src, len))
    (hcap : len ≤ if v.getLsbD 5 then s.cfg.ptMax else obMax s.cfg) :
    phaseB64 (accept v .b64 false s) = .next (symbolsStored v src len s) := by
  rw [phaseB64_eq _ (by rwa [hsrc, sEff_accept]), hsrc, advance_single _ rfl, length_b64, symbolsStored,
    ← completed_flags s hs]
  rfl

theorem exec_b64o_eq {s : State} (hs : s.ready) (h : s.obLen.toNat ≤ obMax s.cfg) :
    exec .b64o s = .next (symbolsStored (encode .b64o) s.ob s.obLen.toNat s) := by
  have hsel : (encode .b64o).getLsbD 5 = false := by decide
  have hacc : issue .b64o s = accept (encode .b64o) .b64 false s := rfl
  rw [exec_of_accepted hs hacc]
  refine phaseB64_accepted _ hs ?_ (by rwa [hsel])
  rw [b64Source, sEff_accept, hsel]
  rfl

theorem exec_b64p_eq {s : State} (hs : s.ready) (h : s.ptLen.toNat ≤ s.cfg.ptMax) :
    exec .b64p s = .next (symbolsStored (encode .b64p) s.pt s.ptLen.toNat s) := by
  have hsel : (encode .b64p).getLsbD 5 = true := by decide
  have hacc : issue .b64p s = accept (encode .b64p) .b64 false s :=
    acceptIf_passes _ _ _ _ _ (by simpa using lengthCheck_passes h)
  rw [exec_of_accepted hs hacc]
  refine phaseB64_accepted _ hs ?_ (by rwa [hsel])
  rw [b64Source, sEff_accept, hsel]
  rfl

/-! ## SY after an encoding (R158) -/

/-- No count of symbols wraps: a source of either command fits the output buffer (R12). -/
theorem symbols_count {c : Config} (hcfg : c.wf = true) {len : Nat} (h : len ≤ obMax c) :
    (BitVec.ofNat 32 (4 * groupsFor len)).toNat = 4 * groupsFor len := by
  obtain ⟨-, -, -, -, -, -, -, hob, -⟩ := capacities c hcfg
  refine Nat.mod_eq_of_lt ?_
  unfold groupsFor
  omega

section Encoded

variable {m : Memory 8} (hm : m.wf = true) (c : Config) (b : Memory 8)
include hm

theorem encoded_symbol (len : Nat) {g r : Nat} (hg : g < groupsFor len) (hr : r < 4) :
    (m.writeAll 0 (b64 c b len)).read (4 * g + r) =
      if 3 * g + r ≤ len then c.customTable.getD (groupNumber b len g / 64 ^ (3 - r) % 64) 0 else c.padSymbol := by
  rw [Memory.read_writeAll m hm, length_b64, if_pos (by omega), Nat.sub_zero, getD_b64 c b len g r hg hr]

theorem encoded_rest {len i : Nat} (hi : 4 * groupsFor len ≤ i) :
    (m.writeAll 0 (b64 c b len)).read i = m.read i := by
  rw [Memory.read_writeAll m hm, length_b64, if_neg (by omega)]

end Encoded

/-- Settles O41: the end state of B64O, and the laws of SY for the output bytes. -/
theorem b64oEncodesOutput : Obligations.B64oEncodesOutput := by
  intro s hcfg hsy hs hlen
  exact ⟨_, exec_b64o_eq hs hlen, rfl, symbols_count hcfg hlen, fun _ _ => encoded_symbol hsy s.cfg s.ob _,
    fun _ => encoded_rest hsy s.cfg s.ob⟩

/-- Settles O42: the end state of B64P, and the laws of SY for the plaintext bytes. -/
theorem b64pEncodesPlaintext : Obligations.B64pEncodesPlaintext := by
  intro s hcfg hsy hs hlen
  obtain ⟨-, -, -, -, -, -, -, -, -, hpt⟩ := capacities s.cfg hcfg
  exact ⟨_, exec_b64p_eq hs hlen, rfl, symbols_count hcfg (hlen.trans hpt),
    fun _ _ => encoded_symbol hsy s.cfg s.pt _, fun _ => encoded_rest hsy s.cfg s.pt⟩

/-! ## An admissible table (R153) -/

theorem Config.tableOk_iff (c : Config) :
    c.tableOk = true ↔ c.customTable.length = 64 ∧ c.customTable.Nodup ∧ c.padSymbol ∉ c.customTable := by
  simp [Config.tableOk, and_assoc]

section Table

variable {c : Config} (hc : c.tableOk = true)
include hc

theorem tableEntry_mem {n : Nat} (hn : n < 64) : c.customTable.getD n 0 ∈ c.customTable := by
  obtain ⟨hlen, -, -⟩ := (Config.tableOk_iff c).mp hc
  rw [List.getD_eq_getElem _ _ (hlen ▸ hn)]
  exact List.getElem_mem _

theorem tableEntry_injective {m n : Nat} (hm : m < 64) (hn : n < 64)
    (h : c.customTable.getD m 0 = c.customTable.getD n 0) : m = n := by
  obtain ⟨hlen, hnodup, -⟩ := (Config.tableOk_iff c).mp hc
  rw [List.getD_eq_getElem _ _ (hlen ▸ hm), List.getD_eq_getElem _ _ (hlen ▸ hn)] at h
  exact hnodup.getElem_inj_iff.mp h

end Table

/-! ## The pads (R155, R159) -/

/-- How many of the stream's symbols are pads (R159). -/
def padCount (len : Nat) : Nat := (3 - len % 3) % 3

/-- The test for a pad inside a group, as a test of the symbol's place in the stream. -/
theorem carriesBits_iff {len g r : Nat} (hg : g < groupsFor len) (hr : r < 4) :
    3 * g + r ≤ len ↔ 4 * g + r < 4 * groupsFor len - padCount len := by
  unfold groupsFor padCount at *
  omega

theorem getD_b64_mem {c : Config} (hc : c.tableOk = true) (b : Memory 8) {len i : Nat}
    (hi : i < 4 * groupsFor len - padCount len) : (b64 c b len).getD i 0 ∈ c.customTable := by
  have hg : i / 4 < groupsFor len := by omega
  have hr : i % 4 < 4 := Nat.mod_lt i (by decide)
  rw [← Nat.div_add_mod i 4] at hi ⊢
  rw [getD_b64 c b len _ _ hg hr, if_pos ((carriesBits_iff hg hr).mpr hi)]
  exact tableEntry_mem hc (Nat.mod_lt _ (by decide))

theorem getD_b64_pad (c : Config) (b : Memory 8) {len i : Nat} (hlo : 4 * groupsFor len - padCount len ≤ i)
    (hhi : i < 4 * groupsFor len) : (b64 c b len).getD i 0 = c.padSymbol := by
  have hg : i / 4 < groupsFor len := by omega
  have hr : i % 4 < 4 := Nat.mod_lt i (by decide)
  rw [← Nat.div_add_mod i 4] at hlo ⊢
  rw [getD_b64 c b len _ _ hg hr, if_neg fun h => hlo.not_gt ((carriesBits_iff hg hr).mp h)]

/-- No entry of the table is the pad, so the pads counted are the ones at the end. -/
theorem count_pad_b64 {c : Config} (hc : c.tableOk = true) (b : Memory 8) (len : Nat) :
    (b64 c b len).count c.padSymbol = padCount len := by
  obtain ⟨-, -, hpad⟩ := (Config.tableOk_iff c).mp hc
  have hle : padCount len ≤ 4 * groupsFor len := by unfold padCount groupsFor; omega
  have hfront : ((b64 c b len).take (4 * groupsFor len - padCount len)).count c.padSymbol = 0 := by
    refine List.count_eq_zero.mpr fun hmem => hpad ?_
    obtain ⟨i, hi, heq⟩ := List.mem_take_iff_getElem.mp hmem
    rw [← heq, ← List.getD_eq_getElem _ 0]
    exact getD_b64_mem hc b (by omega)
  have hback : ((b64 c b len).drop (4 * groupsFor len - padCount len)).count c.padSymbol = padCount len := by
    have hall : ∀ x ∈ (b64 c b len).drop (4 * groupsFor len - padCount len), c.padSymbol = x := fun x hx => by
      obtain ⟨i, hi, rfl⟩ := List.mem_drop_iff_getElem.mp hx
      rw [length_b64] at hi
      rw [← List.getD_eq_getElem _ 0, getD_b64_pad c b (by omega) (by omega)]
    rw [List.count_eq_length.mpr hall, List.length_drop, length_b64]
    omega
  rw [← List.take_append_drop (4 * groupsFor len - padCount len) (b64 c b len), List.count_append, hfront, hback,
    Nat.zero_add]

/-! ## The stream determines the bytes (R159) -/

/-- The `r`-th 6 bits of group `g`, from the top (R154). -/
def sextet (b : Memory 8) (len g r : Nat) : Nat := groupNumber b len g / 64 ^ (3 - r) % 64

theorem sextet_lt (b : Memory 8) (len g r : Nat) : sextet b len g r < 64 := Nat.mod_lt _ (by decide)

theorem groupNumber_eq (b : Memory 8) (len g : Nat) :
    groupNumber b len g = (byteAt b len (3 * g)).toNat * 65536 + (byteAt b len (3 * g + 1)).toNat * 256 +
      (byteAt b len (3 * g + 2)).toNat := by
  simp only [groupNumber, byteAt, apply_ite BitVec.toNat]
  rfl

/-- Byte `j` of a group lies across its sextets `j` and `j + 1`. -/
theorem byte_eq_sextets (b : Memory 8) {len g j : Nat} (hj : j < 3) (hin : 3 * g + j < len) :
    (b.read (3 * g + j)).toNat =
      sextet b len g j % 4 ^ (3 - j) * 4 ^ (j + 1) + sextet b len g (j + 1) / 4 ^ (2 - j) := by
  have hbyte : b.read (3 * g + j) = byteAt b len (3 * g + j) := (if_pos hin).symm
  have h0 := (byteAt b len (3 * g)).isLt
  have h1 := (byteAt b len (3 * g + 1)).isLt
  have h2 := (byteAt b len (3 * g + 2)).isLt
  rw [hbyte, sextet, sextet, groupNumber_eq]
  interval_cases j
  · rw [Nat.add_zero]
    omega
  · omega
  · omega

theorem sextet_eq_of_b64_eq {c : Config} (hc : c.tableOk = true) {b b' : Memory 8} {len g r : Nat}
    (h : b64 c b len = b64 c b' len) (hg : g < groupsFor len) (hr : r < 4) (hin : 3 * g + r ≤ len) :
    sextet b len g r = sextet b' len g r := by
  have hsym : (b64 c b len).getD (4 * g + r) 0 = (b64 c b' len).getD (4 * g + r) 0 := by rw [h]
  rw [getD_b64 c b len g r hg hr, getD_b64 c b' len g r hg hr, if_pos hin, if_pos hin] at hsym
  exact tableEntry_injective hc (sextet_lt b len g r) (sextet_lt b' len g r) hsym

theorem read_eq_of_b64_eq {c : Config} (hc : c.tableOk = true) {b b' : Memory 8} {len i : Nat}
    (h : b64 c b len = b64 c b' len) (hi : i < len) : b.read i = b'.read i := by
  have hg : i / 3 < groupsFor len := by unfold groupsFor; omega
  have hj : i % 3 < 3 := Nat.mod_lt i (by decide)
  rw [← Nat.div_add_mod i 3] at hi ⊢
  refine BitVec.eq_of_toNat_eq ?_
  rw [byte_eq_sextets b hj hi, byte_eq_sextets b' hj hi, sextet_eq_of_b64_eq hc h hg (by omega) (by omega),
    sextet_eq_of_b64_eq hc h hg (r := i % 3 + 1) (by omega) (by omega)]

/-- The groups give the length up to 3, and the pads give the rest. -/
theorem len_eq_of_b64_eq {c : Config} (hc : c.tableOk = true) {b b' : Memory 8} {len len' : Nat}
    (h : b64 c b len = b64 c b' len') : len = len' := by
  have hgroups : 4 * groupsFor len = 4 * groupsFor len' := by rw [← length_b64 c b, h, length_b64]
  have hpads : padCount len = padCount len' := by rw [← count_pad_b64 hc b, h, count_pad_b64 hc]
  unfold groupsFor at hgroups
  unfold padCount at hpads
  omega

/-- Settles O43: the pads stand after the table's entries, and each byte is read back from two symbols. -/
theorem symbolStreamLaws : Obligations.SymbolStreamLaws := by
  intro c hc b len
  refine ⟨length_b64 c b len, count_pad_b64 hc b len, fun i hi => ?_, fun b' len' h => ?_⟩
  · split
    · next hlt => exact getD_b64_mem hc b hlt
    · next hge => exact getD_b64_pad c b (Nat.le_of_not_lt hge) hi
  · obtain rfl := len_eq_of_b64_eq hc h
    exact ⟨rfl, fun i => read_eq_of_b64_eq hc h⟩

end Sys2Proof.Machine
end

section
/-! Proofs about the control layer: how the write of a command word ends in a ready block, what a running command lets
the host do, the transfers that end a phase, and the obligations of 44_control.md. -/

namespace Sys2Proof.Machine

/-! ## Acceptance (R172) -/

/-- In a ready block acceptance sets BUSY, and every other flag is 0 after it, ERR from before. -/
theorem accept_eq {s : State} (hs : s.ready) (v : Word) (ph : Phase) (ch : Bool) :
    accept v ph ch s = { s with
      cur := v, ph := ph, chain := ch,
      status := { busy := true, done := false, err := false, rej := false, empty := false } } := by
  obtain ⟨-, he⟩ := hs
  rw [accept, flagsAccepted, he]

/-- Settles O11: under each instruction's conditions none of its checks fails. -/
theorem acceptanceStartsTheSequencer : Obligations.AcceptanceStartsTheSequencer := by
  intro s hs accepted
  have haccepted : ∀ {i : Instr} {ph : Phase} {ch : Bool}, issue i s = accept (encode i) ph ch s →
      writeCommand (encode i) s = accepted (encode i) ph ch := fun h =>
    (writeCommand_encode _ s hs).trans (h.trans (accept_eq hs _ _ _))
  refine ⟨fun t hpt => haccepted ?packm, fun t hkb => haccepted ?packk, fun t h1 hn => haccepted ?unpack,
    fun h2 hn h4 hkn => haccepted ?mix, fun hpos hpt h13 hkb => haccepted ?encode, haccepted ?b64o,
    fun hpt => haccepted ?b64p⟩
  case packm => exact acceptIf_passes _ _ _ _ s (by simpa using lengthCheck_passes hpt)
  case packk => exact acceptIf_passes _ _ _ _ s (by simpa using lengthCheck_passes hkb)
  case unpack =>
    have h0 : s.n ≠ 0 := fun h0 => by simp [h0] at h1
    exact acceptIf_passes _ _ _ _ s (by simpa using ⟨lengthCheck_passes hn, h0⟩)
  case mix =>
    exact acceptIf_passes _ _ _ _ s (by simpa using ⟨lengthCheck_passes hn, h2, lengthCheck_passes hkn, h4⟩)
  case encode =>
    have h0 : s.ptLen ≠ 0 := fun h0 => by simp [h0] at hpos
    have h4 : 4 ≤ wordsFor s.kbLen.toNat := wordsFor_mono h13
    exact (if_neg h0).trans (acceptIf_passes _ _ _ _ s
      (by simpa [encodeChecks] using ⟨lengthCheck_passes hpt, lengthCheck_passes hkb, h4⟩))
  case b64o => rfl
  case b64p => exact acceptIf_passes _ _ _ _ s (by simpa using lengthCheck_passes hpt)

/-! ## What a running command lets the host do (R170, R56) -/

theorem writeEntry_busy {s : State} (hb : s.status.busy = true) (sp : Space) (i : Nat) (v : Word) :
    writeEntry s sp i v = s := by
  by_cases hc : sp = .csr ∧ i = 0
  · obtain ⟨rfl, rfl⟩ := hc
    rw [writeEntry_command, writeCommand_busy v s hb]
  · exact writeEntry_dropped (.inl hb) hc

theorem hostWrite_busy {s t : State} {sp : Space} {i bytes : Nat} {v : Word} (hb : s.status.busy = true)
    (h : hostWrite sp i bytes v s = .next t) : t = s :=
  (hostWrite_next h).2.trans (writeEntry_busy hb sp i v)

theorem busWrite_busy {s t : State} {a bytes : Nat} {v : Word} (hb : s.status.busy = true)
    (h : busWrite a bytes v s = .next t) : t = s := by
  unfold busWrite at h
  split at h
  · cases h
  · exact hostWrite_busy hb h

theorem exec_busy (i : Instr) {s : State} (hb : s.status.busy = true) : exec i s = .next s := by
  rw [exec_eq, if_pos hb]

theorem commandStep_busy {s : State} (v : Word) (hb : s.status.busy = true) : commandStep v s = .next s := by
  cases hd : decode v with
  | ok i => rw [commandStep_ok hd, exec_busy i hb]
  | error r => rw [commandStep_error hd, writeCommand_busy v s hb]

/-- An answered host event takes itself off the schedule of a busy block, and a read sends a value back besides. -/
theorem runEvent_busy {s t : State} {e : Event} {rest : List Event} (hb : s.status.busy = true)
    (he : e.isHost = true) (h : runEvent e rest s = .next t) :
    t = s.withEvents rest ∨ ∃ v, t = (s.withEvents rest).reply v := by
  have hb' : (s.withEvents rest).status.busy = true := hb
  cases e with
  | read sp i b => exact .inr ⟨_, hostRead_next h⟩
  | busRead a b => exact .inr (busRead_next h)
  | write sp i b v => exact .inl (hostWrite_busy hb' h)
  | busWrite a b v => exact .inl (busWrite_busy hb' h)
  | command v =>
    cases (commandStep_busy v hb').symm.trans h
    exact .inl rfl
  | engine | wait | hwReset => cases he

/-- Settles O16: neither the schedule nor the replies are the block's. -/
theorem busyShutsTheHostOut : Obligations.BusyShutsTheHostOut := by
  intro s t e rest hb he h
  rcases runEvent_busy hb he h with rfl | ⟨v, rfl⟩ <;> exact ⟨rfl, rfl⟩

/-- Settles O17: BUSY shuts out every instruction, ERR every one but SRESET. -/
theorem droppedCommandsDoNothing : Obligations.DroppedCommandsDoNothing := fun i s =>
  ⟨exec_busy i, fun _ he hi => (exec_of_ne_sreset hi s).trans (unlessDropped_err s he _)⟩

/-! ## SRESET (R178) -/

theorem exec_sreset_idle {s : State} (hb : s.status.busy = false) : exec .sreset s = .next (softReset s) :=
  if_neg (by simp [hb])

/-- In the fault state, and while a command runs, no word but SRESET's changes anything. -/
theorem writeCommand_err_dropped {v : Word} {s : State} (hv : v ≠ 0x0000000F) (he : s.status.err = true) :
    writeCommand v s = s := by
  cases hb : s.status.busy with
  | true => exact writeCommand_busy v s hb
  | false => rw [writeCommand_err v s hb he, if_neg hv]

/-- Settles O9: in an idle block both ways lead to `softReset s`, which is the reset state but for the schedule and the
replies. -/
theorem sresetClearsEverything : Obligations.SresetClearsEverything := by
  refine ⟨rfl, fun s => ⟨fun hb => ?idle, fun hb => ?busy, fun v hv he => writeCommand_err_dropped hv he⟩⟩
  case idle =>
    exact ⟨softReset s, exec_sreset_idle hb, writeCommand_sreset hb, rfl, readEntry_resetWith s.cfg, rfl, rfl⟩
  case busy => exact ⟨exec_busy .sreset hb, writeCommand_busy _ s hb⟩

/-! ## CUR (R171) -/

/-- Without the two words that complete inside the host's step, ENCODE's with an empty plaintext and SRESET's, the write
of a word to a ready block accepts that word or faults. -/
theorem writeCommand_accepts_or_faults {v : Word} {s : State} (hs : s.ready)
    (hshort : ¬ (v = encode .encode ∧ s.ptLen = 0)) (hreset : v ≠ encode .sreset) :
    (∃ ph ch, writeCommand v s = accept v ph ch s) ∨ ∃ c info, writeCommand v s = raiseFault c info s := by
  cases hd : decode v with
  | error r => exact .inr ⟨_, _, writeCommand_illegal v s hs hd⟩
  | ok i =>
    obtain rfl := decode_eq_ok_iff.mp hd
    rw [writeCommand_encode i s hs]
    cases issue_issued i s with
    | accepted ph ch _ h => exact .inl ⟨ph, ch, h⟩
    | faulted c info _ h => exact .inr ⟨c, info, h⟩
    | shortCircuit hi h0 _ => exact absurd ⟨congrArg encode hi, h0⟩ hshort
    | reset hi _ => exact absurd (congrArg encode hi) hreset

/-- Settles O18: the two words that complete at once, and for the others acceptance or a fault. -/
theorem curHoldsTheAcceptedWord : Obligations.CurHoldsTheAcceptedWord := by
  refine ⟨fun v s hs => ?ready, fun v s hb => ?busy, fun v s hb he => ?err, fun s t h => (engineTurn_keeps h).cur⟩
  case ready =>
    have hb : s.status.busy = false := hs.1
    by_cases hshort : v = 0x00000004 ∧ s.ptLen = 0
    · have hw : writeCommand v s = encodeShortCircuit s := by
        rw [hshort.1, ← issue_encode_empty hshort.2]
        exact writeCommand_encode .encode s hs
      rw [hw, if_neg (by simp [hb]), if_pos hshort]
      rfl
    by_cases hreset : v = 0x0000000F
    · rw [if_neg hshort, if_pos hreset, hreset, writeCommand_sreset hb]
      rfl
    rw [if_neg hshort, if_neg hreset]
    rcases writeCommand_accepts_or_faults hs hshort hreset with ⟨ph, ch, hw⟩ | ⟨c, info, hw⟩
    · rw [hw]
      rfl
    · rw [hw, if_neg (by simp [hb])]
      rfl
  case busy => rw [writeCommand_busy v s hb]
  case err =>
    rw [writeCommand_err v s hb he]
    split <;> rfl

/-! ## The sequencer (R173, R175, R176) -/

/-- Phase 5 ends ENCODE's chain. -/
theorem advance_unpack {s : State} (hp : s.ph = .unpack) : advance s = .next (complete s) := by
  cases hc : s.chain with
  | false => exact advance_single s hc
  | true => simp [advance, hc, hp]

/-- Settles O19: outside ENCODE every phase completes the command; inside it the phases hand over along `chainNext`. -/
theorem phaseAdvanceFollowsTheChain : Obligations.PhaseAdvanceFollowsTheChain := by
  intro s completed
  have hchain : ∀ {p q : Phase}, chainNext p = some q → s.chain = true → s.ph = p →
      advance s = .next { s with ph := q } := fun hpq hc hp => advance_chained hc (hp ▸ hpq)
  exact ⟨advance_single s, hchain rfl, hchain rfl, hchain rfl, fun _ => advance_unpack⟩

theorem tEff_chained {s : State} (hc : s.chain = true) : tEff s = (s.ph == .packm) := if_pos hc

theorem tEff_single {s : State} (hc : s.chain = false) : tEff s = s.cur.getLsbD 4 := if_neg (by simp [hc])

/-- Settles O20: inside ENCODE the phase decides T, and alone the command word does. -/
theorem effectiveFlagBits : Obligations.EffectiveFlagBits := fun s =>
  ⟨fun hc hp => by simp [tEff_chained hc, hp], fun hc hp => by simp [tEff_chained hc, hp], tEff_single, rfl⟩

end Sys2Proof.Machine
end

section
/-! Proofs about the exceptions: the illegal words, the faults that a command write raises and the order of its checks,
where an error can come from and how the fault state is left, and the obligations of 60_exceptions.md. -/

namespace Sys2Proof.Machine

/-! ## The illegal words (R74, R201) -/

/-- A command that has neither `S` nor `T` rejects each of the two bits. -/
theorem plainCommand_error_iff (f : CmdFields) (i : Instr) :
    (∃ r, plainCommand f i = .error r) ↔ f.s = true ∨ f.t = true := by
  unfold plainCommand
  cases f.s <;> cases f.t <;> simp

/-- The list of R74 on fields, read off the decoder of R73 one operation code at a time. -/
theorem decodeFields_error_iff (f : CmdFields) :
    (∃ r, decodeFields f = .error r) ↔
      f.zero ≠ 0 ∨ f.op.toNat = 0 ∨ (6 ≤ f.op.toNat ∧ f.op.toNat ≤ 0xE) ∨
      (f.s = true ∧ (f.op.toNat = 2 ∨ f.op.toNat = 3 ∨ f.op.toNat = 4 ∨ f.op.toNat = 0xF)) ∨
      (f.t = true ∧ (f.op.toNat = 3 ∨ f.op.toNat = 4 ∨ f.op.toNat = 5 ∨ f.op.toNat = 0xF)) := by
  unfold decodeFields
  split
  case isTrue hzero => exact iff_of_true ⟨_, rfl⟩ (.inl hzero)
  case isFalse hzero =>
  have hzero : f.zero = 0#26 := not_not.mp hzero
  split
  case isTrue hpack => simp [hpack, hzero]
  split
  case isTrue hunpack => cases hs : f.s <;> simp [hunpack, hzero]
  split
  case isTrue hmix => simp [plainCommand_error_iff, hmix, hzero]
  split
  case isTrue hencode => simp [plainCommand_error_iff, hencode, hzero]
  split
  case isTrue hb64 => cases ht : f.t <;> simp [hb64, hzero]
  split
  case isTrue hsreset => simp [plainCommand_error_iff, hsreset, hzero]
  have hcode : f.op.toNat = 0 ∨ (6 ≤ f.op.toNat ∧ f.op.toNat ≤ 0xE) := by bv_omega
  exact iff_of_true ⟨_, rfl⟩ (.inr (hcode.imp_right .inl))

/-- CMD is register 0 of the register file, one word wide (R34, R53). -/
theorem hostWrite_command (v : Word) (s : State) : hostWrite .csr 0 4 v s = .next (writeCommand v s) := by
  rw [hostWrite_allowed (sp := .csr) (bytes := 4) (by simp [capacity]) rfl, writeEntry_command]

/-- Settles O5: the decoder rejects exactly R74's list, and in a ready block a rejected word is raised as a fault. -/
theorem illegalWordsFault : Obligations.IllegalWordsFault := by
  refine fun v => ⟨decodeFields_error_iff (fieldsOf v), fun s hs ⟨r, hr⟩ => ?_⟩
  rw [hostWrite_command, writeCommand_illegal v s hs hr]
  rfl

/-! ## The first failing check (R207) -/

section Checks

variable {c : Check} {v : Word} {ph : Phase} {ch : Bool} {s : State}

theorem acceptIf_fails (cs : List Check) (h : c.fails = true) :
    acceptIf (c :: cs) v ph ch s = raiseFault c.cause c.info s := by
  simp [acceptIf, firstFailing, h]

theorem acceptIf_skips (cs : List Check) (h : c.fails = false) :
    acceptIf (c :: cs) v ph ch s = acceptIf cs v ph ch s := by
  simp [acceptIf, firstFailing, h]

end Checks

/-- An instruction whose issue faults in a ready block is that fault: it has no engine part. -/
theorem exec_of_faulted {i : Instr} {s : State} (hs : s.ready) {c : Cause} {info : Word}
    (h : issue i s = raiseFault c info s) : exec i s = .next (raiseFault c info s) := by
  rw [exec_ready i s hs, h, ifAccepted_raiseFault c info s hs.1]

/-- Settles O12: the checks before the failing one are passed, and the failing one is raised. -/
theorem firstFailingCheckFaults : Obligations.FirstFailingCheckFaults := by
  intro s hs faults nCap knCap
  have hfault : ∀ {i c info}, issue i s = raiseFault c info s → faults i c info := exec_of_faulted hs
  have hnonempty : 0 < s.ptLen.toNat → issue .encode s = acceptIf (encodeChecks s) (encode .encode) .packm true s :=
    fun hpos => if_neg fun h0 => by simp [h0] at hpos
  refine ⟨fun v ⟨r, hr⟩ => writeCommand_illegal v s hs hr,
    fun t hpt => hfault (acceptIf_fails _ (lengthCheck_fails hpt)),
    fun t hkb => hfault (acceptIf_fails _ (lengthCheck_fails hkb)),
    fun t hn => hfault (acceptIf_fails _ (lengthCheck_fails hn)), fun t h0 => hfault ?unpackEmpty,
    fun hn => hfault (acceptIf_fails _ (lengthCheck_fails hn)), fun h2 => hfault ?mixShort,
    fun h2 hn hkn => hfault ?mixKeyLong, fun hcfg h2 hn h4 => hfault ?mixKeyShort, fun hpt => hfault ?encodeTextLong,
    fun hpos hpt hkb => hfault ?encodeKeyLong, fun hcfg hpos hpt h13 => hfault ?encodeKeyShort,
    fun hpt => hfault (acceptIf_fails _ (lengthCheck_fails hpt)), fun h0 => ?encodeEmpty, ?b64o, ?sreset⟩
  case unpackEmpty =>
    have hn : s.n.toNat ≤ nMax s.cfg := by simp [h0]
    exact (acceptIf_skips _ (lengthCheck_passes hn)).trans (acceptIf_fails _ (by simpa using h0))
  case mixShort =>
    have hn : s.n.toNat ≤ nMax s.cfg := by unfold nMax; omega
    exact (acceptIf_skips _ (lengthCheck_passes hn)).trans (acceptIf_fails _ (decide_eq_true h2))
  case mixKeyLong =>
    exact (acceptIf_skips _ (lengthCheck_passes hn)).trans <|
      (acceptIf_skips _ (decide_eq_false h2.not_gt)).trans (acceptIf_fails _ (lengthCheck_fails hkn))
  case mixKeyShort =>
    obtain ⟨-, -, -, -, -, hcap, -⟩ := capacities s.cfg hcfg
    have hkn : s.kn.toNat ≤ knMax s.cfg := by omega
    exact (acceptIf_skips _ (lengthCheck_passes hn)).trans <| (acceptIf_skips _ (decide_eq_false h2.not_gt)).trans <|
      (acceptIf_skips _ (lengthCheck_passes hkn)).trans (acceptIf_fails _ (decide_eq_true h4))
  case encodeTextLong =>
    exact (hnonempty (Nat.zero_lt_of_lt hpt)).trans (acceptIf_fails _ (lengthCheck_fails hpt))
  case encodeKeyLong =>
    exact (hnonempty hpos).trans <|
      (acceptIf_skips _ (lengthCheck_passes hpt)).trans (acceptIf_fails _ (lengthCheck_fails hkb))
  case encodeKeyShort =>
    obtain ⟨-, -, hcap, -⟩ := capacities s.cfg hcfg
    have hkb : s.kbLen.toNat ≤ s.cfg.kbMax := by omega
    have h4 : wordsFor s.kbLen.toNat < 4 := by unfold wordsFor; omega
    exact (hnonempty hpos).trans <| (acceptIf_skips _ (lengthCheck_passes hpt)).trans <|
      (acceptIf_skips _ (lengthCheck_passes hkb)).trans (acceptIf_fails _ (decide_eq_true h4))
  case encodeEmpty =>
    rw [writeCommand_encode _ s hs, issue_encode_empty h0]
    exact hs.2
  case b64o =>
    rw [writeCommand_encode _ s hs]
    exact hs.2
  case sreset =>
    rw [writeCommand_encode _ s hs]
    rfl

/-! ## Faults are precise (R206, R208) -/

/-- A command write to a ready block after which ERR = 1 has raised a fault, for only a fault sets ERR. -/
theorem writeCommand_faulted {v : Word} {s : State} (hs : s.ready) (h : (writeCommand v s).status.err = true) :
    ∃ c info, c ≠ .none ∧ writeCommand v s = raiseFault c info s := by
  cases hd : decode v with
  | error r => exact ⟨.illegalCmd, v, by simp, writeCommand_illegal v s hs hd⟩
  | ok i =>
    rw [writeCommand_legal v s hs hd] at h ⊢
    have hclear : s.status.err ≠ true := by simp [hs.2]
    cases issue_issued i s with
    | faulted c info hc hi => exact ⟨c, info, hc, hi⟩
    | accepted ph ch _ hi => rw [hi] at h; exact absurd h hclear
    | shortCircuit _ _ hi => rw [hi] at h; exact absurd h hclear
    | reset _ hi => rw [hi] at h; cases h

/-- Settles O13: an error after a command write is a raised fault, and the engine keeps the fault registers. -/
theorem faultsArePrecise : Obligations.FaultsArePrecise :=
  ⟨fun _ _ hs h => writeCommand_faulted hs h, fun _ _ h =>
    have hk := engineTurn_keeps h
    ⟨hk.err, hk.cause, hk.einfo⟩⟩

/-! ## What an answered write does -/

/-- An answered host write is a command write, or it is dropped, or it stores where the gate is open (R56). -/
theorem hostWrite_effect {sp : Space} {i bytes : Nat} {v : Word} {s t : State}
    (h : hostWrite sp i bytes v s = .next t) :
    (sp = .csr ∧ i = 0 ∧ bytes = 4 ∧ t = writeCommand v s) ∨ t = s ∨ (s.ready ∧ t = storeEntry s sp i v) := by
  obtain ⟨ha, rfl⟩ := hostWrite_next h
  by_cases hc : sp = .csr ∧ i = 0
  · obtain ⟨rfl, rfl⟩ := hc
    exact .inl ⟨rfl, rfl, (accessRefusal_eq_none ha).2, writeEntry_command s v⟩
  · rcases ready_or_shut s with hs | hshut
    · exact .inr (.inr ⟨hs, writeEntry_open hs hc⟩)
    · exact .inr (.inl (writeEntry_dropped hshut hc))

/-- An answered bus write is the host write of the entry at its address (R53). -/
theorem busWrite_next {a bytes : Nat} {v : Word} {s t : State} (h : busWrite a bytes v s = .next t) :
    ∃ sp i, busEntry s.cfg a = some (sp, i) ∧ hostWrite sp i bytes v s = .next t := by
  unfold busWrite at h
  split at h
  · cases h
  · next sp i he => exact ⟨sp, i, he, h⟩

/-! ## Where an error comes from (R200) -/

/-- Of the host writes only a command write can raise an error. -/
theorem hostWrite_raises {sp : Space} {i bytes : Nat} {v : Word} {s t : State}
    (h : hostWrite sp i bytes v s = .next t) (hs : s.status.err = false) (ht : t.status.err = true) :
    sp = .csr ∧ i = 0 ∧ bytes = 4 := by
  rcases hostWrite_effect h with ⟨hsp, hi, hb, -⟩ | rfl | ⟨-, rfl⟩
  · exact ⟨hsp, hi, hb⟩
  · exact absurd ht (by simp [hs])
  · obtain ⟨hstatus, -⟩ := storeEntry_keeps s sp i v
    exact absurd ht (by simp [hstatus, hs])

theorem engineTurn_raises_nothing {s t : State} (h : engineTurn s = .next t) (hs : s.status.err = false) :
    t.status.err = false := (engineTurn_keeps h).err.trans hs

/-- Settles O14: every event that is no write of CSR.CMD keeps ERR = 0. -/
theorem errorsComeFromCommandWrites : Obligations.ErrorsComeFromCommandWrites := by
  intro s t hs h ht
  have hclear : t.status.err ≠ false := by simp [ht]
  cases hev : s.events with
  | nil =>
    rw [step, hev] at h
    exact absurd (engineTurn_raises_nothing h hs) hclear
  | cons e rest =>
    rw [step, hev] at h
    refine ⟨e, rest, rfl, ?_⟩
    cases e with
    | command v => exact .inl ⟨v, rfl⟩
    | write sp i b v =>
      obtain ⟨rfl, rfl, rfl⟩ := hostWrite_raises h hs ht
      exact .inr (.inl ⟨v, rfl⟩)
    | busWrite a b v =>
      obtain ⟨sp, i, he, hw⟩ := busWrite_next h
      obtain ⟨rfl, rfl, rfl⟩ := hostWrite_raises hw hs ht
      exact .inr (.inr ⟨a, v, rfl, he⟩)
    | engine => exact absurd (engineTurn_raises_nothing h hs) hclear
    | read sp i b =>
      obtain rfl := hostRead_next h
      exact absurd hs hclear
    | busRead a b =>
      obtain ⟨v, rfl⟩ := busRead_next h
      exact absurd hs hclear
    | wait =>
      by_cases hb : s.status.busy = true
      · exact absurd ((engineStep_keeps ((if_pos hb).symm.trans h)).err.trans hs) hclear
      · cases (if_neg hb).symm.trans h
        exact absurd hs hclear
    | hwReset =>
      cases h
      exact absurd rfl hclear

/-! ## The fault state (R209) -/

/-- In the fault state an answered host write but SRESET's changes nothing. -/
theorem hostWrite_faulted {sp : Space} {i bytes : Nat} {v : Word} {s t : State} (he : s.status.err = true)
    (h : hostWrite sp i bytes v s = .next t) (hv : sp = .csr → i = 0 → bytes = 4 → v ≠ 0x0000000F) : t = s := by
  rcases hostWrite_effect h with ⟨hsp, hi, hb, rfl⟩ | rfl | ⟨hs, -⟩
  · exact writeCommand_err_dropped (hv hsp hi hb) he
  · rfl
  · exact absurd he (by simp [hs.2])

/-- In the fault state a command event of another word than SRESET's changes nothing. -/
theorem commandStep_faulted {v : Word} {s : State} (he : s.status.err = true) (hv : v ≠ 0x0000000F) :
    commandStep v s = .next s := by
  cases hd : decode v with
  | ok i =>
    have hi : i ≠ .sreset := by
      rintro rfl
      exact hv (decode_eq_ok_iff.mp hd)
    rw [commandStep_ok hd, exec_of_ne_sreset hi, unlessDropped_err s he]
  | error r => rw [commandStep_error hd, writeCommand_err_dropped hv he]

/-- In the fault state an answered host event that does not write SRESET's word takes itself off the schedule, and a
read sends a value back besides. -/
theorem runEvent_faulted {s t : State} {e : Event} {rest : List Event} (he : s.status.err = true)
    (hhost : e.isHost = true) (h : runEvent e rest s = .next t) (hcommand : e ≠ .command 0x0000000F)
    (hwrite : e ≠ .write .csr 0 4 0x0000000F)
    (hbus : ∀ a, e = .busWrite a 4 0x0000000F → busEntry s.cfg a ≠ some (.csr, 0)) :
    t = s.withEvents rest ∨ ∃ v, t = (s.withEvents rest).reply v := by
  have he' : (s.withEvents rest).status.err = true := he
  cases e with
  | read sp i b => exact .inr ⟨_, hostRead_next h⟩
  | busRead a b => exact .inr (busRead_next h)
  | write sp i b v =>
    refine .inl (hostWrite_faulted he' h ?_)
    rintro rfl rfl rfl rfl
    exact hwrite rfl
  | busWrite a b v =>
    obtain ⟨sp, i, hentry, hw⟩ := busWrite_next h
    refine .inl (hostWrite_faulted he' hw ?_)
    rintro rfl rfl rfl rfl
    exact hbus a rfl hentry
  | command v =>
    have hv : v ≠ 0x0000000F := fun hv => hcommand (congrArg Event.command hv)
    cases (commandStep_faulted he' hv).symm.trans h
    exact .inl rfl
  | engine | wait | hwReset => cases hhost

/-- Settles O15: an idle engine has no step, the gate drops every other write, and each way out is a reset. -/
theorem faultStateIsSticky : Obligations.FaultStateIsSticky := by
  intro s hb he clears
  have hclears : ∀ u : State, clears (.next (softReset u)) := fun u => ⟨softReset u, rfl, rfl, rfl, rfl⟩
  have hwrite : clears (hostWrite .csr 0 4 0x0000000F s) := by
    rw [hostWrite_command, writeCommand_sreset hb]
    exact hclears s
  refine ⟨if_neg (by simp [hb]), fun e rest t hhost h hcommand hword hbus => ?sticky, hwrite, fun a ha => ?bus,
    fun rest => ?command, fun rest => hclears _⟩
  case sticky =>
    rcases runEvent_faulted he hhost h hcommand hword hbus with rfl | ⟨v, rfl⟩ <;> rfl
  case bus => rwa [busWrite_entry ha]
  case command =>
    have hexec : runEvent (.command 0x0000000F) rest s = exec .sreset (s.withEvents rest) :=
      commandStep_ok (decode_own_word .sreset) _
    rw [hexec, exec_sreset_idle (s := s.withEvents rest) hb]
    exact hclears _

end Sys2Proof.Machine
end

section
/-! Proofs about resets and about how long a command runs: what no command changes, how many turns the engine still
needs, that each turn takes one off and the last one completes the command, and the obligations of
70_reset_and_hazards.md. -/

namespace Sys2Proof.Machine

/-! ## Hardware reset (R230, R231) -/

theorem step_hwReset {s : State} {rest : List Event} (h : s.events = .hwReset :: rest) :
    step s = .next (softReset (s.withEvents rest)) := by
  rw [step, h]
  rfl

/-- Settles O8: the reset reads neither the phase nor BUSY, and every entry of the state it leads to reads 0. -/
theorem hardwareResetFromAnyState : Obligations.HardwareResetFromAnyState := fun s rest h =>
  ⟨softReset (s.withEvents rest), step_hwReset h, rfl, readEntry_resetWith s.cfg, rfl, rfl⟩

/-! ## The operands (R233) -/

/-- The operands that the host wrote for the commands to read are still there. -/
structure OperandsKept (s t : State) : Prop where
  pt : t.pt = s.pt
  kb : t.kb = s.kb
  ptLen : t.ptLen = s.ptLen
  kbLen : t.kbLen = s.kbLen

theorem EngineKeeps.operandsKept {s t : State} (h : EngineKeeps s t) : OperandsKept s t :=
  ⟨h.pt, h.kb, h.ptLen, h.kbLen⟩

theorem OperandsKept.fields {s t : State} (h : OperandsKept s t) :
    t.pt = s.pt ∧ t.kb = s.kb ∧ t.ptLen = s.ptLen ∧ t.kbLen = s.kbLen := ⟨h.pt, h.kb, h.ptLen, h.kbLen⟩

theorem OperandsKept.trans {s t u : State} (h : OperandsKept s t) (k : OperandsKept t u) : OperandsKept s u :=
  ⟨k.pt.trans h.pt, k.kb.trans h.kb, k.ptLen.trans h.ptLen, k.kbLen.trans h.kbLen⟩

/-- Of the ways an issue can end only a reset touches the operands. -/
theorem issue_operandsKept {i : Instr} (hi : i ≠ .sreset) (s : State) : OperandsKept s (issue i s) := by
  cases issue_issued i s with
  | accepted _ _ _ h | faulted _ _ _ h | shortCircuit _ _ h =>
    rw [h]
    exact ⟨rfl, rfl, rfl, rfl⟩
  | reset h _ => exact absurd h hi

theorem exec_operandsKept {i : Instr} (hi : i ≠ .sreset) {s t : State} (h : exec i s = .next t) :
    OperandsKept s t := by
  rw [exec_of_ne_sreset hi, unlessDropped] at h
  split at h
  · cases h
    exact ⟨rfl, rfl, rfl, rfl⟩
  · have hissue := issue_operandsKept hi s
    rw [ifAccepted] at h
    split at h
    · exact hissue.trans (enginePart_keeps i h).operandsKept
    · cases h
      exact hissue

/-- Settles O50: neither the issue of a command nor any engine step writes the operands. -/
theorem commandsKeepTheOperands : Obligations.CommandsKeepTheOperands :=
  ⟨fun _ _ _ hi h => (exec_operandsKept hi h).fields, fun _ _ h => (engineTurn_keeps h).operandsKept.fields⟩

/-! ## How many turns the engine still needs (R243) -/

/-- The position steps of a mix of `n` words: `Q * N` (R119). -/
def mixSteps (n : Nat) : Nat := roundCount n * n

/-- The engine's steps up to the end of the phase that the sequencer is in; a mix counts as one phase. -/
def phaseSteps (s : State) : Nat :=
  match s.ph with
  | .idle => 0
  | .packm | .packk | .unpack | .b64 => 1
  | .mixi => 1 + mixSteps s.n.toNat
  | .mixr => (s.q.toNat - s.rnd.toNat - 1) * s.n.toNat + (s.n.toNat - s.pos.toNat)

/-- The engine's steps after that phase: those of the rest of ENCODE's chain (R142). -/
def chainSteps (s : State) : Nat :=
  if s.chain = false then 0
  else match s.ph with
    | .packm => 3 + mixSteps (wordsFor s.ptLen.toNat + 1)
    | .packk => 2 + mixSteps s.n.toNat
    | .mixi | .mixr => 1
    | .idle | .unpack | .b64 => 0

/-- The engine's steps to the completion of the command that runs. -/
def stepsLeft (s : State) : Nat := phaseSteps s + chainSteps s

/-- What one turn of `n` leaves: one turn less, and DONE = 1 if the command has completed. -/
structure OneLess (n : Nat) (t : State) : Prop where
  left : stepsLeft t + 1 = n
  done : t.status.busy = false → t.status.done = true

theorem OneLess.of_busy {n : Nat} {t : State} (hb : t.status.busy = true) (h : stepsLeft t + 1 = n) : OneLess n t :=
  ⟨h, fun hidle => absurd (hb.symm.trans hidle) (by simp)⟩

theorem phaseSteps_one {s : State} (hp : s.ph = .packm ∨ s.ph = .packk ∨ s.ph = .unpack ∨ s.ph = .b64) :
    phaseSteps s = 1 := by
  rcases hp with hp | hp | hp | hp <;> rw [phaseSteps, hp]

theorem chainSteps_single {s : State} (hc : s.chain = false) : chainSteps s = 0 := if_pos hc

/-- A chained phase that ends is UNPACK's or hands over. -/
theorem advance_chained_phase {s t : State} (h : advance s = .next t) (hc : s.chain = true) :
    s.ph = .unpack ∨ ∃ p, chainNext s.ph = some p := by
  cases hp : s.ph with
  | packm | packk | mixr => exact .inr ⟨_, rfl⟩
  | unpack => exact .inl rfl
  | idle | mixi | b64 => simp [advance, hc, hp] at h

/-- The step that ends a phase leaves the steps of the rest of the chain. -/
theorem advance_oneLess {s t : State} (h : advance s = .next t) (hb : s.status.busy = true)
    (hn : ∀ p, s.chain = true → chainNext s.ph = some p → stepsLeft { s with ph := p } = chainSteps s) :
    OneLess (1 + chainSteps s) t := by
  have hcomplete : chainSteps s = 0 → OneLess (1 + chainSteps s) (complete s) := fun h0 => by
    rw [h0]
    exact ⟨rfl, fun _ => rfl⟩
  cases hc : s.chain with
  | false =>
    cases (advance_single s hc).symm.trans h
    exact hcomplete (chainSteps_single hc)
  | true =>
    rcases advance_chained_phase h hc with hp | ⟨p, hp⟩
    · cases (advance_unpack hp).symm.trans h
      exact hcomplete (by simp [chainSteps, hp])
    · cases (advance_chained hc hp).symm.trans h
      exact .of_busy hb (by rw [hn p hc hp, Nat.add_comm])

/-! ## Each phase step takes one off -/

theorem phasePackm_oneLess {s t : State} (hi : Inv s) (hp : s.ph = .packm) (h : phasePackm s = .next t) :
    OneLess (stepsLeft s) t := by
  obtain ⟨hpt, -⟩ := hi.packmReady hp
  obtain ⟨-, -, -, -, hmax, -⟩ := capacities s.cfg hi.cfgOk
  rw [phasePackm_eq s hpt] at h
  have hless := advance_oneLess h (hi.busy_of_phase hp (by simp)) fun p hc hnext => by
    obtain rfl : Phase.packk = p := by simpa [hp, chainNext] using hnext
    replace hc : s.chain = true := hc
    have hn : (BitVec.ofNat 32 (pack s.pt s.ptLen.toNat (tEff s)).length).toNat = wordsFor s.ptLen.toNat + 1 := by
      rw [length_pack, tEff_chained hc, hp]
      exact toNat_count ((Nat.succ_le_succ (wordsFor_mono hpt)).trans hmax)
    simp only [stepsLeft, phaseSteps, chainSteps, hc, hp, hn, Bool.true_eq_false, if_false]
    omega
  simpa [stepsLeft, phaseSteps, chainSteps, hp] using hless

theorem phasePackk_oneLess {s t : State} (hi : Inv s) (hp : s.ph = .packk) (h : phasePackk s = .next t) :
    OneLess (stepsLeft s) t := by
  rw [phasePackk_eq s (hi.packkReady hp).1] at h
  have hless := advance_oneLess h (hi.busy_of_phase hp (by simp)) fun p hc hnext => by
    obtain rfl : Phase.mixi = p := by simpa [hp, chainNext] using hnext
    replace hc : s.chain = true := hc
    simp only [stepsLeft, phaseSteps, chainSteps, hc, hp, Bool.true_eq_false, if_false]
    omega
  simpa [stepsLeft, phaseSteps, chainSteps, hp] using hless

theorem phaseUnpack_oneLess {s t : State} (hi : Inv s) (hp : s.ph = .unpack) (h : phaseUnpack s = .next t) :
    OneLess (stepsLeft s) t := by
  obtain ⟨h1, hn⟩ := hi.unpackReady hp
  rw [phaseUnpack_eq s h1 hn] at h
  have hless := advance_oneLess h (hi.busy_of_phase hp (by simp)) fun p _ hnext => by
    simp [hp, chainNext] at hnext
  simpa [stepsLeft, phaseSteps, chainSteps, hp] using hless

theorem phaseB64_oneLess {s t : State} (hi : Inv s) (hp : s.ph = .b64) (h : phaseB64 s = .next t) :
    OneLess (stepsLeft s) t := by
  rw [phaseB64_eq s (b64Source_le hi hp)] at h
  have hless := advance_oneLess h (hi.busy_of_phase hp (by simp)) fun p _ hnext => by
    simp [hp, chainNext] at hnext
  simpa [stepsLeft, phaseSteps, chainSteps, hp] using hless

theorem phaseMixi_oneLess {s t : State} (hi : Inv s) (hp : s.ph = .mixi) (h : phaseMixi s = .next t) :
    OneLess (stepsLeft s) t := by
  have hb := hi.busy_of_phase hp (by simp)
  have hrounds : (roundCount s.n.toNat - 1) * s.n.toNat + s.n.toNat = mixSteps s.n.toNat := by
    rw [← Nat.succ_mul, Nat.succ_eq_add_one, Nat.sub_add_cancel (roundCount_pos _), mixSteps]
  rw [phaseMixi_eq s (hi.mixiReady hp)] at h
  cases h
  refine .of_busy hb ?_
  simp only [stepsLeft, phaseSteps, chainSteps, hp, toNat_roundCount, show (0 : Word).toNat = 0 from rfl,
    Nat.sub_zero]
  omega

/-- In the round there are the positions from this one on, and each later round has all of them (R117). -/
theorem phaseMixr_oneLess {s t : State} (hi : Inv s) (hp : s.ph = .mixr) (h : phaseMixr s = .next t) :
    OneLess (stepsLeft s) t := by
  have hb := hi.busy_of_phase hp (by simp)
  obtain ⟨hn2, hn, hk4, hkn, hq, hrnd, hpos, -⟩ := hi.mixing hp
  have hnlt := s.n.isLt
  have hqlt := s.q.isLt
  have hrnd' : (s.rnd + 1).toNat = s.rnd.toNat + 1 := BitVec.toNat_add_of_lt (by simp; omega)
  rw [phaseMixr_eq s ((mixable_iff s).mpr ⟨hn2, hn, hk4, hkn⟩) hpos] at h
  rcases mixAdvance_next h with ⟨hlast, rfl⟩ | ⟨hlast, hmore, rfl⟩ | ⟨hlast, hend, hadv⟩
  · -- the next position of the sweep
    dsimp only at hlast
    have hpos' : (s.pos + 1).toNat = s.pos.toNat + 1 := BitVec.toNat_add_of_lt (by simp; omega)
    refine .of_busy hb ?_
    simp only [stepsLeft, phaseSteps, chainSteps, hp, hpos']
    omega
  · -- position 0 of the next round
    dsimp only at hlast hmore
    have hne : (s.rnd + 1).toNat ≠ s.q.toNat := fun he => hmore (BitVec.eq_of_toNat_eq he)
    have hrounds : (s.q.toNat - (s.rnd.toNat + 1) - 1) * s.n.toNat + s.n.toNat =
        (s.q.toNat - s.rnd.toNat - 1) * s.n.toNat := by
      rw [← Nat.succ_mul]
      congr 1
      omega
    refine .of_busy hb ?_
    simp only [stepsLeft, phaseSteps, chainSteps, hp, hrnd', show (0 : Word).toNat = 0 from rfl]
    omega
  · -- the last position of the last round
    dsimp only at hlast hend
    have hless := advance_oneLess hadv hb fun p hc hnext => by
      obtain rfl : Phase.unpack = p := by simpa [hp, chainNext] using hnext
      replace hc : s.chain = true := hc
      simp [stepsLeft, phaseSteps, chainSteps, hc, hp]
    have hone : phaseSteps s = 1 := by
      have hlastRound : s.q.toNat - s.rnd.toNat - 1 = 0 := by rw [← hend, hrnd']; omega
      simp only [phaseSteps, hp, hlastRound]
      omega
    rw [stepsLeft, hone]
    exact hless

theorem engineTurn_busy {s : State} (hb : s.status.busy = true) : engineTurn s = engineStep s := if_pos hb

theorem engineTurn_oneLess {s t : State} (hi : Inv s) (hb : s.status.busy = true) (h : engineTurn s = .next t) :
    OneLess (stepsLeft s) t := by
  rw [engineTurn_busy hb, engineStep] at h
  split at h
  · cases h
  · next hp => exact phasePackm_oneLess hi hp h
  · next hp => exact phasePackk_oneLess hi hp h
  · next hp => exact phaseMixi_oneLess hi hp h
  · next hp => exact phaseMixr_oneLess hi hp h
  · next hp => exact phaseUnpack_oneLess hi hp h
  · next hp => exact phaseB64_oneLess hi hp h

/-! ## The turns of a running command -/

theorem stepsLeft_idle {s : State} (hi : Inv s) (hb : s.status.busy = false) : stepsLeft s = 0 := by
  obtain ⟨hp, hc⟩ := hi.idleRests hb
  simp [stepsLeft, phaseSteps, hp, chainSteps_single hc]

/-- In a state of the invariant a running command has a next turn, which keeps the invariant and takes one off. -/
theorem engineTurn_running {s : State} (hi : Inv s) (hb : s.status.busy = true) :
    ∃ t, engineTurn s = .next t ∧ Inv t ∧ OneLess (stepsLeft s) t := by
  obtain ⟨t, ht⟩ := engineTurn_answers hi
  exact ⟨t, ht, engineTurn_inv hi ht, engineTurn_oneLess hi hb ht⟩

/-- Whatever holds of idle blocks, and of a running one if it does after the next turn, holds under the invariant. -/
theorem Inv.turn_induction {motive : ∀ s, Inv s → Prop}
    (idle : ∀ s (hi : Inv s), s.status.busy = false → motive s hi)
    (turn : ∀ s t (hi : Inv s) (hit : Inv t), s.status.busy = true → engineTurn s = .next t →
      OneLess (stepsLeft s) t → motive t hit → motive s hi)
    (s : State) (hi : Inv s) : motive s hi := by
  induction hk : stepsLeft s generalizing s with
  | zero =>
    refine idle s hi (Bool.eq_false_iff.mpr fun hb => ?_)
    obtain ⟨t, -, -, hless⟩ := engineTurn_running hi hb
    exact Nat.succ_ne_zero _ (hless.left.trans hk)
  | succ k ih =>
    cases hb : s.status.busy with
    | false => exact idle s hi hb
    | true =>
      obtain ⟨t, ht, hit, hless⟩ := engineTurn_running hi hb
      exact turn s t hi hit hb ht hless (ih t hit (Nat.succ_injective (hless.left.trans hk)))

/-- The turns from a running block are those from the block after its next turn, and this one. -/
theorem repeatStep_stepsLeft {s t : State} (h : engineTurn s = .next t) (hless : OneLess (stepsLeft s) t) :
    repeatStep engineTurn (stepsLeft s) s = repeatStep engineTurn (stepsLeft t) t := by
  rw [← hless.left, repeatStep_succ, h, andThen_next]

/-- After the turns that are left the block is idle, and DONE = 1 unless it was idle with DONE = 0 before. -/
theorem turns_complete {s : State} (hi : Inv s) (hdone : s.status.busy = false → s.status.done = true) :
    ∃ t, repeatStep engineTurn (stepsLeft s) s = .next t ∧ t.status.busy = false ∧ t.status.done = true := by
  induction s, hi using Inv.turn_induction with
  | idle s hi hb =>
    rw [stepsLeft_idle hi hb]
    exact ⟨s, rfl, hb, hdone hb⟩
  | turn s t hi hit hb ht hless ih =>
    rw [repeatStep_stepsLeft ht hless]
    exact ih hless.done

theorem running_completes {s : State} (hi : Inv s) (hb : s.status.busy = true) :
    ∃ t, repeatStep engineTurn (stepsLeft s) s = .next t ∧ t.status.busy = false ∧ t.status.done = true :=
  turns_complete hi fun hidle => absurd (hb.symm.trans hidle) (by simp)

/-- After any smaller number of turns the block is busy. -/
theorem turns_busy {s : State} (hi : Inv s) {k : Nat} (hk : k < stepsLeft s) :
    ∃ u, repeatStep engineTurn k s = .next u ∧ u.status.busy = true := by
  induction s, hi using Inv.turn_induction generalizing k with
  | idle s hi hb => exact absurd (stepsLeft_idle hi hb) (Nat.ne_zero_of_lt hk)
  | turn s t hi hit hb ht hless ih =>
    cases k with
    | zero => exact ⟨s, rfl, hb⟩
    | succ k =>
      rw [repeatStep_succ, ht, andThen_next]
      exact ih (Nat.lt_of_succ_lt_succ (hk.trans_eq hless.left.symm))

/-! ## The bound on a running command (R242) -/

theorem mixSteps_le {n cap : Nat} (h2 : 2 ≤ n) (hn : n ≤ cap) : mixSteps n ≤ 32 * cap := by
  have hdiv : 52 / n ≤ 52 / 2 := Nat.div_le_div_left h2 (by decide)
  have hcount : roundCount n ≤ 32 := by unfold roundCount; omega
  exact Nat.mul_le_mul hcount hn

/-- The position steps that phase 4 has left are no more than those of the whole mix. -/
theorem phaseSteps_mixr_le {s : State} (hi : Inv s) (hp : s.ph = .mixr) : phaseSteps s ≤ mixSteps s.n.toNat := by
  obtain ⟨-, -, -, -, hq, hrnd, -, -⟩ := hi.mixing hp
  have hrounds : s.q.toNat - s.rnd.toNat - 1 + 1 ≤ roundCount s.n.toNat := by unfold roundCount; omega
  calc
    phaseSteps s = (s.q.toNat - s.rnd.toNat - 1) * s.n.toNat + (s.n.toNat - s.pos.toNat) := by
      simp only [phaseSteps, hp]
    _ ≤ (s.q.toNat - s.rnd.toNat - 1 + 1) * s.n.toNat := by rw [Nat.succ_mul]; omega
    _ ≤ mixSteps s.n.toNat := Nat.mul_le_mul_right _ hrounds

/-- Inside ENCODE the count of words that the plaintext will have fits W (R142). -/
theorem chainSteps_packm_le {s : State} (hi : Inv s) (hp : s.ph = .packm) : chainSteps s ≤ 3 + 32 * nMax s.cfg := by
  obtain ⟨hpt, hready⟩ := hi.packmReady hp
  cases hc : s.chain with
  | false => exact (chainSteps_single hc).trans_le (Nat.zero_le _)
  | true =>
    obtain ⟨hpos, -⟩ := hready hc
    have hmix : mixSteps (wordsFor s.ptLen.toNat + 1) ≤ 32 * nMax s.cfg :=
      mixSteps_le (Nat.succ_le_succ (wordsFor_mono hpos)) (Nat.succ_le_succ (wordsFor_mono hpt))
    simpa [chainSteps, hc, hp] using hmix

theorem chainSteps_packk_le {s : State} (hi : Inv s) (hp : s.ph = .packk) : chainSteps s ≤ 2 + 32 * nMax s.cfg := by
  obtain ⟨-, hready⟩ := hi.packkReady hp
  cases hc : s.chain with
  | false => exact (chainSteps_single hc).trans_le (Nat.zero_le _)
  | true =>
    obtain ⟨-, hn2, hn⟩ := hready hc
    simpa [chainSteps, hc, hp] using mixSteps_le hn2 hn

theorem chainSteps_mixing_le {s : State} (hp : s.ph = .mixi ∨ s.ph = .mixr) : chainSteps s ≤ 1 := by
  unfold chainSteps
  split
  · exact Nat.zero_le 1
  · rcases hp with hp | hp <;> rw [hp]

theorem stepsLeft_le {s : State} (hi : Inv s) : stepsLeft s ≤ 4 + 32 * nMax s.cfg := by
  unfold stepsLeft
  cases hp : s.ph with
  | idle =>
    have hphase : phaseSteps s = 0 := by rw [phaseSteps, hp]
    have hchain : chainSteps s = 0 := by simp [chainSteps, hp]
    omega
  | unpack | b64 =>
    have hphase := phaseSteps_one (s := s) (by simp [hp])
    have hchain : chainSteps s = 0 := by simp [chainSteps, hp]
    omega
  | packm =>
    have hphase := phaseSteps_one (s := s) (by simp [hp])
    have hchain := chainSteps_packm_le hi hp
    omega
  | packk =>
    have hphase := phaseSteps_one (s := s) (by simp [hp])
    have hchain := chainSteps_packk_le hi hp
    omega
  | mixi =>
    obtain ⟨hn2, hn, -⟩ := (mixable_iff s).mp (hi.mixiReady hp)
    have hphase : phaseSteps s = 1 + mixSteps s.n.toNat := by simp only [phaseSteps, hp]
    have hmix := mixSteps_le hn2 hn
    have hchain := chainSteps_mixing_le (.inl hp)
    omega
  | mixr =>
    obtain ⟨hn2, hn, -⟩ := hi.mixing hp
    have hphase := phaseSteps_mixr_le hi hp
    have hmix := mixSteps_le hn2 hn
    have hchain := chainSteps_mixing_le (.inr hp)
    omega

/-- Settles O22: the turns that are left complete the command, and the capacity of W bounds them. -/
theorem runningCommandCompletes : Obligations.RunningCommandCompletes := by
  intro s hi hb
  obtain ⟨t, ht, hidle, hdone⟩ := running_completes hi hb
  exact ⟨stepsLeft s, t, stepsLeft_le hi, ht, hidle, hdone⟩

/-! ## A wait (R78) -/

theorem step_wait_idle {s : State} {rest : List Event} (h : s.events = .wait :: rest) (hb : s.status.busy = false) :
    step s = .next (pollStatus (s.withEvents rest)) := by
  rw [step, h]
  exact if_neg (by simp [hb])

theorem step_wait_busy {s : State} {rest : List Event} (h : s.events = .wait :: rest) (hb : s.status.busy = true) :
    step s = engineTurn s := by
  rw [step, h, engineTurn_busy hb]
  exact if_pos hb

/-- Settles O23, by induction on the turns that are left: a turn keeps the schedule and the replies, and the idle block
ends the wait. -/
theorem waitTerminates : Obligations.WaitTerminates := by
  intro s rest hi hev
  induction s, hi using Inv.turn_induction with
  | idle s hi hb =>
    refine ⟨1, pollStatus (s.withEvents rest), ?_, hb, rfl, rfl⟩
    rw [run_succ, step_wait_idle hev hb]
    rfl
  | turn s t hi hit hb ht hless ih =>
    have hkeeps := engineTurn_keeps ht
    obtain ⟨k, u, hu, hidle, hrest, hreplies⟩ := ih (hkeeps.events.trans hev)
    refine ⟨k + 1, u, ?_, hidle, hrest, hreplies.trans (by rw [hkeeps.replies])⟩
    rw [run_succ, step_wait_busy hev hb, ht]
    exact hu

/-! ## A command as the engine's own turns (R243) -/

/-- Where phase 3 leaves the sequencer: before the first position of the first round (R118). -/
def mixStart (s : State) : State :=
  { s with
    q := BitVec.ofNat 32 (roundCount s.n.toNat), sum := 0, zreg := s.w.read (s.n.toNat - 1), rnd := 0, pos := 0,
    ph := .mixr }

theorem phaseMixi_start {s : State} (hm : mixable s = true) : phaseMixi s = .next (mixStart s) := phaseMixi_eq s hm

/-- All the position steps, taken as steps of phase 4 or as turns of the engine, end in the same state. -/
theorem mixStart_turns {s : State} (hb : s.status.busy = true) (hm : mixable s = true) :
    repeatStep phaseMixr (mixSteps s.n.toNat) (mixStart s) =
      repeatStep engineTurn (mixSteps s.n.toNat) (mixStart s) := by
  have hrounds := fun f hf => all_rounds_steps f hf (mixStart s) hb rfl hm rfl (roundCount s.n.toNat)
    ((Nat.zero_add _).trans (toNat_roundCount _).symm) (roundCount_pos _)
  exact (hrounds phaseMixr fun _ _ _ => rfl).trans (hrounds engineTurn fun _ => engineTurn_mixr).symm

/-- A whole mix, phase 3 and all the position steps, is as many turns of the engine (R119). -/
theorem mixRun_turns {s : State} (hb : s.status.busy = true) (hp : s.ph = .mixi) (hm : mixable s = true) :
    mixRun s = repeatStep engineTurn (1 + mixSteps s.n.toNat) s := by
  have hcount : (mixStart s).q.toNat * (mixStart s).n.toNat = mixSteps s.n.toNat :=
    congrArg (· * s.n.toNat) (toNat_roundCount _)
  rw [repeatStep_add, repeatStep_one, engineTurn_mixi hb hp, mixRun, phaseMixi_start hm, andThen_next, andThen_next,
    hcount, mixStart_turns hb hm]

/-- The engine's part of ENCODE is the turns that are left, one phase after the other (R142). -/
theorem encodeRun_turns {s : State} (hi : Inv s) (hp : s.ph = .packm) (hc : s.chain = true) :
    encodeRun s = repeatStep engineTurn (stepsLeft s) s := by
  obtain ⟨a, ha, hia, hpa, hca⟩ := phasePackm_chained hi hp hc
  obtain ⟨b, hb, hib, hpb, hcb⟩ := phasePackk_chained hia hpa hca
  obtain ⟨c, hmix, hic, hpc⟩ := mixRun_chained hib hpb hcb
  have hturnS : engineTurn s = .next a := by
    rw [engineTurn_busy (hi.busy_of_phase hp (by simp)), engineStep, hp, ← ha]
  have hturnA : engineTurn a = .next b := by
    rw [engineTurn_busy (hia.busy_of_phase hpa (by simp)), engineStep, hpa, ← hb]
  have hturnC : engineTurn c = phaseUnpack c := by
    rw [engineTurn_busy (hic.busy_of_phase hpc (by simp)), engineStep, hpc]
  have hstepsB : stepsLeft b = 1 + mixSteps b.n.toNat + 1 := by simp [stepsLeft, phaseSteps, chainSteps, hpb, hcb]
  rw [repeatStep_stepsLeft hturnS (phasePackm_oneLess hi hp ha),
    repeatStep_stepsLeft hturnA (phasePackk_oneLess hia hpa hb), hstepsB, repeatStep_add,
    ← mixRun_turns (hib.busy_of_phase hpb (by simp)) hpb (hib.mixiReady hpb), encodeRun, ha, andThen_next, hb,
    andThen_next, hmix, andThen_next, andThen_next, repeatStep_one, hturnC]

theorem enginePart_turns {i : Instr} {s : State} (hi : Inv s) (hb : s.status.busy = true) (hp : s.ph = firstPhase i)
    (hc : s.chain = decide (i = .encode)) : enginePart i s = repeatStep engineTurn (stepsLeft s) s := by
  cases i with
  | packm _ | packk _ | unpack _ | b64o | b64p =>
    have hone : stepsLeft s = 1 := by rw [stepsLeft, phaseSteps, hp, chainSteps_single hc]; rfl
    rw [hone, repeatStep_one, engineTurn_busy hb, engineStep, hp]
    rfl
  | mix =>
    have hsteps : stepsLeft s = 1 + mixSteps s.n.toNat := by rw [stepsLeft, phaseSteps, hp, chainSteps_single hc]; rfl
    rw [hsteps]
    exact mixRun_turns hb hp (hi.mixiReady hp)
  | encode => exact encodeRun_turns hi hp hc
  | sreset => exact absurd hp (hi.busyHasPhase hb)

theorem stepsLeft_accept (i : Instr) (s : State) :
    stepsLeft (accept (encode i) (firstPhase i) (decide (i = .encode)) s) = engineSteps i s := by
  cases i with
  | encode => exact (Nat.add_assoc 1 3 _).symm
  | _ => rfl

/-- Settles O21: an accepted command has the turns of R243 left, and its engine part is these turns. -/
theorem execRefinesEngineSteps : Obligations.ExecRefinesEngineSteps := by
  intro i s hi hs s1
  have hexec : exec i s = ifAccepted s1 (enginePart i) := by rw [exec_eq, if_neg (by simp [hs.1])]
  constructor
  · intro hidle
    rw [hexec, ifAccepted_idle s1 hidle]
  · intro hb
    have hi1 : Inv s1 := writeCommand_inv _ hi
    have hacc := writeCommand_accepted hs.1 hb
    have hsteps : engineSteps i s = stepsLeft s1 := by rw [← stepsLeft_accept, ← hacc]
    have hturns : exec i s = repeatStep engineTurn (stepsLeft s1) s1 := by
      rw [hexec, ifAccepted_busy s1 hb, enginePart_turns hi1 hb (congrArg State.ph hacc) (congrArg State.chain hacc)]
    rw [hsteps, hturns]
    exact ⟨running_completes hi1 hb, rfl, fun k => turns_busy hi1⟩

/-! ## Straight after reset (R232) -/

theorem exec_completes (i : Instr) {s : State} (hi : Inv s) (hs : s.ready) :
    ∃ t, exec i s = .next t ∧ t.status.busy = false := by
  obtain ⟨hdropped, haccepted⟩ := execRefinesEngineSteps i s hi hs
  cases hb : (writeCommand (encode i) s).status.busy with
  | false => exact ⟨_, hdropped hb, hb⟩
  | true =>
    obtain ⟨⟨t, ht, hidle, -⟩, -⟩ := haccepted hb
    exact ⟨t, ht, hidle⟩

/-- Settles O10: the reset state meets the invariant, its plaintext is empty and its N is 0. -/
theorem commandsAfterReset : Obligations.CommandsAfterReset := by
  intro c hc
  have hs : (State.resetWith c).ready := ⟨rfl, rfl⟩
  refine ⟨fun i => exec_completes i (inv_resetWith hc) hs, ?encode, ?mix⟩
  case encode =>
    obtain ⟨hexec, -⟩ := encodeShortCircuits (State.resetWith c) hs rfl
    exact ⟨_, hexec, by simp [readCsr, statusWord_eq], rfl⟩
  case mix =>
    obtain ⟨-, -, -, -, -, -, hshort, -⟩ := firstFailingCheckFaults (State.resetWith c) hs
    exact ⟨_, hshort (by simp), by simp [readCsr, statusWord_eq], rfl, rfl⟩

end Sys2Proof.Machine
end
